-- ==== Sys2Proof/Word.lean ====
section
/-! DEFINITION. The word types of WVK and their plainest arithmetic (00_scope R4, R5). -/

namespace Sys2Proof

/-- A 32-bit word: an operand register, a control register, a command word, a binary32 encoding (R4 `XLEN`). -/
abbrev Word := BitVec 32

/-- One byte of a byte memory or of a word in a memory (R51). -/
abbrev Byte := BitVec 8

/-- One 64-bit entry of CBMEM (R87). -/
abbrev Entry := BitVec 64

/-- A host byte address, 24 bits (R4 `ALEN`). -/
abbrev Addr := BitVec 24

/-- `v mod 2^32`, the form in which a natural is stored in a register (R5, R6). -/
def wordOf (v : Nat) : Word := BitVec.ofNat 32 v

/-- A complex value: a pair of numbers (R191). -/
structure Cplx (α : Type) where
  re : α
  im : α
  deriving DecidableEq, Repr, Inhabited

end Sys2Proof
end

