-- ==== Sys2Proof/Syntax.lean ====
section
/-! DEFINITION. The commands of WVK: one constructor per row of spec/opcode_table.json (30_encoding R82, R83). -/

namespace Sys2Proof

/-- An operand register number, X0 to X15 (10_state R11). -/
abbrev Reg := Fin 16

/-- One command, "the instruction" (00_scope section 5): its operands are the free bits of R83. -/
inductive Instr where
  /-- `NOP` (R100) -/
  | nop
  /-- `LI rd, imm16` (R101) -/
  | li (rd : Reg) (imm : BitVec 16)
  /-- `LIH rd, imm16` (R102) -/
  | lih (rd : Reg) (imm : BitVec 16)
  /-- `ERRCLR` (R103) -/
  | errclr
  /-- `SRESET` (R104) -/
  | sreset
  /-- `BSINIT rs` (R112) -/
  | bsinit (rs : Reg)
  /-- `RDBOOL rd` (R113) -/
  | rdbool (rd : Reg)
  /-- `RDBITS rd, n` (R114); `n` is `imm16[5:0]` -/
  | rdbits (rd : Reg) (n : BitVec 6)
  /-- `SKIPI imm16` (R115) -/
  | skipi (imm : BitVec 16)
  /-- `SKIP rs` (R116) -/
  | skip (rs : Reg)
  /-- `RDCB rd, rs` (R118) -/
  | rdcb (rd rs : Reg)
  /-- `CRCRST` (R172) -/
  | crcrst
  /-- `CRCFEED rs, rt` (R173) -/
  | crcfeed (rs rt : Reg)
  /-- `CRCCMP rs` (R174) -/
  | crccmp (rs : Reg)
  /-- `CRCPAGE rd` (R176) -/
  | crcpage (rd : Reg)
  /-- `IMDCT bf` (R200) -/
  | imdct (bf : Bool)
  /-- `OLA rs, rt` (R229) -/
  | ola (rs rt : Reg)
  /-- `LAPUPD bf` (R230) -/
  | lapupd (bf : Bool)
  /-- `LAPRST` (R231) -/
  | laprst
  deriving DecidableEq, Repr

end Sys2Proof
end

