-- ==== Sys2Proof/WellFormed.lean ====
section
/-! DEFINITION. Which commands are well formed: the one operand whose range is not its field's (30_encoding R81, R83). -/

namespace Sys2Proof

/-- `RDBITS` requires `n ≤ 32` (R81, R83); every other operand is legal at every value of its field. -/
def Instr.wf : Instr → Bool
  | .rdbits _ n => n.toNat ≤ 32
  | .nop => true
  | .li _ _ => true
  | .lih _ _ => true
  | .errclr => true
  | .sreset => true
  | .bsinit _ => true
  | .rdbool _ => true
  | .skipi _ => true
  | .skip _ => true
  | .rdcb _ _ => true
  | .crcrst => true
  | .crcfeed _ _ => true
  | .crccmp _ => true
  | .crcpage _ => true
  | .imdct _ => true
  | .ola _ _ => true
  | .lapupd _ => true
  | .laprst => true

end Sys2Proof
end

