-- ==== Sys2Proof/Decode.lean ====
section
/-! DEFINITION. The command word: fields (30_encoding R80), decoder (R83, R84), encoder, and the decoder as the host's
opcode table numbers its bits. -/

namespace Sys2Proof

/-- Why a word is no command (R84). -/
inductive Illegal where
  /-- the opcode byte is not in R82 -/
  | unassignedOpcode
  /-- a field the command does not use is not zero -/
  | unusedFieldNotZero
  /-- `RDBITS` with `imm16[5:0] > 32` -/
  | widthOver32
  deriving DecidableEq, Repr

/-- What a decoder says of a word: exactly one command, or illegal (R84). -/
inductive Decoded where
  | command (i : Instr)
  | illegal (why : Illegal)
  deriving DecidableEq, Repr

/-- The command, where there is one. -/
def Decoded.instr? : Decoded → Option Instr
  | .command i => some i
  | .illegal _ => none

/-! ### The fields of R80 -/

/-- Bits `[lo + n - 1 : lo]` of a word, as a number (R5). -/
def bits (w : Word) (lo n : Nat) : Nat := w.toNat / 2 ^ lo % 2 ^ n

/-- `opcode`, bits [31:24]. -/
def opcodeOf (w : Word) : Nat := bits w 24 8

/-- `rd`, bits [23:20]. -/
def rdOf (w : Word) : Reg := Fin.ofNat 16 (bits w 20 4)

/-- `rs`, bits [19:16]. -/
def rsOf (w : Word) : Reg := Fin.ofNat 16 (bits w 16 4)

/-- `rt`, bits [15:12]. -/
def rtOf (w : Word) : Reg := Fin.ofNat 16 (bits w 12 4)

/-- `imm16`, bits [15:0]. -/
def immOf (w : Word) : BitVec 16 := BitVec.ofNat 16 (bits w 0 16)

/-- `n` of `RDBITS`, `imm16[5:0]` (R81). -/
def widthOf (w : Word) : BitVec 6 := BitVec.ofNat 6 (bits w 0 6)

/-- The block flag, `imm16[0]` (R81). -/
def flagOf (w : Word) : Bool := bits w 0 1 == 1

/-! ### The decoder -/

/-- The command whose opcode is `op`, its operands taken from the word; none for an opcode not in R82. -/
def candidate (op : Nat) (w : Word) : Option Instr :=
  match op with
  | 0x00 => some .nop
  | 0x01 => some (.li (rdOf w) (immOf w))
  | 0x02 => some (.lih (rdOf w) (immOf w))
  | 0x03 => some .errclr
  | 0x04 => some .sreset
  | 0x10 => some (.bsinit (rsOf w))
  | 0x11 => some (.rdbool (rdOf w))
  | 0x12 => some (.rdbits (rdOf w) (widthOf w))
  | 0x13 => some (.skipi (immOf w))
  | 0x14 => some (.skip (rsOf w))
  | 0x15 => some (.rdcb (rdOf w) (rsOf w))
  | 0x20 => some .crcrst
  | 0x21 => some (.crcfeed (rsOf w) (rtOf w))
  | 0x22 => some (.crccmp (rsOf w))
  | 0x23 => some (.crcpage (rdOf w))
  | 0x30 => some (.imdct (flagOf w))
  | 0x31 => some (.ola (rsOf w) (rtOf w))
  | 0x32 => some (.lapupd (flagOf w))
  | 0x33 => some .laprst
  | _ => none

/-- The fields a command does not use, all zero in the word (R81, R83, R84). -/
def unusedZero (i : Instr) (w : Word) : Bool :=
  match i with
  | .nop | .errclr | .sreset | .crcrst | .laprst => bits w 0 24 == 0
  | .li _ _ | .lih _ _ => bits w 16 4 == 0
  | .bsinit _ | .skip _ | .crccmp _ => bits w 20 4 == 0 && bits w 0 16 == 0
  | .rdbool _ | .crcpage _ => bits w 16 4 == 0 && bits w 0 16 == 0
  | .rdbits _ _ => bits w 16 4 == 0 && bits w 6 10 == 0
  | .skipi _ => bits w 20 4 == 0 && bits w 16 4 == 0
  | .rdcb _ _ => bits w 0 16 == 0
  | .crcfeed _ _ | .ola _ _ => bits w 20 4 == 0 && bits w 0 12 == 0
  | .imdct _ | .lapupd _ => bits w 20 4 == 0 && bits w 16 4 == 0 && bits w 1 15 == 0

/-- The decoder: total, it looks at one word and needs no other state (R84). -/
def decode (w : Word) : Decoded :=
  match candidate (opcodeOf w) w with
  | none => .illegal .unassignedOpcode
  | some i =>
    if unusedZero i w then
      if i.wf then .command i else .illegal .widthOver32
    else .illegal .unusedFieldNotZero

/-! ### The encoder -/

/-- Format I (and N, all of it zero): `opcode`, `rd`, `rs`, `imm16` (R80). -/
def formatI (op : Nat) (rd rs : Reg) (imm : Nat) : Word :=
  wordOf (op * 2 ^ 24 + rd.val * 2 ^ 20 + rs.val * 2 ^ 16 + imm)

/-- Format R: `opcode`, `rd`, `rs`, `rt`, twelve zeros (R80). -/
def formatR (op : Nat) (rd rs rt : Reg) : Word :=
  wordOf (op * 2 ^ 24 + rd.val * 2 ^ 20 + rs.val * 2 ^ 16 + rt.val * 2 ^ 12)

/-- Format N: `opcode`, twenty-four zeros (R80). -/
def formatN (op : Nat) : Word := wordOf (op * 2 ^ 24)

/-- The word of a command (R82, R83). -/
def encode : Instr → Word
  | .nop => formatN 0x00
  | .li rd imm => formatI 0x01 rd 0 imm.toNat
  | .lih rd imm => formatI 0x02 rd 0 imm.toNat
  | .errclr => formatN 0x03
  | .sreset => formatN 0x04
  | .bsinit rs => formatI 0x10 0 rs 0
  | .rdbool rd => formatI 0x11 rd 0 0
  | .rdbits rd n => formatI 0x12 rd 0 n.toNat
  | .skipi imm => formatI 0x13 0 0 imm.toNat
  | .skip rs => formatI 0x14 0 rs 0
  | .rdcb rd rs => formatI 0x15 rd rs 0
  | .crcrst => formatN 0x20
  | .crcfeed rs rt => formatR 0x21 0 rs rt
  | .crccmp rs => formatI 0x22 0 rs 0
  | .crcpage rd => formatI 0x23 rd 0 0
  | .imdct bf => formatI 0x30 0 0 bf.toNat
  | .ola rs rt => formatR 0x31 0 rs rt
  | .lapupd bf => formatI 0x32 0 0 bf.toNat
  | .laprst => formatN 0x33

/-! ### The rows of R83 -/

/-- One row of R83: a mnemonic, the bits that must be as `matchBits` has them under `mask`. -/
structure OpcodeRow where
  mnemonic : String
  matchBits : Word
  mask : Word
  deriving DecidableEq, Repr

/-- The table of R83. -/
def opcodeRows : List OpcodeRow :=
  [⟨"NOP", 0x00000000, 0xFFFFFFFF⟩, ⟨"LI", 0x01000000, 0xFF0F0000⟩, ⟨"LIH", 0x02000000, 0xFF0F0000⟩,
   ⟨"ERRCLR", 0x03000000, 0xFFFFFFFF⟩, ⟨"SRESET", 0x04000000, 0xFFFFFFFF⟩, ⟨"BSINIT", 0x10000000, 0xFFF0FFFF⟩,
   ⟨"RDBOOL", 0x11000000, 0xFF0FFFFF⟩, ⟨"RDBITS", 0x12000000, 0xFF0FFFC0⟩, ⟨"SKIPI", 0x13000000, 0xFFFF0000⟩,
   ⟨"SKIP", 0x14000000, 0xFFF0FFFF⟩, ⟨"RDCB", 0x15000000, 0xFF00FFFF⟩, ⟨"CRCRST", 0x20000000, 0xFFFFFFFF⟩,
   ⟨"CRCFEED", 0x21000000, 0xFFF00FFF⟩, ⟨"CRCCMP", 0x22000000, 0xFFF0FFFF⟩, ⟨"CRCPAGE", 0x23000000, 0xFF0FFFFF⟩,
   ⟨"IMDCT", 0x30000000, 0xFFFFFFFE⟩, ⟨"OLA", 0x31000000, 0xFFF00FFF⟩, ⟨"LAPUPD", 0x32000000, 0xFFFFFFFE⟩,
   ⟨"LAPRST", 0x33000000, 0xFFFFFFFF⟩]

/-- A word selects a row: `w AND mask = match` and, for `RDBITS`, also `w[5:0] ≤ 32` (R82). -/
def OpcodeRow.selects (r : OpcodeRow) (w : Word) : Bool :=
  (w &&& r.mask) == r.matchBits && (r.mnemonic != "RDBITS" || bits w 0 6 ≤ 32)

/-- A command's row of R83, by its mnemonic. -/
def Instr.mnemonic : Instr → String
  | .nop => "NOP"
  | .li _ _ => "LI"
  | .lih _ _ => "LIH"
  | .errclr => "ERRCLR"
  | .sreset => "SRESET"
  | .bsinit _ => "BSINIT"
  | .rdbool _ => "RDBOOL"
  | .rdbits _ _ => "RDBITS"
  | .skipi _ => "SKIPI"
  | .skip _ => "SKIP"
  | .rdcb _ _ => "RDCB"
  | .crcrst => "CRCRST"
  | .crcfeed _ _ => "CRCFEED"
  | .crccmp _ => "CRCCMP"
  | .crcpage _ => "CRCPAGE"
  | .imdct _ => "IMDCT"
  | .ola _ _ => "OLA"
  | .lapupd _ => "LAPUPD"
  | .laprst => "LAPRST"

/-! ### The assembler's notation (R85) -/

/-- A register's name, `X0` to `X15`. -/
def regText (r : Reg) : String := "X" ++ toString r.val

/-- A command as R85 writes it: its mnemonic, then its operands in the order of R82, separated by commas. -/
def Instr.text : Instr → String
  | .li rd imm => "LI " ++ regText rd ++ ", " ++ toString imm.toNat
  | .lih rd imm => "LIH " ++ regText rd ++ ", " ++ toString imm.toNat
  | .bsinit rs => "BSINIT " ++ regText rs
  | .rdbool rd => "RDBOOL " ++ regText rd
  | .rdbits rd n => "RDBITS " ++ regText rd ++ ", " ++ toString n.toNat
  | .skipi imm => "SKIPI " ++ toString imm.toNat
  | .skip rs => "SKIP " ++ regText rs
  | .rdcb rd rs => "RDCB " ++ regText rd ++ ", " ++ regText rs
  | .crcfeed rs rt => "CRCFEED " ++ regText rs ++ ", " ++ regText rt
  | .crccmp rs => "CRCCMP " ++ regText rs
  | .crcpage rd => "CRCPAGE " ++ regText rd
  | .imdct bf => "IMDCT " ++ toString bf.toNat
  | .ola rs rt => "OLA " ++ regText rs ++ ", " ++ regText rt
  | .lapupd bf => "LAPUPD " ++ toString bf.toNat
  | .nop => "NOP"
  | .errclr => "ERRCLR"
  | .sreset => "SRESET"
  | .crcrst => "CRCRST"
  | .laprst => "LAPRST"

/-- The opcode table numbers a command's bits from 0, the least significant; a command is one 32-bit word (R80), so the
bits above `nbits` are zero and the word is what the decoder reads (log 13). -/
def decodeTableWord (nbits w : Nat) : Option Instr := (decode (wordOf (w % 2 ^ nbits))).instr?

end Sys2Proof
end

