-- ==== Sys2Proof/Config.lean ====
section
/-! DEFINITION. What an implementation of WVK fixes (the parameters of 00_scope R4) and the free values: what the spec
leaves open and no proof may see. -/

namespace Sys2Proof

/-- Which `Numerics` the block was built with (R4, 93 U20): the default, IEEE 754 binary32 with the reference network, or some
other one, which is known by a number only (log 10). -/
inductive NumericsChoice where
  | binary32
  | other (k : Nat)
  deriving DecidableEq, Repr

/-- The parameters R4 takes as configuration (93 U20, U21). A state carries them; no step writes them (log 9). -/
structure Params where
  /-- `BS_BYTES`, the capacity of BSMEM in bytes. -/
  bsBytes : Nat
  /-- `CB_ENTRIES`, the 64-bit entries of CBMEM. -/
  cbEntries : Nat
  /-- `MAX_CH`, the overlap banks and output slots. -/
  maxCh : Nat
  /-- `Numerics`, the arithmetic and the FFT kernel. -/
  numerics : NumericsChoice
  deriving DecidableEq, Repr

/-- The defaults of R4. -/
def Params.default : Params := ⟨8388608, 524288, 8, .binary32⟩

/-- The values R4 allows: `BS_BYTES` any multiple of 4 in 4..8388608, `CB_ENTRIES` in 2..524288, `MAX_CH` in 1..32,
`Numerics` any. -/
abbrev Params.Valid (p : Params) : Prop :=
  4 ≤ p.bsBytes ∧ p.bsBytes ≤ 8388608 ∧ p.bsBytes % 4 = 0 ∧
  2 ≤ p.cbEntries ∧ p.cbEntries ≤ 524288 ∧ 1 ≤ p.maxCh ∧ p.maxCh ≤ 32

/-- The four operations of R190 over a number type. Rules R196 and R199 speak of them with exact numbers. -/
structure Arithmetic (α : Type) where
  add : α → α → α
  sub : α → α → α
  mul : α → α → α
  neg : α → α
  deriving Inhabited

/-- The `Numerics` parameter of R4 over a number type: the operations and the FFT kernel. `fft roots lg input` is the kernel's
transform of `2^lg` points with the table `roots` of FFTWMEM. -/
structure Numerics (α : Type) extends Arithmetic α where
  fft : (roots : Nat → Cplx α) → (lg : Nat) → (input : List (Cplx α)) → List (Cplx α)
  deriving Inhabited

/-- The rounding operations of R190, to tell their NaN results apart. -/
inductive FloatOp where
  | add | sub | mul
  deriving DecidableEq, Repr

/-- FREE VALUE (log 1, 2). The byte that an element no one has written since power-on number `gen` holds at host byte
address `a`: R292 leaves it unspecified. -/
opaque Config.powerOnByte (gen a : Nat) : Byte

/-- FREE VALUE (log 3). Where the sign and the payload of the NaN that an operation returns come from: R190 fixes
neither. -/
opaque Config.nanBits (op : FloatOp) (a b : Word) : Word

/-- FREE VALUE (log 10). The `Numerics` of a block that was not built with the default: R4 lets them be replaced as a whole. -/
opaque Config.otherNumerics : Nat → Numerics Word

/-- FREE VALUE (log 4). How many bytes the refill that ends a bit-reading command asks for: R28 does not fix when refills
happen. -/
opaque Config.refillBytes (draw : Nat) : Nat

/-- FREE VALUE (log 6). Element `i` of the IMDCT scratch after its `use`-th use or reset: R29 leaves it unspecified. -/
opaque Config.scratchElement (use i : Nat) : Cplx Word

end Sys2Proof
end

