-- ==== Sys2Proof/Machine/State.lean ====
section
/-! DEFINITION. The state of WVK as plain data (10_state R10 to R30), its inputs and outputs at the port, and its value
after a hard reset (70_reset_and_hazards R290). -/

namespace Sys2Proof.Machine

/-- Why a step could stop with a fault. WVK has no such stop: every error of a command is an error ENTRY, a next state
(60_exceptions R255, R256: "so that a model of WVK is total"), and a refused host access is a bus answer (R264).
So the type has no constructor. -/
inductive Fault where
  deriving DecidableEq, Repr

/-- Why a step could be refused. -/
inductive Refusal where
  /-- Raised by an arm of `exec` for a command that has no meaning yet. Safe: the model stops. No arm raises it. -/
  | notModelled (mnemonic : String)
  deriving DecidableEq, Repr

/-- The causes of 60_exceptions R251; `none` is code 0. The reserved codes 10 to 15 do not exist here: R251 says
"never". -/
inductive Cause where
  | none
  | decodeError
  | endOfStream
  | crcMismatch
  | illegalCommand
  | badOperand
  | tableBounds
  | malformedTable
  | badConfig
  | badSequence
  deriving DecidableEq, Repr

/-- The six fields of STATUS (R17). -/
structure Status where
  err : Bool
  imdValid : Bool
  curBf : Bool
  prevValid : Bool
  prevBf : Bool
  drop : Bool
  deriving DecidableEq, Repr

/-- The registers of R11 and R14. ID is a constant and CMD stores nothing (R15, R16), so neither has a field; reserved
bits read 0 and have no storage (R17, R18, R19, R22). -/
structure Regs where
  /-- X0..X15 (R11) -/
  x : Vector Word 16
  /-- STATUS (R17) -/
  status : Status
  /-- ERRCAUSE (R18) -/
  errCause : Cause
  /-- ERRINFO (R18) -/
  errInfo : Word
  /-- ERRCMD (R18) -/
  errCmd : Word
  /-- CTRL.IE (R19) -/
  ie : Bool
  /-- BSLEN (R20) -/
  bslen : Word
  /-- BITPOS (R20) -/
  bitpos : Word
  /-- HLEN (R20) -/
  hlen : Word
  /-- CRCACC (R21) -/
  crcAcc : Word
  /-- CRCSTORED (R21) -/
  crcStored : Word
  /-- PGLEN (R21) -/
  pgLen : Word
  /-- BSEXP bits [7:0] (R22) -/
  bsexp : BitVec 8
  /-- OUTLEN (R23) -/
  outLen : Word
  deriving DecidableEq, Repr

/-- STATUS after reset: 0 (R30). -/
def Status.reset : Status := ⟨false, false, false, false, false, false⟩

/-- The registers after hard reset, and after `SRESET` (R30, R290, R291). -/
def Regs.reset : Regs where
  x := Vector.replicate 16 0
  status := Status.reset
  errCause := .none
  errInfo := 0
  errCmd := 0
  ie := false
  bslen := 0
  bitpos := 0
  hlen := 0
  crcAcc := 0
  crcStored := 0
  pgLen := 0
  bsexp := 0
  outLen := 0

/-- The bit cache of R28: the bits, how many are valid, and the byte to fetch next. -/
structure BitCache where
  bits : BitVec 64
  cnt : Nat
  nxt : Nat
  deriving DecidableEq, Repr

/-- The empty cache of R30. -/
def BitCache.reset : BitCache := ⟨0, 0, 0⟩

/-- The model's own counters, which name the free values (log 2, 4, 6). -/
structure Draws where
  /-- how many hard resets there have been: names the unspecified contents of the memories -/
  powerOn : Nat
  /-- how often the IMDCT scratch was left with unspecified contents -/
  scratch : Nat
  /-- how many refills of the bit cache were drawn -/
  refill : Nat
  deriving DecidableEq, Repr

/-- The width of a host access. Only a word access is legal (20_memory R52). -/
inductive Width where
  | byte | half | word
  deriving DecidableEq, Repr

/-- What the outside does to WVK: a port transaction (R50) or an edge of the `rst` input (R290). -/
inductive HostAction where
  | read (width : Width) (addr : Addr)
  | write (width : Width) (addr : Addr) (value : Word)
  | assertRst
  | releaseRst
  deriving DecidableEq, Repr

/-- What the port answers (R50, R52): a read's data, OK for a write, or ERR. -/
inductive Answer where
  | data (value : Word)
  | ok
  | err
  deriving DecidableEq, Repr

/-- The state of WVK. -/
structure State where
  /-- every register (R11, R14) -/
  regs : Regs
  /-- the twelve memories (R27), by host byte address (20_memory R53): addresses strictly rising; an address that is not
  listed has not been written since power-on (log 1) -/
  mem : List Host.Cell
  /-- the bit cache (R28) -/
  cache : BitCache
  /-- the counters behind the free values (log 2, 4, 6) -/
  draws : Draws
  /-- the parameters the block was built with (R4); configuration, no step writes it (log 9) -/
  cfg : Params
  /-- the level of the `rst` input (R290) -/
  rst : Bool
  /-- the host actions not yet served, oldest first (R12, R58; log 7) -/
  pending : List HostAction
  /-- the answer to the last transaction (R50; log 7) -/
  answer : Option Answer
  deriving DecidableEq, Repr

/-- The machine right after hard reset (R30, R290), with the default parameters of R4 and no host action pending. -/
def State.reset : State where
  regs := Regs.reset
  mem := []
  cache := BitCache.reset
  draws := ⟨0, 0, 0⟩
  cfg := Params.default
  rst := false
  pending := []
  answer := none

end Sys2Proof.Machine
end

