-- ==== Sys2Proof/Machine/Ops.lean ====
section
/-! DEFINITION. The operations every command shares: memory by host byte address (20_memory R51, R53, R55), operand
registers, the bit cache (10_state R28), taking an error and returning from it (60_exceptions R256, R258), the reset of
the registers (10_state R30). -/

namespace Sys2Proof.Machine

/-! ### Memory cells -/

/-- Memory cells by host byte address. -/
abbrev Memory := List Host.Cell

/-- The canonical form: addresses strictly rising. An address that is not listed has no value (R292), so no listed byte
can equal what an unlisted address reads as (log 1). -/
abbrev Memory.wf (m : Memory) : Prop := m.Pairwise (fun c d => c.1 < d.1)

/-- The byte someone wrote at `a`, if anyone did since power-on. -/
def Memory.get? : Memory → Nat → Option Byte
  | [], _ => none
  | c :: m, a => if c.1 = a then some c.2 else Memory.get? m a

/-- Consecutive cells from `a` on. -/
def Memory.run : Nat → List Byte → Memory
  | _, [] => []
  | a, b :: bs => (a, b) :: Memory.run (a + 1) bs

/-- Write consecutive bytes from `a` on; every other address keeps what it has. -/
def Memory.store (m : Memory) (a : Nat) (bs : List Byte) : Memory :=
  m.filter (fun c => c.1 < a) ++ (Memory.run a bs ++ m.filter (fun c => a + bs.length ≤ c.1))

/-- The four bytes of a word, the least significant at the lowest address (R51). -/
def bytesOf (w : Word) : List Byte :=
  [w.extractLsb' 0 8, w.extractLsb' 8 8, w.extractLsb' 16 8, w.extractLsb' 24 8]

/-- The word of four bytes, the first the least significant (R51). -/
def wordOfBytes (b0 b1 b2 b3 : Byte) : Word := b3 ++ b2 ++ b1 ++ b0

/-- The byte at host byte address `a`: what was written there, and where nothing was written since power-on the free
value of R292 (log 1). -/
def State.byteAt (s : State) (a : Nat) : Byte :=
  (Memory.get? s.mem a).getD (Config.powerOnByte s.draws.powerOn a)

/-- The word at host byte address `a` (R51). -/
def State.wordAt (s : State) (a : Nat) : Word :=
  wordOfBytes (s.byteAt a) (s.byteAt (a + 1)) (s.byteAt (a + 2)) (s.byteAt (a + 3))

/-- Write consecutive words from host byte address `a` on. -/
def State.storeWords (s : State) (a : Nat) (ws : List Word) : State :=
  { s with mem := Memory.store s.mem a (ws.flatMap bytesOf) }

/-! ### The address map of R53 -/

/-- The twelve memories (10_state R27). -/
inductive MemName where
  | pg | spec | imd | tw0 | tw1 | fftw | win0 | win1 | ovl | out | cb | bs
  deriving DecidableEq, Repr

/-- All twelve, in the order of R53. -/
def MemName.all : List MemName := [.pg, .spec, .imd, .tw0, .tw1, .fftw, .win0, .win1, .ovl, .out, .cb, .bs]

/-- The base of a memory's window (R53). -/
def MemName.base : MemName → Nat
  | .pg => 0x010000
  | .spec => 0x020000
  | .imd => 0x028000
  | .tw0 => 0x030000
  | .tw1 => 0x034000
  | .fftw => 0x038000
  | .win0 => 0x040000
  | .win1 => 0x044000
  | .ovl => 0x080000
  | .out => 0x100000
  | .cb => 0x400000
  | .bs => 0x800000

/-- The size in bytes of a memory's window (R53). -/
def MemName.size (p : Params) : MemName → Nat
  | .pg => 0x10000
  | .spec => 0x4000
  | .imd => 0x8000
  | .tw0 => 0x4000
  | .tw1 => 0x4000
  | .fftw => 0x2000
  | .win0 => 0x4000
  | .win1 => 0x4000
  | .ovl => p.maxCh * 0x4000
  | .out => p.maxCh * 0x8000
  | .cb => p.cbEntries * 8
  | .bs => p.bsBytes

/-- Address `a` lies in the window of memory `m`. -/
def MemName.holds (p : Params) (m : MemName) (a : Nat) : Bool := m.base ≤ a && a < m.base + m.size p

/-- The memory whose window holds `a`, if one does (R52, R53). -/
def memoryAt (p : Params) (a : Nat) : Option MemName := MemName.all.find? (fun m => m.holds p a)

/-! ### The elements the units read (10_state R27, 20_memory R53, R55, R57) -/

/-- `BS[k]`, a byte of BSMEM. -/
def State.bsByte (s : State) (k : Nat) : Byte := s.byteAt (MemName.bs.base + k)

/-- `PG[k]`, a byte of PGMEM. -/
def State.pgByte (s : State) (k : Nat) : Byte := s.byteAt (MemName.pg.base + k)

/-- `CB[i]`, an entry of CBMEM: low word at the lower address (R55). -/
def State.cbEntry (s : State) (i : Nat) : Entry :=
  s.wordAt (MemName.cb.base + 8 * i + 4) ++ s.wordAt (MemName.cb.base + 8 * i)

/-- Element `i` of a memory of binary32 words. -/
def State.element (s : State) (m : MemName) (i : Nat) : Word := s.wordAt (m.base + 4 * i)

/-- Element `k` of a memory of complex numbers: `re` at the lower address (R55). -/
def State.complexElement (s : State) (m : MemName) (k : Nat) : Cplx Word :=
  ⟨s.wordAt (m.base + 8 * k), s.wordAt (m.base + 8 * k + 4)⟩

/-- Host byte address of overlap bank `c` (R53). -/
def ovlBank (c : Nat) : Nat := MemName.ovl.base + c * 0x4000

/-- Host byte address of output slot `n` (R53). -/
def outSlot (n : Nat) : Nat := MemName.out.base + n * 0x8000

/-- `OVL[c][i]`. -/
def State.ovl (s : State) (c i : Nat) : Word := s.wordAt (ovlBank c + 4 * i)

/-- `OUT[n][i]`. -/
def State.out (s : State) (n i : Nat) : Word := s.wordAt (outSlot n + 4 * i)

/-! ### Operand registers (R6, R11) -/

/-- `x[r]`. -/
def State.reg (s : State) (r : Reg) : Word := s.regs.x[r.val]

/-- `x[r] <- v`. -/
def State.setReg (s : State) (r : Reg) (v : Word) : State :=
  { s with regs.x := s.regs.x.set r.val v }

/-! ### The bit stream (41_huffman R110, R111, R117) -/

/-- `Σ_{i<n} f(p+i)·2^i`. -/
def sumBits (f : Nat → Nat) : Nat → Nat → Nat
  | _, 0 => 0
  | p, n + 1 => f p + 2 * sumBits f (p + 1) n

/-- `bit(j)` (R110). -/
def State.bit (s : State) (j : Nat) : Nat := (s.bsByte (j / 8)).toNat / 2 ^ (j % 8) % 2

/-- `bitz(j)`: the stream bit, and 0 beyond the end of the stream (R117). -/
def State.bitz (s : State) (j : Nat) : Nat := if j < 8 * s.regs.bslen.toNat then s.bit j else 0

/-- `Take(p, n)` (R110). -/
def State.take (s : State) (p n : Nat) : Nat := sumBits s.bit p n

/-- `Peek(p, w)` (R117). -/
def State.peek (s : State) (p w : Nat) : Nat := sumBits s.bitz p w

/-- `rem`, the bits that remain (R111, log 15). -/
def State.rem (s : State) : Nat := 8 * s.regs.bslen.toNat - s.regs.bitpos.toNat

/-! ### The bit cache (R28, 20_memory R61) -/

/-- The empty cache at bit position `p`: the next read refills from there (R61, log 5). -/
def BitCache.emptyAt (p : Nat) : BitCache := ⟨0, 0, p / 8⟩

/-- Take `n ≤ cnt` bits out of the cache. -/
def BitCache.drop (c : BitCache) (n : Nat) : BitCache := ⟨c.bits >>> n, c.cnt - n, c.nxt⟩

/-- A cache that holds the stream bits from `p` to the next byte boundary. -/
def State.cacheFrom (s : State) (p : Nat) : BitCache :=
  let nxt := (p + 7) / 8
  let cnt := 8 * nxt - p
  ⟨BitVec.ofNat 64 (s.take p cnt), cnt, nxt⟩

/-- A refill that asks for `k` bytes: it moves no more than fit (`8k ≤ 64 − cnt`) and no more than are left
(`k ≤ BSLEN − nxt`), so at most 8 (R28). -/
def State.refill (s : State) (c : BitCache) (k : Nat) : BitCache :=
  let k := min k (min ((64 - c.cnt) / 8) (s.regs.bslen.toNat - c.nxt))
  ⟨c.bits ||| (BitVec.ofNat 64 (s.take (8 * c.nxt) (8 * k)) <<< c.cnt), c.cnt + 8 * k, c.nxt + k⟩

/-- The cache after a command that reads bits has consumed `n` of them, so that the position is `p + n`: what is left of
the cache, or of the byte the last bit came from, and then a refill of an unfixed size (R28, log 4). -/
def State.cacheAfterRead (s : State) (n : Nat) : BitCache :=
  let left := if 0 < s.cache.cnt ∧ n ≤ s.cache.cnt then s.cache.drop n else s.cacheFrom (s.regs.bitpos.toNat + n)
  s.refill left (Config.refillBytes s.draws.refill)

/-- The cache after a command that skips `n` bits and reads no memory (10_state R27): what is left of the cache, or
nothing. -/
def State.cacheAfterSkip (s : State) (n : Nat) : BitCache :=
  if n ≤ s.cache.cnt ∧ 0 < s.cache.cnt then s.cache.drop n else BitCache.emptyAt (s.regs.bitpos.toNat + n)

/-- `BITPOS <- BITPOS + n` by a command that reads the bits (log 15). -/
def State.consume (s : State) (n : Nat) : State :=
  { s with
    regs.bitpos := wordOf (s.regs.bitpos.toNat + n)
    cache := s.cacheAfterRead n
    draws.refill := s.draws.refill + 1 }

/-- `BITPOS <- BITPOS + n` by a command that only skips. -/
def State.skipBits (s : State) (n : Nat) : State :=
  { s with
    regs.bitpos := wordOf (s.regs.bitpos.toNat + n)
    cache := s.cacheAfterSkip n }

/-! ### Taking an error and returning from it (60_exceptions R256, R258) -/

/-- Error entry: `ERRCAUSE`, `ERRINFO`, `ERRCMD` and `STATUS.ERR` are written together, nothing else changes (R256). -/
def raise (c : Cause) (info : Nat) (w : Word) (s : State) : State :=
  { s with
    regs.errCause := c
    regs.errInfo := wordOf info
    regs.errCmd := w
    regs.status.err := true }

/-- The return from an error: `ERR`, `DROP` and the three error registers are cleared, nothing else changes (R258). -/
def errorReturn (s : State) : State :=
  { s with
    regs.status.err := false
    regs.status.drop := false
    regs.errCause := .none
    regs.errInfo := 0
    regs.errCmd := 0 }

/-- A command dropped in run state ERROR: `STATUS.DROP <- 1`, nothing else changes (R257). -/
def dropCommand (s : State) : State := { s with regs.status.drop := true }

/-- What a command's rule comes to: all its writes, or a `raise` (40_sys R105 step 4). -/
inductive Effect where
  | done (t : State)
  | raised (c : Cause) (info : Nat)

/-- All the writes of a rule take effect together, or none does and the error is entered (R105 step 4, R256). `ERRCMD`
gets the command's word (log 12). -/
def commit (i : Instr) (s : State) : Effect → State
  | .done t => t
  | .raised c info => raise c info (encode i) s

/-- Every command ends in a next state (R105, R255). -/
def settle (i : Instr) (s : State) (e : Effect) : Host.Outcome State Fault Refusal := .next (commit i s e)

/-! ### Reset (10_state R30, 40_sys R104, 70_reset_and_hazards R290 to R292) -/

/-- Every register takes its reset value and the bit cache is emptied; no memory changes (R104, R291). -/
def softReset (s : State) : State := { s with regs := Regs.reset, cache := BitCache.reset }

/-- `rst` is released: every register has its reset value, the contents of every memory and of the scratch are
unspecified anew (R290, R292; log 2, 6, 8). -/
def hardReset (s : State) : State :=
  { softReset s with
    mem := []
    draws := { s.draws with powerOn := s.draws.powerOn + 1, scratch := s.draws.scratch + 1 }
    rst := false
    answer := none }

/-- Element `i` of the IMDCT scratch, as the last use of the engine or the last reset left it: a free value that no command
reads (10_state R29, log 6). -/
def State.scratchElement (s : State) (i : Nat) : Cplx Word := Config.scratchElement s.draws.scratch i

end Sys2Proof.Machine
end

