-- ==== Sys2Proof/Machine/Flags.lean ====
section
/-! DEFINITION. The fields of STATUS: who sets and who clears them (10_state R17), the word the host reads, and the
interrupt output (60_exceptions R261). `ERR` and `DROP` are written by the error operations of Ops. WVK has no arithmetic
flags (10_state R13). -/

namespace Sys2Proof.Machine

/-- `IMDVALID <- 1 ; CURBF <- bf`, by `IMDCT` (R17, 44_imdct R200). -/
def State.setImdResult (s : State) (bf : Bool) : State :=
  { s with regs.status.imdValid := true, regs.status.curBf := bf }

/-- `IMDVALID <- 0`, by `OLA` (R17, 45_overlap_add R229). -/
def State.consumeImdResult (s : State) : State := { s with regs.status.imdValid := false }

/-- `PREV_VALID <- 1 ; PREV_BF <- bf`, by `LAPUPD` (R17, 45_overlap_add R230). -/
def State.setLapping (s : State) (bf : Bool) : State :=
  { s with regs.status.prevValid := true, regs.status.prevBf := bf }

/-- `PREV_VALID <- 0 ; PREV_BF <- 0`, by `LAPRST` (R17, 45_overlap_add R231). -/
def State.clearLapping (s : State) : State :=
  { s with regs.status.prevValid := false, regs.status.prevBf := false }

/-- STATUS as the host reads it: bits 0 to 5, the reserved bits 0 (R17). -/
def Status.word (t : Status) : Word :=
  wordOf (t.err.toNat + 2 * t.imdValid.toNat + 4 * t.curBf.toNat + 8 * t.prevValid.toNat + 16 * t.prevBf.toNat +
    32 * t.drop.toNat)

/-- The cause codes (60_exceptions R251). -/
def Cause.code : Cause → Word
  | .none => 0
  | .decodeError => 1
  | .endOfStream => 2
  | .crcMismatch => 3
  | .illegalCommand => 4
  | .badOperand => 5
  | .tableBounds => 6
  | .malformedTable => 7
  | .badConfig => 8
  | .badSequence => 9

/-- `irq = CTRL.IE AND STATUS.ERR`, a level (R261). -/
def State.irq (s : State) : Bool := s.regs.ie && s.regs.status.err

end Sys2Proof.Machine
end

