-- ==== Sys2Proof/Machine/Operands.lean ====
section
/-! DEFINITION. Operand forms: register operands as naturals (30_encoding R81, 60_exceptions R260), block sizes from BSEXP
(10_state R22, 00_scope R7), codebook entry fields (42_codebook_table R140), the page's fields (43_crc R175). -/

namespace Sys2Proof.Machine

/-- A register operand: a natural below `2^32`, compared as such (R260). -/
def State.operand (s : State) (r : Reg) : Nat := (s.reg r).toNat

/-! ### Block sizes (R7, R22) -/

/-- `BS0EXP`, BSEXP bits [3:0]. -/
def State.bs0Exp (s : State) : Nat := s.regs.bsexp.toNat % 16

/-- `BS1EXP`, BSEXP bits [7:4]. -/
def State.bs1Exp (s : State) : Nat := s.regs.bsexp.toNat / 16

/-- BSEXP is a valid pair: `6 ≤ BS0EXP ≤ BS1EXP ≤ 13` (R22). -/
abbrev State.configValid (s : State) : Prop := 6 ≤ s.bs0Exp ∧ s.bs0Exp ≤ s.bs1Exp ∧ s.bs1Exp ≤ 13

/-- `bs0`, the short block size in samples. -/
def State.bs0 (s : State) : Nat := 2 ^ s.bs0Exp

/-- `bs1`, the long block size in samples. -/
def State.bs1 (s : State) : Nat := 2 ^ s.bs1Exp

/-- The block size a block flag selects (44_imdct R194, 45_overlap_add R221). -/
def State.blockSize (s : State) (bf : Bool) : Nat := if bf then s.bs1 else s.bs0

/-- The twiddle memory of a block flag (44_imdct R200). -/
def twiddleMem (bf : Bool) : MemName := if bf then .tw1 else .tw0

/-- The window memory of a block flag (45_overlap_add R223). -/
def windowMem (bf : Bool) : MemName := if bf then .win1 else .win0

/-! ### Codebook entries (R87, R140) -/

/-- `e.jump`, bit 63. -/
def Entry.jump (e : Entry) : Bool := e.toNat / 2 ^ 63 == 1

/-- `e.off`, bits [62:32]. -/
def Entry.off (e : Entry) : Nat := e.toNat / 2 ^ 32 % 2 ^ 31

/-- `e.len`, bits [31:0]. -/
def Entry.len (e : Entry) : Nat := e.toNat % 2 ^ 32

/-! ### The page at `PG[0]` (R175) -/

/-- `nseg`, the segment count. -/
def State.pageSegments (s : State) : Nat := (s.pgByte 26).toNat

/-- `body`, the sum of the lacing bytes. -/
def State.pageBody (s : State) : Nat := ((List.range s.pageSegments).map (fun i => (s.pgByte (27 + i)).toNat)).sum

/-- `total = 27 + nseg + body`. -/
def State.pageTotal (s : State) : Nat := 27 + s.pageSegments + s.pageBody

/-- `stored`, the page's CRC field, little-endian. -/
def State.pageStored (s : State) : Word := wordOfBytes (s.pgByte 22) (s.pgByte 23) (s.pgByte 24) (s.pgByte 25)

/-- Byte `k` of the page as it is fed to the checksum: the CRC field reads as four zeros (R175, R176). -/
def State.pageFedByte (s : State) (k : Nat) : Byte := if 22 ≤ k ∧ k ≤ 25 then 0 else s.pgByte k

end Sys2Proof.Machine
end

