-- ==== Sys2Proof/Machine/Crc.lean ====
section
/-! DEFINITION. The CRC unit: the checksum of the Ogg variant and the page check (43_crc R170 to R176). -/

namespace Sys2Proof.Machine

/-- One shift of R170's loop. -/
def crcShift (c : Word) : Word := if c.msb then (c <<< 1) ^^^ 0x04C11DB7 else c <<< 1

/-- `n` shifts. -/
def crcShifts : Nat → Word → Word
  | 0, c => c
  | n + 1, c => crcShifts n (crcShift c)

/-- `crcstep(c, b)` (R170). -/
def crcStep (c : Word) (b : Byte) : Word := crcShifts 8 (c ^^^ (b.setWidth 32 <<< 24))

/-- `crc(c0, bytes)` (R171). -/
def crc (c0 : Word) (bytes : List Byte) : Word := bytes.foldl crcStep c0

/-- The bytes `PG[a] .. PG[a+l-1]`. -/
def State.pgBytes (s : State) (a l : Nat) : List Byte := (List.range l).map (fun i => s.pgByte (a + i))

/-- The checksum of the whole page at `PG[0]`, its CRC field read as zero (R176). -/
def State.pageCrc (s : State) : Word := crc 0 ((List.range s.pageTotal).map s.pageFedByte)

/-- `CRCRST` (R172): `CRCACC <- 0`. -/
def execCrcrst (s : State) : Host.Outcome State Fault Refusal :=
  settle .crcrst s (.done { s with regs.crcAcc := 0 })

/-- `CRCFEED rs, rt` (R173). -/
def execCrcfeed (rs rt : Reg) (s : State) : Host.Outcome State Fault Refusal :=
  settle (.crcfeed rs rt) s (
    let a := s.operand rs
    let l := s.operand rt
    if a > 65536 then .raised .badOperand a
    else if l > 65536 - a then .raised .badOperand l
    else .done { s with regs.crcAcc := crc s.regs.crcAcc (s.pgBytes a l) })

/-- `CRCCMP rs` (R174). -/
def execCrccmp (rs : Reg) (s : State) : Host.Outcome State Fault Refusal :=
  settle (.crccmp rs) s (
    if s.regs.crcAcc ≠ s.reg rs then .raised .crcMismatch s.regs.crcAcc.toNat else .done s)

/-- `CRCPAGE rd` (R176). -/
def execCrcpage (rd : Reg) (s : State) : Host.Outcome State Fault Refusal :=
  settle (.crcpage rd) s (
    if s.pageCrc ≠ s.pageStored then .raised .crcMismatch s.pageCrc.toNat
    else .done { s.setReg rd (wordOf s.pageTotal) with
      regs.crcAcc := s.pageCrc
      regs.crcStored := s.pageStored
      regs.pgLen := wordOf s.pageTotal })

end Sys2Proof.Machine
end

