-- ==== Sys2Proof/Machine/Huffman.lean ====
section
/-! DEFINITION. The HUF unit: the bit reader and the codebook decode (41_huffman R110 to R119). -/

namespace Sys2Proof.Machine

/-- `BSINIT rs` (R112): bind the reader to the first `x[rs]` bytes of BSMEM, rewind, empty the bit cache. -/
def execBsinit (rs : Reg) (s : State) : Host.Outcome State Fault Refusal :=
  settle (.bsinit rs) s (
    let len := s.operand rs
    if len > s.cfg.bsBytes then .raised .badOperand len
    else .done { s with regs.bslen := wordOf len, regs.bitpos := 0, cache := BitCache.emptyAt 0 })

/-- A read of `n` bits into `rd`, or `EndOfStream` (R113, R114). -/
def readBits (rd : Reg) (n : Nat) (s : State) : Effect :=
  if s.rem < n then .raised .endOfStream s.rem
  else .done ((s.setReg rd (wordOf (s.take s.regs.bitpos.toNat n))).consume n)

/-- An advance by `n` bits that returns nothing, or `EndOfStream` (R115, R116). -/
def ignoreBits (n : Nat) (s : State) : Effect :=
  if s.rem < n then .raised .endOfStream s.rem else .done (s.skipBits n)

/-- `RDBOOL rd` (R113): equal in every respect to a read of one bit. -/
def execRdbool (rd : Reg) (s : State) : Host.Outcome State Fault Refusal := settle (.rdbool rd) s (readBits rd 1 s)

/-- `RDBITS rd, n` (R114). -/
def execRdbits (rd : Reg) (n : BitVec 6) (s : State) : Host.Outcome State Fault Refusal :=
  settle (.rdbits rd n) s (readBits rd n.toNat s)

/-- `SKIPI imm16` (R115). -/
def execSkipi (imm : BitVec 16) (s : State) : Host.Outcome State Fault Refusal :=
  settle (.skipi imm) s (ignoreBits imm.toNat s)

/-- `SKIP rs` (R116): the count is a natural, it never wraps. -/
def execSkip (rs : Reg) (s : State) : Host.Outcome State Fault Refusal :=
  settle (.skip rs) s (ignoreBits (s.operand rs) s)

/-! ### The codebook walk (R118) -/

/-- How a walk ends: a payload and the bits consumed, or a `raise`. -/
inductive WalkEnd where
  | value (payload consumed : Nat)
  | raised (c : Cause) (info : Nat)
  deriving DecidableEq, Repr

/-- The loop of R118, at most `fuel` passes of it. `base + off` begins the block, `width` is its width, `src` the entry that
named it (R118's `from`), `consumed` the bits jumped over so far. Without fuel the walk ends as a stream does; R119 shows that `rem + 1`
passes are never exceeded. -/
def walk (s : State) (base : Nat) : (fuel width off src consumed : Nat) → WalkEnd
  | 0, _, _, _, _ => .raised .endOfStream s.rem
  | fuel + 1, width, off, src, consumed =>
    if width = 0 ∨ 32 < width then .raised .malformedTable src
    else
      let a := base + off + s.peek (s.regs.bitpos.toNat + consumed) width
      if s.cfg.cbEntries ≤ a then .raised .tableBounds a
      else
        let e := s.cbEntry a
        if Entry.jump e then
          if s.rem < consumed + width then .raised .endOfStream s.rem
          else walk s base fuel (Entry.len e) (Entry.off e) a (consumed + width)
        else if Entry.len e = 0 then
          if s.rem < consumed + width then .raised .endOfStream s.rem else .raised .decodeError a
        else if s.rem < consumed + Entry.len e then .raised .endOfStream s.rem
        else .value (Entry.off e) (consumed + Entry.len e)

/-- The whole of R118's decode with the codebook at `base`: the sentinel's own tests, then the loop. -/
def decodeCode (s : State) (base : Nat) : WalkEnd :=
  if s.cfg.cbEntries ≤ base then .raised .tableBounds base
  else
    let sentinel := s.cbEntry base
    if Entry.jump sentinel then walk s base (s.rem + 1) (Entry.len sentinel) (Entry.off sentinel) base 0
    else .raised .malformedTable base

/-- `RDCB rd, rs` (R118): the base is read before `rd` is written. -/
def execRdcb (rd rs : Reg) (s : State) : Host.Outcome State Fault Refusal :=
  settle (.rdcb rd rs) s (
    match decodeCode s (s.operand rs) with
    | .raised c info => .raised c info
    | .value payload consumed =>
      .done { (s.setReg rd (wordOf payload)).consume consumed with regs.hlen := wordOf consumed })

end Sys2Proof.Machine
end

