-- ==== Sys2Proof/Machine/Float.lean ====
section
/-! DEFINITION. Binary32 arithmetic (44_imdct R190) on 32-bit encodings, in exact natural-number arithmetic with one
rounding at the end, and the clamp of 45_overlap_add R226. -/

namespace Sys2Proof.Machine

/-! ### The encoding (20_memory R55) -/

/-- The sign bit [31]. -/
def fSign (a : Word) : Bool := a.toNat / 2 ^ 31 == 1

/-- The encoding without its sign, bits [30:0]: encodings of one sign are ordered by it. -/
def fMag (a : Word) : Nat := a.toNat % 2 ^ 31

/-- The exponent field [30:23]. -/
def fExp (a : Word) : Nat := fMag a / 2 ^ 23

/-- The fraction field [22:0]. -/
def fFrac (a : Word) : Nat := fMag a % 2 ^ 23

/-- The magnitude of either infinity. -/
def fInfMag : Nat := 0x7F800000

/-- A NaN: exponent all ones, fraction not zero. -/
def fIsNan (a : Word) : Bool := fInfMag < fMag a

/-- An infinity of either sign. -/
def fIsInf (a : Word) : Bool := fMag a == fInfMag

/-- A finite encoding. -/
def fIsFinite (a : Word) : Bool := fMag a < fInfMag

/-- The significand of a finite encoding: its value is `± fSig a · 2^(fPos a) · 2^(−149)`. Subnormals are kept (R190). -/
def fSig (a : Word) : Nat := if fExp a = 0 then fFrac a else 2 ^ 23 + fFrac a

/-- The place of the significand's last bit, in binades above `2^(−149)`. -/
def fPos (a : Word) : Nat := fExp a - 1

/-- An encoding from a sign and a magnitude. -/
def fPack (neg : Bool) (mag : Nat) : Word := wordOf (mag + if neg then 2 ^ 31 else 0)

/-- `fneg`: the sign bit inverted, exactly, for every encoding (R190). -/
def fneg (a : Word) : Word := a ^^^ 0x80000000

/-! ### Rounding -/

/-- `m / 2^d` rounded to the nearest natural, ties to even. -/
def roundShift (m d : Nat) : Nat :=
  if 2 ^ d < 2 * (m % 2 ^ d) ∨ (2 ^ d = 2 * (m % 2 ^ d) ∧ m / 2 ^ d % 2 = 1) then m / 2 ^ d + 1 else m / 2 ^ d

/-- The magnitude nearest to `m · 2^(k − 298)`, ties to even, an infinity on overflow (R190). `pos` is the place of the
last significand bit, no lower than that of the subnormals; a significand that rounds up to `2^24` carries into the exponent
by itself. -/
def roundMag (m k : Nat) : Nat :=
  let pos := k + (Nat.log2 m + 1) - 173
  let sig := if pos + 149 ≤ k then m * 2 ^ (k - (pos + 149)) else roundShift m (pos + 149 - k)
  if m = 0 then 0 else min fInfMag (pos * 2 ^ 23 + sig)

/-! ### The operations of R190 -/

/-- The NaN an operation returns: its sign and its payload are free, that it is a NaN is not (R190, 93 U5; log 3). -/
def nanResult (op : FloatOp) (a b : Word) : Word :=
  let free := (Config.nanBits op a b).toNat
  let payload := free % 2 ^ 23
  fPack (free / 2 ^ 31 == 1) (fInfMag + if payload = 0 then 2 ^ 22 else payload)

/-- The product's exact magnitude, rounded once. -/
def mulFinite (a b : Word) : Word :=
  fPack (fSign a != fSign b) (roundMag (fSig a * fSig b) (fPos a + fPos b))

/-- `fmul(a, b)` (R190): `0 × ∞` is a NaN. -/
def fmul (a b : Word) : Word :=
  if fIsNan a || fIsNan b then nanResult .mul a b
  else if fIsInf a || fIsInf b then
    if fMag a = 0 ∨ fMag b = 0 then nanResult .mul a b else fPack (fSign a != fSign b) fInfMag
  else mulFinite a b

/-- The exact value of a finite encoding, in units of `2^(−149)`. -/
def fValue (a : Word) : Int :=
  if fSign a then -((fSig a * 2 ^ fPos a : Nat) : Int) else ((fSig a * 2 ^ fPos a : Nat) : Int)

/-- The sum's exact value, rounded once. An exact zero sum is +0, but for `(−0) + (−0)` (log 11). -/
def addFinite (a b : Word) : Word :=
  let v := fValue a + fValue b
  fPack (if v = 0 then fSign a && fSign b else v < 0) (roundMag v.natAbs 149)

/-- An operation's sum of `a` and `b`; `op` and `b'` name the operation and its second operand for a NaN result. -/
def addWith (op : FloatOp) (a b b' : Word) : Word :=
  if fIsNan a || fIsNan b then nanResult op a b'
  else if fIsInf a then
    if fIsInf b && fSign a != fSign b then nanResult op a b' else a
  else if fIsInf b then b
  else addFinite a b

/-- `fadd(a, b)` (R190): `∞ − ∞` is a NaN. -/
def fadd (a b : Word) : Word := addWith .add a b b

/-- `fsub(a, b)` (R190): the exact difference, rounded once. -/
def fsub (a b : Word) : Word := addWith .sub a (fneg b) b

/-- The operations of the default `Numerics` of R4. -/
def binary32 : Arithmetic Word := ⟨fadd, fsub, fmul, fneg⟩

/-! ### Comparison and clamp (45_overlap_add R226) -/

/-- A number by which encodings that are no NaN are ordered; both zeros have the same. -/
def fOrder (a : Word) : Int := if fSign a then -(fMag a : Int) else (fMag a : Int)

/-- The IEEE comparison `a < b`: false where either is a NaN (R226). -/
def fLess (a b : Word) : Bool := !fIsNan a && !fIsNan b && fOrder a < fOrder b

/-- 1.0 -/
def fOne : Word := 0x3F800000

/-- −1.0 -/
def fMinusOne : Word := 0xBF800000

/-- `clamp(v)` (R226): a NaN fails both tests and passes. -/
def clamp (v : Word) : Word := if fLess fOne v then fOne else if fLess v fMinusOne then fMinusOne else v

end Sys2Proof.Machine
end

