-- ==== Sys2Proof/Machine/Imdct.lean ====
section
/-! DEFINITION. The IMDCT unit (44_imdct R190 to R201). The three steps are written over any `Numerics`, so that rules R196
and R199 can be stated of them with exact numbers; the machine runs them over the `Numerics` it was built with (R4). `n` is the spectrum length,
`M = n/2` (written `m`) the FFT size, `q = n/4` (00_scope R7). -/

namespace Sys2Proof.Machine

/-- `rev_W(v)`: the `W`-bit reversal (00_scope R5). -/
def rev : Nat → Nat → Nat
  | 0, _ => 0
  | w + 1, v => v % 2 * 2 ^ w + rev w (v / 2)

/-- Step 1, pre-twiddle and packing (R195): `S[i]` for `i < m`, from the spectrum and the twiddles. -/
def preTwiddle {α : Type} (num : Arithmetic α) (m : Nat) (spec : Nat → α) (tw : Nat → Cplx α) : List (Cplx α) :=
  (List.range m).map fun i =>
    let even := spec (2 * i)
    let odd := num.neg (spec (2 * m - 1 - 2 * i))
    let w := tw i
    ⟨num.sub (num.mul odd w.im) (num.mul even w.re), num.add (num.mul odd w.re) (num.mul even w.im)⟩

/-- The twiddled product `t` of a butterfly (R197). -/
def butterflyProduct {α : Type} (num : Arithmetic α) (v w : Cplx α) : Cplx α :=
  ⟨num.sub (num.mul v.re w.re) (num.mul v.im w.im), num.add (num.mul v.re w.im) (num.mul v.im w.re)⟩

/-- The value of `A[i]` after the stage whose butterflies span `2·half` elements (R197): `i = g + j` or `g + j + half`. -/
def butterfly {α : Type} [Inhabited α] (num : Arithmetic α) (fw : Nat → Cplx α) (half : Nat) (a : List (Cplx α)) (i : Nat) :
    Cplx α :=
  let j := i % (2 * half)
  let stride := 2048 / (2 * half)
  if j < half then
    let u := a.getD i default
    let t := butterflyProduct num (a.getD (i + half) default) (fw (j * stride))
    ⟨num.add u.re t.re, num.add u.im t.im⟩
  else
    let u := a.getD (i - half) default
    let t := butterflyProduct num (a.getD i default) (fw ((j - half) * stride))
    ⟨num.sub u.re t.re, num.sub u.im t.im⟩

/-- The stages `1 .. lg` of R197, in order; stage `s` has `half = 2^(s-1)`. -/
def fftStages {α : Type} [Inhabited α] (num : Arithmetic α) (fw : Nat → Cplx α) (m : Nat) :
    Nat → List (Cplx α) → List (Cplx α)
  | 0, a => a
  | s + 1, a =>
    let b := fftStages num fw m s a
    (List.range m).map (butterfly num fw (2 ^ s) b)

/-- Step 2, the reference network (R197) on `m = 2^lg` points: the bit-reversal permutation, then the stages. -/
def fft {α : Type} [Inhabited α] (num : Arithmetic α) (fw : Nat → Cplx α) (lg : Nat) (input : List (Cplx α)) : List (Cplx α) :=
  fftStages num fw (2 ^ lg) lg ((List.range (2 ^ lg)).map fun i => input.getD (rev lg i) default)

/-- `val(i) = w × conj(x)` (R198). -/
def postProduct {α : Type} (num : Arithmetic α) (w x : Cplx α) : Cplx α :=
  ⟨num.add (num.mul w.re x.re) (num.mul w.im x.im), num.sub (num.mul w.im x.re) (num.mul w.re x.im)⟩

/-- Step 3, the scatter (R198), read from the output's side: sample `j` of the `4m` samples, from the values `val(0 .. m)`.
The four views are the four quarters; in each the even places and the odd places come from the two loops of R198. -/
def scatterSample {α : Type} [Inhabited α] (num : Arithmetic α) (m : Nat) (val : List (Cplx α)) (j : Nat) : α :=
  let q := m / 2
  let k := j % m
  let up := k / 2
  let down := (m - 1 - k) / 2
  match j / m with
  | 0 => if k % 2 = 0 then num.neg (val.getD (q + up) default).re else num.neg (val.getD down default).im
  | 1 => if k % 2 = 0 then (val.getD up default).im else (val.getD (q + down) default).re
  | 2 => if k % 2 = 0 then (val.getD (q + up) default).im else (val.getD down default).re
  | _ => if k % 2 = 0 then (val.getD up default).re else (val.getD (q + down) default).im

/-- The values `val(0 .. m)` of step 3. -/
def postTwiddle {α : Type} [Inhabited α] (num : Arithmetic α) (m : Nat) (tw : Nat → Cplx α) (y : List (Cplx α)) : List (Cplx α) :=
  (List.range m).map fun i => postProduct num (tw i) (y.getD i default)

/-- The three steps, the second by the kernel of `num`: the `4m` output samples for `m = 2^lg` (R200). -/
def imdct {α : Type} [Inhabited α] (num : Numerics α) (lg : Nat) (spec : Nat → α) (tw fw : Nat → Cplx α) : List α :=
  let m := 2 ^ lg
  let val := postTwiddle num.toArithmetic m tw (num.fft fw lg (preTwiddle num.toArithmetic m spec tw))
  (List.range (4 * m)).map (scatterSample num.toArithmetic m val)

/-- The `Numerics` with these operations whose kernel is the reference network (R4, R197). -/
def referenceNumerics {α : Type} [Inhabited α] (num : Arithmetic α) : Numerics α := { num with fft := fft num }

/-- The `Numerics` this block was built with (R4, 93 U20, log 10). -/
def State.numerics (s : State) : Numerics Word :=
  match s.cfg.numerics with
  | .binary32 => referenceNumerics Sys2Proof.Machine.binary32
  | .other k => Config.otherNumerics k

/-- The exponent the block flag selects (R200's `e`). -/
def State.blockExp (s : State) (bf : Bool) : Nat := if bf then s.bs1Exp else s.bs0Exp

/-- The samples `IMDCT bf` computes from the memories as they stand: `M = bs/4` points. -/
def State.imdctSamples (s : State) (bf : Bool) : List Word :=
  imdct s.numerics (s.blockExp bf - 2) (s.element .spec) (s.complexElement (twiddleMem bf)) (s.complexElement .fftw)

/-- `IMDCT bf` (R200): `IMD[0 .. bs)` is written, the rest of IMDMEM is unchanged; the scratch is left unspecified (R29). -/
def execImdct (bf : Bool) (s : State) : Host.Outcome State Fault Refusal :=
  settle (.imdct bf) s (
    if ¬ s.configValid then .raised .badConfig s.regs.bsexp.toNat
    else .done { (s.storeWords MemName.imd.base (s.imdctSamples bf)).setImdResult bf with
      draws.scratch := s.draws.scratch + 1 })

end Sys2Proof.Machine
end

