-- ==== Sys2Proof/Machine/Overlap.lean ====
section
/-! DEFINITION. The OLA unit: window, overlap-add, saved overlap and the lapping state (45_overlap_add R220 to R231). -/

namespace Sys2Proof.Machine

/-- The kernel `olak(l, r, w, len, i)` (R222): two products, each rounded, one sum, rounded, then the clamp; the
operations are those of the block's `Numerics` (R4), the clamp compares binary32 encodings (R226, log 10). -/
def overlapKernel (num : Numerics Word) (l r : Word) (w : Nat → Word) (len i : Nat) : Word :=
  clamp (num.add (num.mul l (w (len - 1 - i))) (num.mul r (w i)))

/-- Equal sizes (R223): the whole half-block overlaps, under the current window. -/
def State.olaEqual (s : State) (ch : Nat) : List Word :=
  let len := s.blockSize s.regs.status.curBf / 2
  (List.range len).map fun i =>
    overlapKernel s.numerics (s.ovl ch i) (s.element .imd i) (s.element (windowMem s.regs.status.curBf)) len i

/-- Where the overlap region of two unequal blocks begins: `start = (bs1 − bs0)/4` (R224, R225). -/
def State.olaStart (s : State) : Nat := (s.bs1 - s.bs0) / 4

/-- Previous long, current short (R224): `start` samples passed through, then the overlap under the short window. -/
def State.olaLongShort (s : State) (ch : Nat) : List Word :=
  let start := s.olaStart
  let len := s.bs0 / 2
  ((List.range start).map fun i => clamp (s.ovl ch i)) ++
    (List.range len).map fun i => overlapKernel s.numerics (s.ovl ch (start + i)) (s.element .imd i) (s.element .win0) len i

/-- Previous short, current long (R225): the overlap under the short window, then the tail of the IMDCT's left half. -/
def State.olaShortLong (s : State) (ch : Nat) : List Word :=
  let start := s.olaStart
  let len := s.bs0 / 2
  let stop := start + len
  ((List.range len).map fun i => overlapKernel s.numerics (s.ovl ch i) (s.element .imd (start + i)) (s.element .win0) len i) ++
    (List.range (s.bs1 / 2 - stop)).map fun i => clamp (s.element .imd (stop + i))

/-- The samples `OLA` writes to its slot: none for a first packet (R227), else the case the two sizes select (R229). -/
def State.olaSamples (s : State) (ch : Nat) : List Word :=
  let cbs := s.blockSize s.regs.status.curBf
  let pbs := s.blockSize s.regs.status.prevBf
  if s.regs.status.prevValid = false then []
  else if pbs = cbs then s.olaEqual ch
  else if cbs < pbs then s.olaLongShort ch
  else s.olaShortLong ch

/-- The right half of the current block, unclamped (R228). -/
def State.olaSaved (s : State) : List Word :=
  let half := s.blockSize s.regs.status.curBf / 2
  (List.range half).map fun i => s.element .imd (half + i)

/-- `OLA rs, rt` (R229). All reads are of the state before the command. -/
def execOla (rs rt : Reg) (s : State) : Host.Outcome State Fault Refusal :=
  settle (.ola rs rt) s (
    let ch := s.operand rs
    let slot := s.operand rt
    if ¬ s.configValid then .raised .badConfig s.regs.bsexp.toNat
    else if s.regs.status.imdValid = false then .raised .badSequence 0
    else if s.cfg.maxCh ≤ ch then .raised .badOperand ch
    else if s.cfg.maxCh ≤ slot then .raised .badOperand slot
    else
      let stored := (s.storeWords (outSlot slot) (s.olaSamples ch)).storeWords (ovlBank ch) s.olaSaved
      .done { stored.consumeImdResult with regs.outLen := wordOf (s.olaSamples ch).length })

/-- `LAPUPD bf` (R230). -/
def execLapupd (bf : Bool) (s : State) : Host.Outcome State Fault Refusal :=
  settle (.lapupd bf) s (.done (s.setLapping bf))

/-- `LAPRST` (R231). -/
def execLaprst (s : State) : Host.Outcome State Fault Refusal := settle .laprst s (.done s.clearLapping)

end Sys2Proof.Machine
end

