-- ==== Sys2Proof/Machine/Sys.lean ====
section
/-! DEFINITION. The system commands (40_sys R100 to R104). -/

namespace Sys2Proof.Machine

/-- `NOP` (R100): does nothing. -/
def execNop (s : State) : Host.Outcome State Fault Refusal := settle .nop s (.done s)

/-- `LI rd, imm16` (R101): `x[rd] <- zext_32(imm16)`. -/
def execLi (rd : Reg) (imm : BitVec 16) (s : State) : Host.Outcome State Fault Refusal :=
  settle (.li rd imm) s (.done (s.setReg rd (wordOf imm.toNat)))

/-- `LIH rd, imm16` (R102): `x[rd] <- {imm16, x[rd][15:0]}`. -/
def execLih (rd : Reg) (imm : BitVec 16) (s : State) : Host.Outcome State Fault Refusal :=
  settle (.lih rd imm) s (.done (s.setReg rd (wordOf (imm.toNat * 2 ^ 16 + bits (s.reg rd) 0 16))))

/-- `ERRCLR` (R103): the return from an error. -/
def execErrclr (s : State) : Host.Outcome State Fault Refusal := settle .errclr s (.done (errorReturn s))

/-- `SRESET` (R104): soft reset of every register. -/
def execSreset (s : State) : Host.Outcome State Fault Refusal := settle .sreset s (.done (softReset s))

end Sys2Proof.Machine
end

