-- ==== Sys2Proof/Machine/Dispatch.lean ====
section
/-! DEFINITION. One arm per command: the meaning of each (40_sys R105 steps 3 and 4). -/

namespace Sys2Proof.Machine

/-- A command's own rule, run from a state. The gate of run state ERROR and the decoding stand before it (R105 steps 1
and 2), in Port.lean. -/
def exec (i : Instr) (s : State) : Host.Outcome State Fault Refusal :=
  match i with
  | .nop => Sys2Proof.Machine.execNop s
  | .li rd imm => Sys2Proof.Machine.execLi rd imm s
  | .lih rd imm => Sys2Proof.Machine.execLih rd imm s
  | .errclr => Sys2Proof.Machine.execErrclr s
  | .sreset => Sys2Proof.Machine.execSreset s
  | .bsinit rs => Sys2Proof.Machine.execBsinit rs s
  | .rdbool rd => Sys2Proof.Machine.execRdbool rd s
  | .rdbits rd n => Sys2Proof.Machine.execRdbits rd n s
  | .skipi imm => Sys2Proof.Machine.execSkipi imm s
  | .skip rs => Sys2Proof.Machine.execSkip rs s
  | .rdcb rd rs => Sys2Proof.Machine.execRdcb rd rs s
  | .crcrst => Sys2Proof.Machine.execCrcrst s
  | .crcfeed rs rt => Sys2Proof.Machine.execCrcfeed rs rt s
  | .crccmp rs => Sys2Proof.Machine.execCrccmp rs s
  | .crcpage rd => Sys2Proof.Machine.execCrcpage rd s
  | .imdct bf => Sys2Proof.Machine.execImdct bf s
  | .ola rs rt => Sys2Proof.Machine.execOla rs rt s
  | .lapupd bf => Sys2Proof.Machine.execLapupd bf s
  | .laprst => Sys2Proof.Machine.execLaprst s

end Sys2Proof.Machine
end

