-- ==== Sys2Proof/Machine/Port.lean ====
section
/-! DEFINITION. The host port (20_memory R50 to R55), the register window (10_state R14 to R25), the command step (40_sys
R105) and the reset input (70_reset_and_hazards R290). -/

namespace Sys2Proof.Machine

/-! ### The register window (R14) -/

/-- What an aligned offset of the register window is (R14, R25). -/
inductive PortReg where
  | id | cmd | status | errCause | errInfo | errCmd | ctrl | bslen | bitpos | hlen | crcAcc | crcStored | pgLen
  | bsexp | outLen
  | x (r : Reg)
  | reserved
  deriving DecidableEq, Repr

/-- The registers below X0, by address (R14). -/
def fixedRegs : List (Nat × PortReg) :=
  [(0x000, .id), (0x004, .cmd), (0x008, .status), (0x00C, .errCause), (0x010, .errInfo), (0x014, .errCmd), (0x018, .ctrl),
   (0x020, .bslen), (0x024, .bitpos), (0x028, .hlen), (0x030, .crcAcc), (0x034, .crcStored), (0x038, .pgLen),
   (0x040, .bsexp), (0x044, .outLen)]

/-- The register at host byte address `a` of the register window (R14). -/
def portReg (a : Nat) : PortReg :=
  if 0x100 ≤ a ∧ a < 0x140 ∧ a % 4 = 0 then .x (Fin.ofNat 16 ((a - 0x100) / 4))
  else (fixedRegs.lookup a).getD .reserved

/-- What the host reads from a register: reserved bits and reserved offsets read 0, CMD reads 0 (R14 to R25). -/
def State.readPortReg (s : State) : PortReg → Word
  | .id => 0x57564B01
  | .cmd => 0
  | .status => s.regs.status.word
  | .errCause => s.regs.errCause.code
  | .errInfo => s.regs.errInfo
  | .errCmd => s.regs.errCmd
  | .ctrl => wordOf s.regs.ie.toNat
  | .bslen => s.regs.bslen
  | .bitpos => s.regs.bitpos
  | .hlen => s.regs.hlen
  | .crcAcc => s.regs.crcAcc
  | .crcStored => s.regs.crcStored
  | .pgLen => s.regs.pgLen
  | .bsexp => s.regs.bsexp.setWidth 32
  | .outLen => s.regs.outLen
  | .x r => s.reg r
  | .reserved => 0

/-- The store of a host write to a register, CMD apart: RW registers take the word, all others ignore it (R14, R19, R22, R24,
R25, R54). -/
def State.writePortReg (s : State) (r : PortReg) (v : Word) : State :=
  match r with
  | .ctrl => { s with regs.ie := v.getLsbD 0 }
  | .bsexp => { s with regs.bsexp := v.setWidth 8 }
  | .x i => s.setReg i v
  | .id | .cmd | .status | .errCause | .errInfo | .errCmd | .bslen | .bitpos | .hlen | .crcAcc | .crcStored | .pgLen
  | .outLen | .reserved => s

/-! ### The address map (R52, R53) -/

/-- What a host address names. -/
inductive Target where
  | reg (r : PortReg)
  | mem (m : MemName)
  | unmapped
  deriving DecidableEq, Repr

/-- The target of host byte address `a`: the register window, a memory's window, or nothing (R53). -/
def target (p : Params) (a : Nat) : Target :=
  if a < 0x1000 then .reg (portReg a)
  else match memoryAt p a with
    | some m => .mem m
    | none => .unmapped

/-- The target of a legal access: a word access at a multiple of 4 inside a window; `unmapped` for every other (R52). -/
def legalTarget (p : Params) (width : Width) (addr : Addr) : Target :=
  if width = .word ∧ addr.toNat % 4 = 0 then target p addr.toNat else .unmapped

/-! ### Transactions (R50, R54) -/

/-- What `HostRead` answers; a read has no side effect (R54). -/
def State.portRead (s : State) (width : Width) (addr : Addr) : Answer :=
  match legalTarget s.cfg width addr with
  | .reg r => .data (s.readPortReg r)
  | .mem _ => .data (s.wordAt addr.toNat)
  | .unmapped => .err

/-- The store of a host write to a memory; a write to any word of BSMEM also empties the bit cache (R54, R61). -/
def State.writeMem (s : State) (m : MemName) (a : Nat) (v : Word) : State :=
  let t := s.storeWords a [v]
  if m = .bs then { t with cache := BitCache.emptyAt t.regs.bitpos.toNat } else t

/-- `w` is accepted in run state ERROR: only `ERRCLR` and `SRESET` are (R105 step 1). -/
def acceptedInError (w : Word) : Bool := w == 0x03000000 || w == 0x04000000

/-- The command step (R105): the gate of run state ERROR, the decoding, the command's own rule. -/
def runCommand (w : Word) (s : State) : Host.Outcome State Fault Refusal :=
  if s.regs.status.err && !acceptedInError w then .next (dropCommand s)
  else match decode w with
    | .illegal _ => .next (raise .illegalCommand 0 w s)
    | .command i => exec i s

/-- `HostWrite` (R50, R52, R54). A write that names a window is answered OK, a command that faults or is dropped among
them (R50, R257); any other is answered ERR and changes nothing, and latches nothing (R52, R264). -/
def hostWrite (width : Width) (addr : Addr) (v : Word) (s : State) : Host.Outcome State Fault Refusal :=
  match legalTarget s.cfg width addr with
  | .reg .cmd => runCommand v { s with answer := some .ok }
  | .reg r => .next ({ s with answer := some .ok }.writePortReg r v)
  | .mem m => .next ({ s with answer := some .ok }.writeMem m addr.toNat v)
  | .unmapped => .next { s with answer := some .err }

/-- One action of the host, while `rst` is not asserted. -/
def serve (a : HostAction) (s : State) : Host.Outcome State Fault Refusal :=
  match a with
  | .read width addr => .next { s with answer := some (s.portRead width addr) }
  | .write width addr v => hostWrite width addr v s
  | .assertRst => .next { s with rst := true }
  | .releaseRst => .next s

/-! ### The reset input (R290) -/

/-- The first edge of `rst` among the pending actions, and the actions without it: while `rst` is asserted the port is not
served, so transactions wait (93 U12, log 8). -/
def nextRstEdge : List HostAction → Option (HostAction × List HostAction)
  | [] => none
  | .assertRst :: rest => some (.assertRst, rest)
  | .releaseRst :: rest => some (.releaseRst, rest)
  | a :: rest => (nextRstEdge rest).map fun e => (e.1, a :: e.2)

/-- A step while `rst` is asserted: release resets the block, and nothing else moves. -/
def heldInReset (s : State) : State :=
  match nextRstEdge s.pending with
  | some (.releaseRst, rest) => hardReset { s with pending := rest }
  | some (_, rest) => { s with pending := rest }
  | none => s

/-- One step of the block: the oldest pending action of the host is served; with none pending WVK waits (R2, R12, R267,
R290; log 7). -/
def stepPort (s : State) : Host.Outcome State Fault Refusal :=
  if s.rst then .next (heldInReset s)
  else match s.pending with
    | [] => .next s
    | a :: rest => serve a { s with pending := rest }

/-! ### Issuing a command -/

/-- The host byte address of CMD (R14, R16). -/
def cmdAddr : Addr := 0x000004

/-- The host action that issues the command word `w` (R16, R86 `CMD word`). -/
def issue (w : Word) : HostAction := .write .word cmdAddr w

end Sys2Proof.Machine
end

