-- ==== Sys2Proof/Machine/Step.lean ====
section
/-! DEFINITION. One step of the machine, and where the host lays the word of the next command. -/

namespace Sys2Proof.Machine

/-- One step: the oldest pending host action is served (Port.lean). -/
def step (s : State) : Host.Outcome State Fault Refusal := stepPort s

/-- WVK fetches nothing (10_state R12): a command runs because the host writes its word to CMD. So the word is laid where
the next step finds its host action, at the front of the pending ones, with `rst` not asserted so that the port is served
(log 7). -/
def State.withFetchWord (s : State) (nbits w : Nat) : State :=
  { s with rst := false, pending := issue (wordOf (w % 2 ^ nbits)) :: s.pending }

end Sys2Proof.Machine
end

