-- ==== Sys2Proof/Machine/Codebook.lean ====
section
/-! DEFINITION. Codebook tables (42_codebook_table): what a table must hold (R140 to R146), and the host's duties the spec
writes down, the reference builder (R147 to R150) and the canonical codewords (R151; log 17). `RDCB` itself is in Huffman.lean. -/

namespace Sys2Proof.Machine

/-! ### Entries (R140) -/

/-- A jump entry: offset `off` from the base, block width `len`. -/
def jumpEntry (off len : Nat) : Entry := BitVec.ofNat 64 (2 ^ 63 + off * 2 ^ 32 + len)

/-- A value entry: payload `v`, `len` bits consumed. -/
def valueEntry (v len : Nat) : Entry := BitVec.ofNat 64 (v * 2 ^ 32 + len)

/-- The entries of one codebook, from its sentinel on: `T` of R146. -/
abbrev Table := List Entry

/-- `T[i]`; past the end, an unused slot. -/
def tableAt (t : Table) (i : Nat) : Entry := t.getD i 0

/-- The table lies in CBMEM at `base` (R146). -/
def State.holdsTable (s : State) (base : Nat) (t : Table) : Prop :=
  base + t.length ≤ s.cfg.cbEntries ∧ ∀ i < t.length, s.cbEntry (base + i) = tableAt t i

/-! ### Blocks and well-formed tables (R142, R146) -/

/-- A block: its offset from the base and its width (R142). -/
structure Block where
  off : Nat
  width : Nat
  deriving DecidableEq, Repr

/-- The first index after a block. -/
def Block.stop (b : Block) : Nat := b.off + 2 ^ b.width

/-- The entry `e` names the block `b`. -/
def namesBlock (e : Entry) (b : Block) : Prop := Entry.jump e = true ∧ Entry.off e = b.off ∧ Entry.len e = b.width

/-- A legal entry at slot `idx` of block `b` (R146 c): unused, a replicated value, or a jump to a block of the table. -/
def SlotOk (t : Table) (blocks : List Block) (b : Block) (idx : Nat) : Prop :=
  let e := tableAt t (b.off + idx)
  e = 0 ∨
  (Entry.jump e = false ∧ 1 ≤ Entry.len e ∧ Entry.len e ≤ b.width ∧
    ∀ idx' < 2 ^ b.width, idx' % 2 ^ Entry.len e = idx % 2 ^ Entry.len e → tableAt t (b.off + idx') = e) ∨
  ∃ c ∈ blocks, namesBlock e c

/-- R146: `t` is well formed, with `blocks` its tree of blocks listed parents first (log 16). -/
structure WellFormedTable (t : Table) (blocks : List Block) : Prop where
  /-- (a) `T[0]` is a jump entry naming the root block -/
  root : ∃ r rest, blocks = r :: rest ∧ namesBlock (tableAt t 0) r
  /-- (b) the blocks lie in the table -/
  bounds : ∀ b ∈ blocks, 1 ≤ b.width ∧ b.width ≤ 32 ∧ 1 ≤ b.off ∧ b.stop ≤ t.length
  /-- (b) pairwise disjoint -/
  disjoint : blocks.Pairwise (fun b c => b.stop ≤ c.off ∨ c.stop ≤ b.off)
  /-- (b) together with index 0 they cover the table -/
  cover : ∀ i, 1 ≤ i → i < t.length → ∃ b ∈ blocks, b.off ≤ i ∧ i < b.stop
  /-- (c) every slot is legal -/
  slots : ∀ b ∈ blocks, ∀ idx < 2 ^ b.width, SlotOk t blocks b idx
  /-- (c) a tree: no slot of a block names the root -/
  rootUnnamed : ∀ r ∈ blocks.head?, ∀ b ∈ blocks, ∀ idx < 2 ^ b.width, ¬ namesBlock (tableAt t (b.off + idx)) r
  /-- (c) a tree: every other block is named by exactly one slot, in a block listed before it -/
  childNamed : ∀ k c, 0 < k → blocks[k]? = some c →
    ∃ j b idx, j < k ∧ blocks[j]? = some b ∧ idx < 2 ^ b.width ∧ namesBlock (tableAt t (b.off + idx)) c ∧
      ∀ b' ∈ blocks, ∀ idx' < 2 ^ b'.width, namesBlock (tableAt t (b'.off + idx')) c → b' = b ∧ idx' = idx
  /-- (d) no block is empty -/
  used : ∀ b ∈ blocks, ∃ idx < 2 ^ b.width, tableAt t (b.off + idx) ≠ 0

/-- The low `n` bits of `v`, least significant first: the order in which they stand in the stream (R142). -/
def lowBits (v n : Nat) : List Bool := (List.range n).map fun i => v / 2 ^ i % 2 == 1

/-- The stream bits from position `p` on (R110). -/
def State.streamBits (s : State) (p n : Nat) : List Bool := (List.range n).map fun i => s.bit (p + i) == 1

/-- The code of a table, from a block on: the pairs of a bit string and a value that a walk finds (R146). -/
inductive CodeOf (t : Table) : (off width : Nat) → List Bool → Nat → Prop where
  | leaf (off width idx : Nat) (inBlock : idx < 2 ^ width)
      (isValue : Entry.jump (tableAt t (off + idx)) = false) (used : 1 ≤ Entry.len (tableAt t (off + idx))) :
      CodeOf t off width (lowBits idx (Entry.len (tableAt t (off + idx)))) (Entry.off (tableAt t (off + idx)))
  | jump (off width idx : Nat) (code : List Bool) (v : Nat) (inBlock : idx < 2 ^ width)
      (isJump : Entry.jump (tableAt t (off + idx)) = true)
      (below : CodeOf t (Entry.off (tableAt t (off + idx))) (Entry.len (tableAt t (off + idx))) code v) :
      CodeOf t off width (lowBits idx width ++ code) v

/-- A table's code: from its root block, which the sentinel names (R146). -/
def TableCode (t : Table) (code : List Bool) (v : Nat) : Prop :=
  CodeOf t (Entry.off (tableAt t 0)) (Entry.len (tableAt t 0)) code v

/-! ### Codes (R146, R147) -/

/-- One entry of a code, and one builder input: codeword, length, value (R147). An entry of length 0 has no codeword. -/
structure CodeEntry where
  code : Nat
  len : Nat
  value : Nat
  deriving DecidableEq, Repr

/-- R147: the ranges of one input: a length of at most 32, a codeword of that many bits, a value of 31 bits. -/
abbrev CodeEntry.Valid (e : CodeEntry) : Prop := e.len ≤ 32 ∧ e.code < 2 ^ e.len ∧ e.value < 2 ^ 31

/-- R147: what the builder may be given; `b` is `max_bits_per_block`. For other inputs the spec defines no table, and what the
functions below answer there means nothing. -/
abbrev BuilderInputs (b : Nat) (entries : List CodeEntry) : Prop := 1 ≤ b ∧ b ≤ 32 ∧ ∀ e ∈ entries, e.Valid

/-- The `len` bits of a codeword, most significant first: the order in which they stand in the stream (R146, R147). -/
def codewordBits (code len : Nat) : List Bool := (lowBits code len).reverse

/-- R146: `t` is well formed for the code of `entries`: its code is exactly the set of their codewords with their values. -/
def WellFormedFor (t : Table) (blocks : List Block) (entries : List CodeEntry) : Prop :=
  WellFormedTable t blocks ∧
  ∀ code v, TableCode t code v ↔ ∃ e ∈ entries, e.len ≠ 0 ∧ code = codewordBits e.code e.len ∧ v = e.value

/-! ### Canonical codewords (R151) -/

/-- An assigned codeword: its bits as a number, and its length. -/
structure Codeword where
  code : Nat
  len : Nat
  deriving DecidableEq, Repr

/-- One of two codewords is a prefix of the other, or they are equal. -/
def Codeword.clashes (a b : Codeword) : Bool :=
  if a.len ≤ b.len then b.code / 2 ^ (b.len - a.len) == a.code else a.code / 2 ^ (a.len - b.len) == b.code

/-- The lowest codeword of length `len` not below `code` that clashes with none of `assigned`: past a clash, the search goes
on at the first codeword the clashing one does not cover. Each assigned codeword is passed at most once. -/
def lowestFree (assigned : List Codeword) (len : Nat) : (fuel code : Nat) → Option Nat
  | 0, _ => none
  | fuel + 1, code =>
    if 2 ^ len ≤ code then none
    else match assigned.find? (fun a => a.clashes ⟨code, len⟩) with
      | none => some code
      | some a => lowestFree assigned len fuel (if a.len ≤ len then (a.code + 1) * 2 ^ (len - a.len) else code + 1)

/-- R151 from entry to entry, `assigned` so far: none for an over-specified list; an entry of length 0 gets no codeword. -/
def assignCodewords : (assigned : List Codeword) → List Nat → Option (List (Option Codeword))
  | _, [] => some []
  | assigned, 0 :: rest => (assignCodewords assigned rest).map (none :: ·)
  | assigned, len :: rest =>
    match lowestFree assigned len (assigned.length + 1) 0 with
    | none => none
    | some code => (assignCodewords (assigned ++ [⟨code, len⟩]) rest).map (some ⟨code, len⟩ :: ·)

/-- The canonical codewords of a list of lengths (R151). -/
def canonicalCodewords (lengths : List Nat) : Option (List (Option Codeword)) := assignCodewords [] lengths

/-! ### The reference builder (R147 to R150) -/

/-- Why a build fails, all of them the host's `decode_error` (R148, R149). -/
inductive BuildFailure where
  /-- a zero-length codeword in a codebook that is not sparse -/
  | zeroLength
  /-- the tree is not complete, has more than one entry, and is not sparse (R150) -/
  | incomplete
  /-- a block offset does not fit 31 bits -/
  | jumpRange
  /-- a slot written twice: the code is not prefix-free -/
  | overSpecified
  /-- the table does not fit in CBMEM at the place the host chose for it -/
  | doesNotFit
  deriving DecidableEq, Repr

/-- A leaf of a block under construction: the last `len` bits of a codeword, and its value. -/
structure BuildLeaf where
  bitsLeft : Nat
  len : Nat
  value : Nat
  deriving DecidableEq, Repr

/-- A block under construction: its width, its children by prefix (as numbers of blocks), its leaves. -/
structure BuildBlock where
  width : Nat
  children : List (Nat × Nat)
  leaves : List BuildLeaf
  deriving DecidableEq, Repr

/-- The block with nothing in it. R148 gives a new block no width; here it is 0 until the first leaf or child sets it. DESIGN
CHOICE (log 18): a sparse codebook with no used entry leaves the root so, and its table is the sentinel `J(1, 0)` with one
unused slot, which is not well formed (R146) and on which `RDCB` raises `MalformedTable` (R141). -/
def BuildBlock.empty : BuildBlock := ⟨0, [], []⟩

/-- Descend with the `l` codeword bits that are left from block number `blk`, and hang the leaf (R148, inner loop). -/
def placeEntry (b code value : Nat) : (fuel l blk : Nat) → List BuildBlock → List BuildBlock
  | 0, _, _, blocks => blocks
  | fuel + 1, l, blk, blocks =>
    if l ≤ b then
      blocks.modify blk fun k =>
        { k with leaves := k.leaves ++ [⟨code % 2 ^ l, l, value⟩], width := max k.width l }
    else
      let p := code / 2 ^ (l - b) % 2 ^ b
      match ((blocks.getD blk .empty).children.lookup p) with
      | some child => placeEntry b code value fuel (l - b) child (blocks.modify blk fun k => { k with width := b })
      | none =>
        let child := blocks.length
        placeEntry b code value fuel (l - b) child
          ((blocks.modify blk fun k => { k with width := b, children := k.children ++ [(p, child)] }) ++ [.empty])

/-- All entries placed (R148, outer loop). -/
def placeAll (sparse : Bool) (b : Nat) : List CodeEntry → List BuildBlock → Except BuildFailure (List BuildBlock)
  | [], blocks => .ok blocks
  | e :: rest, blocks =>
    if e.len = 0 then
      if sparse then placeAll sparse b rest blocks else .error .zeroLength
    else placeAll sparse b rest (placeEntry b e.code e.value e.len e.len 0 blocks)

/-- The slots one block writes: jumps to its children at the offsets handed out from `next` on, and its leaves, replicated
(R143, R144, R148). Also the offsets of the children and the next free offset. -/
def layoutChildren (blocks : List BuildBlock) (o w : Nat) : List (Nat × Nat) → (next : Nat) →
    List (Nat × Entry) × List (Nat × Nat) × Nat
  | [], next => ([], [], next)
  | (p, k) :: rest, next =>
    let width := (blocks.getD k .empty).width
    let (writes, offs, next') := layoutChildren blocks o w rest (next + 2 ^ width)
    ((o + rev w p, jumpEntry next width) :: writes, (k, next) :: offs, next')

/-- The replicated value entries of a leaf (R143). -/
def leafWrites (o w : Nat) (leaf : BuildLeaf) : List (Nat × Entry) :=
  (List.range (2 ^ (w - leaf.len))).map fun d =>
    (o + rev w (leaf.bitsLeft * 2 ^ (w - leaf.len) + d), valueEntry leaf.value leaf.len)

/-- Breadth-first layout of the blocks in `queue`, each with its offset (R148): the writes, and the size of the table. -/
def layout (blocks : List BuildBlock) : (fuel : Nat) → (queue : List (Nat × Nat)) → (next : Nat) →
    Except BuildFailure (List (Nat × Entry) × Nat)
  | 0, _, next => .ok ([], next)
  | _ + 1, [], next => .ok ([], next)
  | fuel + 1, (k, o) :: queue, next =>
    let blk := blocks.getD k .empty
    let (jumps, offs, next') :=
      layoutChildren blocks o blk.width (blk.children.insertionSort (fun a b => a.1 ≤ b.1)) next
    if offs.any (fun c => 0x7FFFFFFF < c.2) then .error .jumpRange
    else
      match layout blocks fuel (queue ++ offs) next' with
      | .error f => .error f
      | .ok (writes, size) => .ok (jumps ++ blk.leaves.flatMap (leafWrites o blk.width) ++ writes, size)

/-- Completeness (R150): `Σ 2^(max_len − L) = 2^max_len` over the used entries. -/
def isComplete (lens : List Nat) : Bool :=
  let used := lens.filter (0 < ·)
  let top := used.foldl max 0
  (used.map fun l => 2 ^ (top - l)).sum == 2 ^ top

/-- A codebook is accepted when it is complete, has exactly one used entry, or is declared sparse (R150). -/
def accepted (sparse : Bool) (lens : List Nat) : Bool :=
  isComplete lens || (lens.filter (0 < ·)).length == 1 || sparse

/-- The reference builder (R148) with its failure modes (R149, R150), for `BuilderInputs b entries`. Where several failures
apply, the first of these is named: zero length, incomplete, jump range, over-specified. DESIGN CHOICE (log 17): R149 gives no
order. -/
def buildTable (sparse : Bool) (b : Nat) (entries : List CodeEntry) : Except BuildFailure Table :=
  match placeAll sparse b entries [.empty] with
  | .error f => .error f
  | .ok blocks =>
    if ¬ accepted sparse (entries.map (·.len)) then .error .incomplete
    else
      let rootWidth := (blocks.getD 0 .empty).width
      match layout blocks blocks.length [(0, 1)] (1 + 2 ^ rootWidth) with
      | .error f => .error f
      | .ok (writes, size) =>
        if (writes.map (·.1)).Nodup then
          .ok ((List.range size).map fun i =>
            if i = 0 then jumpEntry 1 rootWidth else (writes.lookup i).getD 0)
        else .error .overSpecified

/-- The builder's inputs for a Vorbis codebook: canonical codewords of the lengths, the given values (R147, R151). -/
def canonicalEntries (lengths values : List Nat) : Option (List CodeEntry) :=
  (canonicalCodewords lengths).map fun cs =>
    (cs.zip values).map fun e => match e.1 with
      | none => ⟨0, 0, e.2⟩
      | some c => ⟨c.code, c.len, e.2⟩

/-- A codebook built from its length list: lengths that have no canonical codewords fail as over-specified (R148, R151), before
any test of `buildTable`. DESIGN CHOICE (log 17): R149 gives no order. -/
def buildFromLengths (sparse : Bool) (b : Nat) (lengths values : List Nat) : Except BuildFailure Table :=
  match canonicalEntries lengths values with
  | none => .error .overSpecified
  | some entries => buildTable sparse b entries

/-- The last test of the host, that the table fits in CBMEM at `base` (R149, R152). -/
def placeAt (cbEntries base : Nat) (t : Table) : Except BuildFailure Table :=
  if base + t.length ≤ cbEntries then .ok t else .error .doesNotFit

/-- A table built for its place in a CBMEM of `cbEntries` entries (R148, R149). -/
def buildTableAt (cbEntries base : Nat) (sparse : Bool) (b : Nat) (entries : List CodeEntry) : Except BuildFailure Table :=
  (buildTable sparse b entries).bind (placeAt cbEntries base)

/-- The same, from a length list. -/
def buildFromLengthsAt (cbEntries base : Nat) (sparse : Bool) (b : Nat) (lengths values : List Nat) :
    Except BuildFailure Table :=
  (buildFromLengths sparse b lengths values).bind (placeAt cbEntries base)

end Sys2Proof.Machine
end

