-- ==== Sys2Proof/Machine/HostSide.lean ====
section
/-! DEFINITION. What the spec fixes on the host's side of the port: the pseudo-instructions (30_encoding R86), the channel
order (45_overlap_add R236) and the command order of one channel and one packet (70_reset_and_hazards R301, R302). Log 17. -/

namespace Sys2Proof.Machine

/-- `LI32 rd, imm32` (R86): `LI` with the low half, then `LIH` with the high half. -/
def li32 (rd : Reg) (imm : Word) : List HostAction :=
  [issue (encode (.li rd (imm.extractLsb' 0 16))), issue (encode (.lih rd (imm.extractLsb' 16 16)))]

/-- `CLR rd` (R86). -/
def clr (rd : Reg) : List HostAction := [issue (encode (.li rd 0))]

/-- Consecutive host writes of words from host byte address `a` on. -/
def hostWrites : (a : Nat) → List Word → List HostAction
  | _, [] => []
  | a, v :: vs => .write .word (BitVec.ofNat 24 a) v :: hostWrites (a + 4) vs

/-- Steps 9 and 10 of R302 for one channel: the spectrum into SPECMEM, `IMDCT bf`, `OLA` with the channel in register `rs` and
the slot in register `rt` (R301). -/
def channelActions (spectrum : List Word) (bf : Bool) (rs rt : Reg) (ch slot : Word) : List HostAction :=
  hostWrites MemName.spec.base spectrum ++ [issue (encode (.imdct bf))] ++ li32 rs ch ++ li32 rt slot ++
    [issue (encode (.ola rs rt))]

/-- Step 12 of R302: once per packet that decoded without error, after the last channel's `OLA` (R300 c, R303). -/
def packetEnd (bf : Bool) : List HostAction := [issue (encode (.lapupd bf))]

/-- The Vorbis channel whose samples go to each output slot, by channel count (R236). -/
def channelOrder (channels : Nat) : List Nat :=
  match channels with
  | 1 => [0]
  | 2 => [0, 1]
  | 3 => [0, 2, 1]
  | 4 => [0, 1, 2, 3]
  | 5 => [0, 2, 1, 3, 4]
  | 6 => [0, 2, 1, 4, 5, 3]
  | 7 => [0, 2, 1, 5, 6, 4, 3]
  | 8 => [0, 2, 1, 6, 7, 4, 5, 3]
  | n => List.range n

/-- The slot the host names in `OLA` for a Vorbis channel: its position in the row (R236). -/
def slotOfChannel (channels c : Nat) : Nat := (channelOrder channels).idxOf c

end Sys2Proof.Machine
end

