-- ==== Sys2Proof/Safety.lean ====
section
/-! DEFINITION. What a sound state of WVK is (the invariants the rules name), what the host must have loaded before a command
gives meaningful results (70_reset_and_hazards R293, R300), and the words in which frames are stated. -/

namespace Sys2Proof.Machine

/-! ### Invariants -/

/-- R20: `BSLEN ≤ BS_BYTES` and `BITPOS ≤ 8·BSLEN`. -/
def State.ReaderInv (s : State) : Prop :=
  s.regs.bslen.toNat ≤ s.cfg.bsBytes ∧ s.regs.bitpos.toNat ≤ 8 * s.regs.bslen.toNat

/-- R28: the cache `c` holds the `cnt` stream bits from position `p` on, nothing above them, and `p = 8·nxt − cnt`. An empty
cache says nothing of `nxt` but that it is in the buffer (log 5). -/
def State.CacheHolds (s : State) (p : Nat) (c : BitCache) : Prop :=
  c.cnt ≤ 64 ∧ c.nxt ≤ s.regs.bslen.toNat ∧ c.bits.toNat = s.take p c.cnt ∧ (c.cnt ≠ 0 → p + c.cnt = 8 * c.nxt)

/-- R28: the cache holds the stream bits from `BITPOS` on. -/
def State.CacheInv (s : State) : Prop := s.CacheHolds s.regs.bitpos.toNat s.cache

/-- R18, R250, R256, R257: with no error latched the error registers are 0 and nothing was dropped; with one latched there
is a cause. -/
def Regs.ErrorInv (r : Regs) : Prop :=
  (r.status.err = false → r.errCause = .none ∧ r.errInfo = 0 ∧ r.errCmd = 0 ∧ r.status.drop = false) ∧
  (r.status.err = true → r.errCause ≠ .none)

/-- R17: `PREV_BF` is 0 while there is no previous packet. -/
def Regs.LappingInv (r : Regs) : Prop := r.status.prevValid = false → r.status.prevBf = false

/-- R20, R21, R23, R131: the ranges of the counters the host reads. -/
def State.RangeInv (s : State) : Prop :=
  s.regs.hlen.toNat ≤ 8 * s.cfg.bsBytes ∧ s.regs.outLen.toNat ≤ 4096 ∧
  (s.regs.pgLen = 0 ∨ (27 ≤ s.regs.pgLen.toNat ∧ s.regs.pgLen.toNat ≤ 65307))

/-- The memory is in its canonical form, and every byte in it lies in a memory's window (R53). -/
def State.MemoryInv (s : State) : Prop :=
  Memory.wf s.mem ∧ ∀ c ∈ s.mem, (memoryAt s.cfg c.1).isSome

/-- The invariant of WVK: legal parameters (R4) and all of the above. -/
structure State.Inv (s : State) : Prop where
  params : s.cfg.Valid
  memory : s.MemoryInv
  reader : s.ReaderInv
  cache : s.CacheInv
  error : s.regs.ErrorInv
  lapping : s.regs.LappingInv
  ranges : s.RangeInv

/-! ### What the host must have loaded (R292, R293, R300 a) -/

/-- Every byte from `a` on, `n` of them, has been written since power-on. -/
def State.Written (s : State) (a n : Nat) : Prop := ∀ k < n, (Memory.get? s.mem (a + k)).isSome

/-- The word `w` encodes a finite binary32 number nearest to `x`. -/
def IsNearest (w : Word) (x : ℝ) : Prop :=
  fIsFinite w = true ∧
    ∀ v : Word, fIsFinite v = true → |(fValue w : ℝ) / 2 ^ 149 - x| ≤ |(fValue v : ℝ) / 2 ^ 149 - x|

/-- R192: the twiddle memory of block flag `bf` holds the factors for a block of `bs` samples and a positive `scale`; with
`n = bs/2`, element `k` is nearest to `sqrt(scale)·(cos θ, sin θ)`, `θ = (π/n)(k + 1/8)`, for `k < n/2`. -/
def State.TwiddlesLoaded (s : State) (bf : Bool) (scale : ℝ) : Prop :=
  let n := s.blockSize bf / 2
  0 < scale ∧ ∀ k < n / 2,
    IsNearest (s.complexElement (twiddleMem bf) k).re (Real.sqrt scale * Real.cos (Real.pi / n * (k + 1 / 8))) ∧
    IsNearest (s.complexElement (twiddleMem bf) k).im (Real.sqrt scale * Real.sin (Real.pi / n * (k + 1 / 8)))

/-- R193: FFTWMEM holds the roots of unity of basis 2048; `FW[0]` and `FW[512]` are these words exactly, their zeros +0. -/
def State.RootsLoaded (s : State) : Prop :=
  s.complexElement .fftw 0 = ⟨0x3F800000, 0x00000000⟩ ∧ s.complexElement .fftw 512 = ⟨0x00000000, 0xBF800000⟩ ∧
  ∀ k < 1024,
    IsNearest (s.complexElement .fftw k).re (Real.cos (2 * Real.pi * k / 2048)) ∧
    IsNearest (s.complexElement .fftw k).im (-Real.sin (2 * Real.pi * k / 2048))

/-- R220: the window memory of block flag `bf` holds the half-window of its block size,
`sin((π/2)·sin²((π/2)(i + 0.5)/len))`. -/
def State.WindowLoaded (s : State) (bf : Bool) : Prop :=
  let len := s.blockSize bf / 2
  ∀ i < len, IsNearest (s.element (windowMem bf) i)
    (Real.sin (Real.pi / 2 * Real.sin (Real.pi / 2 * ((i + 1 / 2) / len)) ^ 2))

/-- R293 for `IMDCT bf`. -/
def State.ReadyForImdct (s : State) (bf : Bool) (scale : ℝ) : Prop :=
  s.configValid ∧ s.RootsLoaded ∧ s.TwiddlesLoaded bf scale ∧ s.Written MemName.spec.base (2 * s.blockSize bf)

/-- R293 for `OLA`. -/
def State.ReadyForOla (s : State) : Prop :=
  s.configValid ∧ s.regs.status.imdValid = true ∧ s.WindowLoaded false ∧ s.WindowLoaded true

/-- R293 for `RDCB` with the codebook at `base`. -/
def State.ReadyForRdcb (s : State) (base : Nat) : Prop :=
  ∃ t blocks, WellFormedTable t blocks ∧ s.holdsTable base t ∧ s.Written (MemName.cb.base + 8 * base) (8 * t.length)

/-! ### Command words by their fields (30_encoding R80) -/

/-- A word of format I or N: `opcode` [31:24], `rd` [23:20], `rs` [19:16], `imm16` [15:0]. -/
def wordI (opcode : BitVec 8) (rd rs : Reg) (imm : BitVec 16) : Word :=
  opcode ++ BitVec.ofFin (w := 4) rd ++ BitVec.ofFin (w := 4) rs ++ imm

/-- A word of format R: `opcode` [31:24], `rd` [23:20], `rs` [19:16], `rt` [15:12], zeros [11:0]. -/
def wordR (opcode : BitVec 8) (rd rs rt : Reg) : Word :=
  opcode ++ BitVec.ofFin (w := 4) rd ++ BitVec.ofFin (w := 4) rs ++ BitVec.ofFin (w := 4) rt ++ 0#12

/-! ### Frames -/

/-- Nothing of the port, the parameters and the inputs differs. -/
def SamePort (s t : State) : Prop :=
  t.cfg = s.cfg ∧ t.rst = s.rst ∧ t.pending = s.pending ∧ t.answer = s.answer

/-- Every byte of every memory reads as before. -/
def SameMemory (s t : State) : Prop := ∀ a, t.byteAt a = s.byteAt a

/-- Every byte outside the `n` bytes from `base` on reads as before. -/
def SameMemoryOutside (base n : Nat) (s t : State) : Prop := ∀ a, a < base ∨ base + n ≤ a → t.byteAt a = s.byteAt a

/-- Every operand register but `rd` is unchanged. -/
def OtherRegsSame (rd : Reg) (s t : State) : Prop := ∀ r, r ≠ rd → t.reg r = s.reg r

/-- The bit cache and the model's own counters are unchanged. -/
def SameHidden (s t : State) : Prop := t.cache = s.cache ∧ t.draws = s.draws

/-- Everything but the registers is unchanged. -/
def OnlyRegisters (s t : State) : Prop := SameMemory s t ∧ SameHidden s t ∧ SamePort s t

/-- Everything but the registers, the bit cache and the counter of its refills is unchanged. -/
def OnlyReader (s t : State) : Prop :=
  SameMemory s t ∧ SamePort s t ∧ t.draws = { s.draws with refill := t.draws.refill }

/-- No error is latched (R250). -/
def State.Ready (s : State) : Prop := s.regs.status.err = false

/-- An error was entered with cause `c`, detail `info` and command word `w`, and nothing else changed (R256). -/
def ErrorEntered (s t : State) (c : Cause) (info w : Word) : Prop :=
  t.regs = { s.regs with errCause := c, errInfo := info, errCmd := w, status := { s.regs.status with err := true } } ∧
  OnlyRegisters s t

end Sys2Proof.Machine
end

