-- ==== Sys2Proof/Certificates/Slice0/Obligations.lean ====
section
/-! DEFINITION. The statements about WVK, from the numbered rules of spec/. -/

open Sys2Proof Sys2Proof.Machine

/-! ### Command words (30_encoding) -/

/-- Sanity: words written out from R80 and R83 decode to the commands they stand for. -/
def Obligations.SampleWordsDecodeToTheirCommands : Prop :=
  decode 0x00000000 = .command .nop ∧
  decode 0x02200628 = .command (.lih 2 0x0628) ∧
  decode 0x12300005 = .command (.rdbits 3 5) ∧
  decode 0x15420000 = .command (.rdcb 4 2) ∧
  decode 0x21012000 = .command (.crcfeed 1 2) ∧
  decode 0x30000001 = .command (.imdct true) ∧
  decode 0x31001000 = .command (.ola 0 1)

/-- Decoding the word of a well-formed command gives the command back: no operand bit of R83 is dropped. -/
def Obligations.EncodedCommandDecodesBack : Prop :=
  ∀ i : Instr, i.wf = true → decode (encode i) = .command i

/-- A word that decodes has one meaning, and it is well formed: its command encodes to the word itself. -/
def Obligations.DecodedWordEncodesBack : Prop :=
  ∀ (w : Word) (i : Instr), decode w = .command i → i.wf = true ∧ encode i = w

/-- A word is a command exactly when it selects a row of R83, and then it is that row's command; no word selects two rows. -/
def Obligations.DecoderIsTheOpcodeTable : Prop :=
  (∀ (w : Word) (i : Instr), decode w = .command i → ∃ r ∈ opcodeRows, r.selects w = true ∧ r.mnemonic = i.mnemonic) ∧
  (∀ (w : Word), ∀ r ∈ opcodeRows, r.selects w = true → ∃ i, decode w = .command i ∧ i.mnemonic = r.mnemonic) ∧
  (∀ (w : Word), ∀ r ∈ opcodeRows, ∀ r' ∈ opcodeRows, r.selects w = true → r'.selects w = true → r = r')

/-- R86: the pseudo-instructions. `LI32` leaves the word in its register, `CLR` leaves 0, in two steps and in one, and change
no other register; `CMD word` is the host write of the word to `0x000004`. -/
def Obligations.PseudoInstructionsExpand : Prop :=
  (∀ (s : State) (rd : Reg) (imm : Word) (rest : List HostAction), s.rst = false → s.Ready → s.pending = li32 rd imm ++ rest →
    ∃ t u, step s = .next t ∧ step t = .next u ∧ u.reg rd = imm ∧ OtherRegsSame rd s u ∧
      u.regs = { s.regs with x := u.regs.x } ∧ SameMemory s u ∧ u.pending = rest) ∧
  (∀ (s : State) (rd : Reg) (rest : List HostAction), s.rst = false → s.Ready → s.pending = clr rd ++ rest →
    ∃ t, step s = .next t ∧ t.reg rd = 0 ∧ OtherRegsSame rd s t ∧ t.regs = { s.regs with x := t.regs.x } ∧
      SameMemory s t ∧ t.pending = rest) ∧
  (∀ w : Word, issue w = .write .word 0x000004 w)

/-! ### The command step (40_sys R105, 60_exceptions) -/

/-- A step runs the decoded command: when the oldest host action writes a word that decodes to CMD, and no error is latched or
the command is `ERRCLR` or `SRESET`, the step is `exec` of the command, with the action taken off and answered OK. -/
def Obligations.StepRunsTheDecodedCommand : Prop :=
  ∀ (s : State) (rest : List HostAction) (w : Word) (i : Instr),
    s.rst = false → s.pending = issue w :: rest → decode w = .command i →
    (s.Ready ∨ i = .errclr ∨ i = .sreset) →
    step s = exec i { s with pending := rest, answer := some .ok }

/-- R257: a command other than `ERRCLR` and `SRESET` in run state ERROR is dropped, illegal words among them. -/
def Obligations.CommandInErrorStateIsDropped : Prop :=
  ∀ (s : State) (rest : List HostAction) (w : Word),
    s.rst = false → s.pending = issue w :: rest → s.regs.status.err = true → w ≠ 0x03000000 → w ≠ 0x04000000 →
    step s = .next { s with
      pending := rest
      answer := some .ok
      regs := { s.regs with status := { s.regs.status with drop := true } } }

/-- R253: a word that selects no row of R83 raises `IllegalCommand`, with `ERRINFO = 0` and the word in `ERRCMD`. -/
def Obligations.IllegalWordRaisesIllegalCommand : Prop :=
  ∀ (s : State) (rest : List HostAction) (w : Word),
    s.rst = false → s.pending = issue w :: rest → s.Ready → (∀ r ∈ opcodeRows, r.selects w = false) →
    ∃ t, step s = .next t ∧ ErrorEntered { s with pending := rest, answer := some .ok } t .illegalCommand 0 w

/-- R256: a command that ends in an error has changed the three error registers and `ERR`, and nothing else; `ERRCMD` is its
word. -/
def Obligations.ErrorEntryIsPrecise : Prop :=
  ∀ (w : Word) (s t : State), s.Ready → runCommand w s = .next t → t.regs.status.err = true →
    ∃ c info, c ≠ .none ∧ ErrorEntered s t c info w

/-- Every step answers a next state, no fault and no refusal (R255: a model of WVK is total), and no step changes the parameters
the block was built with (R4; that they stand in the state is the model's choice, log 9). -/
def Obligations.EveryStepAnswersANextState : Prop :=
  ∀ s : State, ∃ t, step s = .next t ∧ t.cfg = s.cfg

/-- R250: run state ERROR is left by `ERRCLR`, `SRESET` and hard reset only. -/
def Obligations.ErrorStateIsLeftByClearsOnly : Prop :=
  ∀ s t : State, s.regs.status.err = true → step s = .next t → t.regs.status.err = false →
    s.rst = true ∨
    ∃ w rest, s.pending = issue w :: rest ∧ (w = 0x03000000 ∨ w = 0x04000000)

/-- R13, R17: each STATUS field is changed only by the commands R17 lists. -/
def Obligations.StatusFieldsHaveTheirWriters : Prop :=
  ∀ (i : Instr) (s t : State), exec i s = .next t →
    (t.regs.status.imdValid ≠ s.regs.status.imdValid → (∃ bf, i = .imdct bf) ∨ (∃ rs rt, i = .ola rs rt) ∨ i = .sreset) ∧
    (t.regs.status.curBf ≠ s.regs.status.curBf → (∃ bf, i = .imdct bf) ∨ i = .sreset) ∧
    (t.regs.status.prevValid ≠ s.regs.status.prevValid → (∃ bf, i = .lapupd bf) ∨ i = .laprst ∨ i = .sreset) ∧
    (t.regs.status.prevBf ≠ s.regs.status.prevBf → (∃ bf, i = .lapupd bf) ∨ i = .laprst ∨ i = .sreset) ∧
    (t.regs.status.drop ≠ s.regs.status.drop → i = .errclr ∨ i = .sreset) ∧
    (s.regs.status.err = true → t.regs.status.err = false → i = .errclr ∨ i = .sreset)

/-- R11, R13, R18 to R23: a register other than STATUS is changed only by the commands its rule lists (an operand register only
as their `rd`), the error registers also by an error entry. -/
def Obligations.RegistersHaveTheirWriters : Prop :=
  ∀ (i : Instr) (s t : State), exec i s = .next t → i ≠ .sreset →
    (∀ r, t.reg r ≠ s.reg r →
      (∃ imm, i = .li r imm) ∨ (∃ imm, i = .lih r imm) ∨ i = .rdbool r ∨ (∃ n, i = .rdbits r n) ∨ (∃ rs, i = .rdcb r rs) ∨
      i = .crcpage r) ∧
    t.regs.ie = s.regs.ie ∧ t.regs.bsexp = s.regs.bsexp ∧
    (t.regs.bslen ≠ s.regs.bslen → ∃ rs, i = .bsinit rs) ∧
    (t.regs.bitpos ≠ s.regs.bitpos →
      (∃ rs, i = .bsinit rs) ∨ (∃ rd, i = .rdbool rd) ∨ (∃ rd n, i = .rdbits rd n) ∨ (∃ imm, i = .skipi imm) ∨
      (∃ rs, i = .skip rs) ∨ (∃ rd rs, i = .rdcb rd rs)) ∧
    (t.regs.hlen ≠ s.regs.hlen → ∃ rd rs, i = .rdcb rd rs) ∧
    (t.regs.crcAcc ≠ s.regs.crcAcc → i = .crcrst ∨ (∃ rs rt, i = .crcfeed rs rt) ∨ ∃ rd, i = .crcpage rd) ∧
    (t.regs.crcStored ≠ s.regs.crcStored ∨ t.regs.pgLen ≠ s.regs.pgLen → ∃ rd, i = .crcpage rd) ∧
    (t.regs.outLen ≠ s.regs.outLen → ∃ rs rt, i = .ola rs rt) ∧
    (t.regs.errCause ≠ s.regs.errCause ∨ t.regs.errInfo ≠ s.regs.errInfo ∨ t.regs.errCmd ≠ s.regs.errCmd →
      i = .errclr ∨ t.regs.status.err = true)

/-- R27: of the commands only `IMDCT` changes a byte of IMDMEM and only `OLA` a byte of OVLMEM or OUTMEM; no command changes
any other byte. -/
def Obligations.MemoriesHaveTheirWriters : Prop :=
  ∀ (i : Instr) (s t : State) (a : Nat), exec i s = .next t → t.byteAt a ≠ s.byteAt a →
    ((∃ bf, i = .imdct bf) ∧ MemName.imd.holds s.cfg a = true) ∨
    ((∃ rs rt, i = .ola rs rt) ∧ (MemName.ovl.holds s.cfg a = true ∨ MemName.out.holds s.cfg a = true))

/-! ### The host port (10_state R14 to R25, 20_memory R50 to R61) -/

/-- R14 to R23: what the host reads at the address of every control and status register, STATUS bit by bit, ERRCAUSE with the
codes of R251; and R261: `irq` is bit 0 of CTRL and bit 0 of STATUS. (X0 to X15: `OperandWindowReadsAndWrites`.) -/
def Obligations.RegisterWindowReads : Prop :=
  ∀ s : State,
    s.portRead .word 0x000000 = .data 0x57564B01 ∧
    s.portRead .word 0x000004 = .data 0 ∧
    (∃ v : Word, s.portRead .word 0x000008 = .data v ∧ v.getLsbD 0 = s.regs.status.err ∧
      v.getLsbD 1 = s.regs.status.imdValid ∧ v.getLsbD 2 = s.regs.status.curBf ∧ v.getLsbD 3 = s.regs.status.prevValid ∧
      v.getLsbD 4 = s.regs.status.prevBf ∧ v.getLsbD 5 = s.regs.status.drop ∧ v.toNat < 64 ∧
      s.irq = (s.regs.ie && v.getLsbD 0)) ∧
    s.portRead .word 0x00000C = .data (match s.regs.errCause with
      | .none => 0
      | .decodeError => 1
      | .endOfStream => 2
      | .crcMismatch => 3
      | .illegalCommand => 4
      | .badOperand => 5
      | .tableBounds => 6
      | .malformedTable => 7
      | .badConfig => 8
      | .badSequence => 9) ∧
    s.portRead .word 0x000010 = .data s.regs.errInfo ∧
    s.portRead .word 0x000014 = .data s.regs.errCmd ∧
    s.portRead .word 0x000018 = .data (if s.regs.ie then 1 else 0) ∧
    s.portRead .word 0x000020 = .data s.regs.bslen ∧
    s.portRead .word 0x000024 = .data s.regs.bitpos ∧
    s.portRead .word 0x000028 = .data s.regs.hlen ∧
    s.portRead .word 0x000030 = .data s.regs.crcAcc ∧
    s.portRead .word 0x000034 = .data s.regs.crcStored ∧
    s.portRead .word 0x000038 = .data s.regs.pgLen ∧
    s.portRead .word 0x000040 = .data (s.regs.bsexp.setWidth 32) ∧
    s.portRead .word 0x000044 = .data s.regs.outLen

/-- R24: the register window of X0..X15. A read returns `x[i]`, a write of `v` does `x[i] <- v`, with no side effect. -/
def Obligations.OperandWindowReadsAndWrites : Prop :=
  ∀ (s : State) (i : Reg) (v : Word),
    s.portRead .word (BitVec.ofNat 24 (0x100 + 4 * i.val)) = .data (s.reg i) ∧
    ∃ t, hostWrite .word (BitVec.ofNat 24 (0x100 + 4 * i.val)) v s = .next t ∧ t.reg i = v ∧ OtherRegsSame i s t ∧
      t.regs = { s.regs with x := t.regs.x } ∧ t.answer = some .ok ∧ SameMemory s t ∧ SameHidden s t ∧ t.cfg = s.cfg ∧
      t.rst = s.rst ∧ t.pending = s.pending

/-- R19, R22, R54: a host write to CTRL keeps bit 0, one to BSEXP bits [7:0], as written and with no fault; a write to a read-only
register changes nothing but the answer. -/
def Obligations.ControlRegisterWrites : Prop :=
  ∀ (s : State) (v : Word),
    hostWrite .word 0x000018 v s = .next { s with answer := some .ok, regs := { s.regs with ie := v.getLsbD 0 } } ∧
    hostWrite .word 0x000040 v s =
      .next { s with answer := some .ok, regs := { s.regs with bsexp := v.extractLsb' 0 8 } } ∧
    ∀ a ∈ ([0x000, 0x008, 0x00C, 0x010, 0x014, 0x020, 0x024, 0x028, 0x030, 0x034, 0x038, 0x044] : List Addr),
      hostWrite .word a v s = .next { s with answer := some .ok }

/-- R25: an aligned offset of the register window that R14 does not list reads 0 and ignores writes. -/
def Obligations.ReservedOffsetsReadZeroAndIgnoreWrites : Prop :=
  ∀ (s : State) (a : Addr) (v : Word), a.toNat < 0x1000 → a.toNat % 4 = 0 →
    a.toNat ∉ [0x000, 0x004, 0x008, 0x00C, 0x010, 0x014, 0x018, 0x020, 0x024, 0x028, 0x030, 0x034, 0x038, 0x040, 0x044] →
    ¬ (0x100 ≤ a.toNat ∧ a.toNat < 0x140) →
    s.portRead .word a = .data 0 ∧ hostWrite .word a v s = .next { s with answer := some .ok }

/-- R264 (with R52): a byte or halfword access, a misaligned one, or one outside every window is answered ERR and changes
nothing else, for reads and writes. -/
def Obligations.RefusedAccessIsAnsweredErrAndChangesNothing : Prop :=
  ∀ (s : State) (width : Width) (addr : Addr) (v : Word),
    (width ≠ .word ∨ addr.toNat % 4 ≠ 0 ∨
      (0x1000 ≤ addr.toNat ∧ ∀ m : MemName, ¬ (m.base ≤ addr.toNat ∧ addr.toNat < m.base + m.size s.cfg))) →
    serve (.read width addr) s = .next { s with answer := some .err } ∧
    serve (.write width addr v) s = .next { s with answer := some .err }

/-- R53: the base and the size of the twelve memories' windows, number by number; for legal parameters they are pairwise disjoint,
above the register window and inside the 24-bit space; and where the units find the elements of each memory. -/
def Obligations.AddressMapIsThatOfTheRule : Prop :=
  (∀ p : Params, (MemName.all.map fun m => (m, m.base, m.size p)) =
    [(.pg, 0x010000, 0x10000), (.spec, 0x020000, 0x4000), (.imd, 0x028000, 0x8000), (.tw0, 0x030000, 0x4000),
     (.tw1, 0x034000, 0x4000), (.fftw, 0x038000, 0x2000), (.win0, 0x040000, 0x4000), (.win1, 0x044000, 0x4000),
     (.ovl, 0x080000, p.maxCh * 0x4000), (.out, 0x100000, p.maxCh * 0x8000), (.cb, 0x400000, p.cbEntries * 8),
     (.bs, 0x800000, p.bsBytes)]) ∧
  (∀ p : Params, p.Valid → ∀ m : MemName,
    m ∈ MemName.all ∧ 0x1000 ≤ m.base ∧ m.base + m.size p ≤ 2 ^ 24 ∧
    ∀ m' : MemName, m ≠ m' → m.base + m.size p ≤ m'.base ∨ m'.base + m'.size p ≤ m.base) ∧
  ∀ (s : State) (c i : Nat),
    s.pgByte i = s.byteAt (0x010000 + i) ∧ s.bsByte i = s.byteAt (0x800000 + i) ∧
    s.element .spec i = s.wordAt (0x020000 + 4 * i) ∧ s.element .imd i = s.wordAt (0x028000 + 4 * i) ∧
    s.complexElement .tw0 i = ⟨s.wordAt (0x030000 + 8 * i), s.wordAt (0x030000 + 8 * i + 4)⟩ ∧
    s.complexElement .tw1 i = ⟨s.wordAt (0x034000 + 8 * i), s.wordAt (0x034000 + 8 * i + 4)⟩ ∧
    s.complexElement .fftw i = ⟨s.wordAt (0x038000 + 8 * i), s.wordAt (0x038000 + 8 * i + 4)⟩ ∧
    s.element .win0 i = s.wordAt (0x040000 + 4 * i) ∧ s.element .win1 i = s.wordAt (0x044000 + 4 * i) ∧
    s.ovl c i = s.wordAt (0x080000 + c * 0x4000 + 4 * i) ∧ s.out c i = s.wordAt (0x100000 + c * 0x8000 + 4 * i) ∧
    (s.cbEntry i).extractLsb' 0 32 = s.wordAt (0x400000 + 8 * i) ∧
    (s.cbEntry i).extractLsb' 32 32 = s.wordAt (0x400000 + 8 * i + 4)

/-- R51, R54, R58, R61: a host write of a word to a memory is answered OK; a read returns it; its bytes lie least significant
first; every other byte and every register is unchanged; the bit cache is emptied when the word lies in BSMEM, else it is
unchanged. -/
def Obligations.HostWriteThenReadReturnsTheWord : Prop :=
  ∀ (s : State) (m : MemName) (addr : Addr) (v : Word), s.cfg.Valid → addr.toNat % 4 = 0 →
    m.base ≤ addr.toNat → addr.toNat < m.base + m.size s.cfg →
    ∃ t, hostWrite .word addr v s = .next t ∧ t.answer = some .ok ∧ t.portRead .word addr = .data v ∧
      (∀ k < 4, t.byteAt (addr.toNat + k) = v.extractLsb' (8 * k) 8) ∧
      SameMemoryOutside addr.toNat 4 s t ∧ t.regs = s.regs ∧ t.draws = s.draws ∧ t.cfg = s.cfg ∧ t.rst = s.rst ∧
      t.pending = s.pending ∧ (if m = .bs then t.cache.cnt = 0 else t.cache = s.cache)

/-- R50, R54, R58 (the list of waiting host actions is the model's choice, log 7; the edges of `rst` are log 8's): with `rst`
low a step serves the oldest action of the host and takes it off; a read changes nothing but the answer; an edge that asserts
`rst` raises its level and changes nothing else, one that releases it changes nothing; with no action waiting, nothing changes. -/
def Obligations.StepServesTheOldestHostAction : Prop :=
  ∀ s : State, s.rst = false →
    (∀ width addr rest, s.pending = .read width addr :: rest →
      step s = .next { s with pending := rest, answer := some (s.portRead width addr) }) ∧
    (∀ width addr v rest, s.pending = .write width addr v :: rest →
      step s = hostWrite width addr v { s with pending := rest }) ∧
    (∀ rest, s.pending = .assertRst :: rest → step s = .next { s with pending := rest, rst := true }) ∧
    (∀ rest, s.pending = .releaseRst :: rest → step s = .next { s with pending := rest }) ∧
    (s.pending = [] → step s = .next s)

/-! ### System commands (40_sys) -/

/-- R100: the all-zero word is `NOP`, and it does nothing. -/
def Obligations.NopDoesNothing : Prop :=
  decode 0x00000000 = .command .nop ∧ ∀ s : State, exec .nop s = .next s

/-- R101, R102: `LI` loads the immediate zero-extended; `LIH` loads the high half and keeps the low half. -/
def Obligations.ImmediateLoads : Prop :=
  ∀ (s : State) (rd : Reg) (imm : BitVec 16),
    decode (wordI 0x01 rd 0 imm) = .command (.li rd imm) ∧ decode (wordI 0x02 rd 0 imm) = .command (.lih rd imm) ∧
    (∃ t, exec (.li rd imm) s = .next t ∧ t.reg rd = imm.zeroExtend 32 ∧ OtherRegsSame rd s t ∧
      t.regs = { s.regs with x := t.regs.x } ∧ OnlyRegisters s t) ∧
    (∃ t, exec (.lih rd imm) s = .next t ∧ t.reg rd = imm ++ (s.reg rd).extractLsb' 0 16 ∧ OtherRegsSame rd s t ∧
      t.regs = { s.regs with x := t.regs.x } ∧ OnlyRegisters s t)

/-- R103, R258: `ERRCLR` clears `ERR`, `DROP` and the three error registers, and nothing else. -/
def Obligations.ErrclrClearsTheErrorAndNothingElse : Prop :=
  decode 0x03000000 = .command .errclr ∧ ∀ s : State, ∃ t, exec .errclr s = .next t ∧
    t.regs = { s.regs with
      errCause := .none
      errInfo := 0
      errCmd := 0
      status := { s.regs.status with err := false, drop := false } } ∧
    OnlyRegisters s t

/-- R104, R291: after `SRESET` every register the host can see reads its reset value (ID its constant, all others 0), the bit
cache is empty, and no memory has changed. -/
def Obligations.SresetResetsEveryRegister : Prop :=
  decode 0x04000000 = .command .sreset ∧ ∀ s : State, ∃ t, exec .sreset s = .next t ∧
    (∀ r : PortReg, t.readPortReg r = if r = .id then 0x57564B01 else 0) ∧
    t.regs.status = ⟨false, false, false, false, false, false⟩ ∧ t.cache.cnt = 0 ∧ SameMemory s t ∧ SamePort s t ∧
    t.draws = s.draws

/-! ### HUF unit (41_huffman) -/

/-- R112: `BSINIT` binds and rewinds the reader and empties the bit cache, or raises `BadOperand`. -/
def Obligations.BsinitBindsTheReader : Prop :=
  ∀ (s : State) (rs : Reg),
    decode (wordI 0x10 0 rs 0) = .command (.bsinit rs) ∧
    ((s.reg rs).toNat ≤ s.cfg.bsBytes → ∃ t, exec (.bsinit rs) s = .next t ∧
      t.regs = { s.regs with bslen := s.reg rs, bitpos := 0 } ∧ t.cache.cnt = 0 ∧ SameMemory s t ∧ SamePort s t ∧
      t.draws = s.draws) ∧
    (s.cfg.bsBytes < (s.reg rs).toNat →
      ∃ t, exec (.bsinit rs) s = .next t ∧ ErrorEntered s t .badOperand (s.reg rs) (encode (.bsinit rs)))

/-- R113, R114 (with R110, R111): a read of `n` bits, at most 32 and at most `rem`, returns the stream bits `BITPOS ..
BITPOS+n−1` with the first as bit 0 and zeros above, and advances `BITPOS` by `n`; with fewer bits left it raises
`EndOfStream(rem)`. `RDBOOL` is the read of one bit. -/
def Obligations.BitReadsReturnTheStreamBits : Prop :=
  (∀ rd : Reg, decode (wordI 0x11 rd 0 0) = .command (.rdbool rd) ∧
    ∀ n : BitVec 6, n.toNat ≤ 32 → decode (wordI 0x12 rd 0 (n.setWidth 16)) = .command (.rdbits rd n)) ∧
  ∀ (s : State) (rd : Reg) (i : Instr) (n : Nat),
    ((i = .rdbool rd ∧ n = 1) ∨ (∃ m : BitVec 6, i = .rdbits rd m ∧ n = m.toNat ∧ n ≤ 32)) →
    (n ≤ 8 * s.regs.bslen.toNat - s.regs.bitpos.toNat → ∃ t, exec i s = .next t ∧
      (∀ k < n, (t.reg rd).getLsbD k =
        (s.byteAt (0x800000 + (s.regs.bitpos.toNat + k) / 8)).getLsbD ((s.regs.bitpos.toNat + k) % 8)) ∧
      (∀ k, n ≤ k → (t.reg rd).getLsbD k = false) ∧ OtherRegsSame rd s t ∧
      t.regs = { s.regs with x := t.regs.x, bitpos := s.regs.bitpos + BitVec.ofNat 32 n } ∧ OnlyReader s t) ∧
    (8 * s.regs.bslen.toNat - s.regs.bitpos.toNat < n → ∃ t, exec i s = .next t ∧
      ErrorEntered s t .endOfStream (BitVec.ofNat 32 (8 * s.regs.bslen.toNat - s.regs.bitpos.toNat)) (encode i))

/-- R115, R116: a skip of `n` bits, at most `rem`, advances `BITPOS` by `n` and reads and writes no register and no memory; with
fewer bits left it raises `EndOfStream(rem)`. The count of `SKIP` is the whole register: it never wraps. -/
def Obligations.SkipsAdvanceThePosition : Prop :=
  (∀ imm, decode (wordI 0x13 0 0 imm) = .command (.skipi imm)) ∧ (∀ rs, decode (wordI 0x14 0 rs 0) = .command (.skip rs)) ∧
  ∀ (s : State) (i : Instr) (n : Nat),
    ((∃ imm : BitVec 16, i = .skipi imm ∧ n = imm.toNat) ∨ (∃ rs, i = .skip rs ∧ n = (s.reg rs).toNat)) →
    (n ≤ 8 * s.regs.bslen.toNat - s.regs.bitpos.toNat → ∃ t, exec i s = .next t ∧
      t.regs = { s.regs with bitpos := s.regs.bitpos + BitVec.ofNat 32 n } ∧ SameMemory s t ∧ SamePort s t ∧
      t.draws = s.draws) ∧
    (8 * s.regs.bslen.toNat - s.regs.bitpos.toNat < n → ∃ t, exec i s = .next t ∧
      ErrorEntered s t .endOfStream (BitVec.ofNat 32 (8 * s.regs.bslen.toNat - s.regs.bitpos.toNat)) (encode i))

/-- R118, R259: the tests `RDCB` makes before its first peek, in order (the base, the sentinel's kind, its width); then a walk
that ends in a value writes `x[rd]`, `HLEN` and `BITPOS` and nothing else the host sees, and one that raises enters that error.
`rs` may be `rd`. -/
def Obligations.RdcbWritesTheDecodedValue : Prop :=
  ∀ (s : State) (rd rs : Reg),
    let base := (s.reg rs).toNat
    let sentinel := s.cbEntry base
    let width := (sentinel.extractLsb' 0 32).toNat
    let off := (sentinel.extractLsb' 32 31).toNat
    decode (wordI 0x15 rd rs 0) = .command (.rdcb rd rs) ∧
    (s.cfg.cbEntries ≤ base →
      ∃ t, exec (.rdcb rd rs) s = .next t ∧ ErrorEntered s t .tableBounds (s.reg rs) (encode (.rdcb rd rs))) ∧
    (base < s.cfg.cbEntries → (sentinel.getLsbD 63 = false ∨ width = 0 ∨ 32 < width) →
      ∃ t, exec (.rdcb rd rs) s = .next t ∧ ErrorEntered s t .malformedTable (s.reg rs) (encode (.rdcb rd rs))) ∧
    (base < s.cfg.cbEntries → sentinel.getLsbD 63 = true →
      (∀ v n, walk s base (s.rem + 1) width off base 0 = .value v n → ∃ t, exec (.rdcb rd rs) s = .next t ∧
        t.reg rd = BitVec.ofNat 32 v ∧ OtherRegsSame rd s t ∧
        t.regs = { s.regs with
          x := t.regs.x, hlen := BitVec.ofNat 32 n, bitpos := s.regs.bitpos + BitVec.ofNat 32 n } ∧ OnlyReader s t) ∧
      (∀ c info, walk s base (s.rem + 1) width off base 0 = .raised c info → ∃ t, exec (.rdcb rd rs) s = .next t ∧
        ErrorEntered s t c (BitVec.ofNat 32 info) (encode (.rdcb rd rs))))

/-- R118: one pass of the loop, with at least one pass of fuel, at any place of the walk: the width test, the index test, the
jump, the unused slot, the value, each with its `EndOfStream` test. -/
def Obligations.RdcbLoopFollowsThePseudocode : Prop :=
  ∀ (s : State) (base fuel width off src consumed : Nat),
    let pass := walk s base (fuel + 1) width off src consumed
    let a := base + off + s.peek (s.regs.bitpos.toNat + consumed) width
    let e := s.cbEntry a
    let len := (e.extractLsb' 0 32).toNat
    let field := (e.extractLsb' 32 31).toNat
    ((width = 0 ∨ 32 < width) → pass = .raised .malformedTable src) ∧
    (1 ≤ width → width ≤ 32 →
      (s.cfg.cbEntries ≤ a → pass = .raised .tableBounds a) ∧
      (a < s.cfg.cbEntries → e.getLsbD 63 = true →
        (s.rem < consumed + width → pass = .raised .endOfStream s.rem) ∧
        (consumed + width ≤ s.rem → pass = walk s base fuel len field a (consumed + width))) ∧
      (a < s.cfg.cbEntries → e.getLsbD 63 = false → len = 0 →
        (s.rem < consumed + width → pass = .raised .endOfStream s.rem) ∧
        (consumed + width ≤ s.rem → pass = .raised .decodeError a)) ∧
      (a < s.cfg.cbEntries → e.getLsbD 63 = false → 1 ≤ len →
        (s.rem < consumed + len → pass = .raised .endOfStream s.rem) ∧
        (consumed + len ≤ s.rem → pass = .value field (consumed + len))))

/-- R119: `rem + 1` passes of the loop are enough for every content of CBMEM; more fuel changes no walk. -/
def Obligations.RdcbEndsWithinRemPlusOnePasses : Prop :=
  ∀ (s : State) (base width off src extra : Nat),
    walk s base (s.rem + 1 + extra) width off src 0 = walk s base (s.rem + 1) width off src 0

/-- R119, the tail property: what `RDCB` decodes depends on the tables, `rem` and the remaining bits only, not on where in BSMEM
they lie. -/
def Obligations.RdcbDependsOnlyOnTheRemainingBits : Prop :=
  ∀ (s t : State) (base : Nat), t.cfg.cbEntries = s.cfg.cbEntries → (∀ i < s.cfg.cbEntries, t.cbEntry i = s.cbEntry i) →
    t.rem = s.rem →
    (∀ j < s.rem, t.bit (t.regs.bitpos.toNat + j) = s.bit (s.regs.bitpos.toNat + j)) →
    decodeCode t base = decodeCode s base

/-- R120: `SKIPI k` then `RDBITS n` succeeds, and ends at the position, as `RDBITS (k + n)`; two reads one after the other compose
to the value of one read; and no command but `BSINIT` and `SRESET` decreases the position. -/
def Obligations.ReaderPositionLaws : Prop :=
  (∀ (s t u v : State) (k n m : BitVec 6) (rd : Reg), s.cfg.Valid → s.ReaderInv → s.Ready → k.toNat + n.toNat ≤ 32 →
    m.toNat = k.toNat + n.toNat →
    exec (.skipi (k.setWidth 16)) s = .next t → exec (.rdbits rd n) t = .next u → exec (.rdbits rd m) s = .next v →
    ((t.Ready ∧ u.Ready) ↔ m.toNat ≤ s.rem) ∧ (v.Ready ↔ m.toNat ≤ s.rem) ∧
    (m.toNat ≤ s.rem → u.regs.bitpos.toNat = s.regs.bitpos.toNat + m.toNat ∧
      v.regs.bitpos.toNat = s.regs.bitpos.toNat + m.toNat)) ∧
  (∀ (s t u v : State) (k n m : BitVec 6) (rd : Reg), s.cfg.Valid → s.ReaderInv → k.toNat + n.toNat ≤ 32 →
    m.toNat = k.toNat + n.toNat → m.toNat ≤ s.rem →
    exec (.rdbits rd k) s = .next t → exec (.rdbits rd n) t = .next u → exec (.rdbits rd m) s = .next v →
    (v.reg rd).toNat = (t.reg rd).toNat + (u.reg rd).toNat * 2 ^ k.toNat) ∧
  (∀ (s t : State) (i : Instr), s.cfg.Valid → s.ReaderInv → exec i s = .next t → (∀ rs, i ≠ .bsinit rs) → i ≠ .sreset →
    s.regs.bitpos.toNat ≤ t.regs.bitpos.toNat)

/-- R121 ("well formed" as log 16 deduces it from R146): with a well-formed table at `x[rs]`, `RDCB` succeeds exactly when a
codeword of the table is a prefix of the remaining bits, with that codeword's value and length (R153: so it reads back the code
the table is well formed for); otherwise it ends in `EndOfStream` or `DecodeError`, and in `EndOfStream` when the remaining bits
are a proper prefix of a codeword. -/
def Obligations.RdcbIsPrefixDecoding : Prop :=
  ∀ (s : State) (rd rs : Reg) (t : Table) (blocks : List Block), WellFormedTable t blocks → s.holdsTable (s.reg rs).toNat t →
    (∀ code v, TableCode t code v → code.length ≤ s.rem → s.streamBits s.regs.bitpos.toNat code.length = code →
      ∃ u, exec (.rdcb rd rs) s = .next u ∧ u.reg rd = BitVec.ofNat 32 v ∧
        u.regs = { s.regs with
          x := u.regs.x, hlen := BitVec.ofNat 32 code.length, bitpos := s.regs.bitpos + BitVec.ofNat 32 code.length }) ∧
    ((∀ code v, TableCode t code v → code.length ≤ s.rem → s.streamBits s.regs.bitpos.toNat code.length ≠ code) →
      ∃ u c info, exec (.rdcb rd rs) s = .next u ∧ ErrorEntered s u c info (encode (.rdcb rd rs)) ∧
        (c = .endOfStream ∨ c = .decodeError)) ∧
    (∀ code v, TableCode t code v → s.rem < code.length → s.streamBits s.regs.bitpos.toNat s.rem = code.take s.rem →
      ∃ u, exec (.rdcb rd rs) s = .next u ∧
        ErrorEntered s u .endOfStream (BitVec.ofNat 32 s.rem) (encode (.rdcb rd rs))) ∧
    (∀ entries, WellFormedFor t blocks entries → ∀ e ∈ entries, e.len ≠ 0 → e.len ≤ s.rem →
      s.streamBits s.regs.bitpos.toNat e.len = codewordBits e.code e.len →
      ∃ u, exec (.rdcb rd rs) s = .next u ∧ u.reg rd = BitVec.ofNat 32 e.value ∧ u.regs.hlen = BitVec.ofNat 32 e.len)

/-- R151: each used entry gets the numerically lowest codeword of its length that clashes with none assigned before it (clash:
one a prefix of the other, or equal); entries of length 0 get none. And the assignment fails exactly when, at some used entry,
every codeword of its length clashes with one assigned before it. -/
def Obligations.CanonicalCodewordsAreTheLowestFree : Prop :=
  (∀ (lengths : List Nat) (cs : List (Option Codeword)), canonicalCodewords lengths = some cs →
    cs.length = lengths.length ∧
    ∀ k, (hk : k < lengths.length) →
      (lengths[k] = 0 → cs[k]? = some none) ∧
      (lengths[k] ≠ 0 → ∃ c, cs[k]? = some (some c) ∧ c.len = lengths[k] ∧ c.code < 2 ^ c.len ∧
        (∀ j < k, ∀ d, cs[j]? = some (some d) → d.clashes c = false) ∧
        ∀ lower < c.code, ∃ j < k, ∃ d, cs[j]? = some (some d) ∧ d.clashes ⟨lower, c.len⟩ = true)) ∧
  (∀ lengths : List Nat, canonicalCodewords lengths = none ↔
    ∃ k, ∃ hk : k < lengths.length, ∃ cs, canonicalCodewords (lengths.take k) = some cs ∧ lengths[k] ≠ 0 ∧
      ∀ code < 2 ^ lengths[k], ∃ d, some d ∈ cs ∧ d.clashes ⟨code, lengths[k]⟩ = true)

/-! ### CRC unit (43_crc) -/

/-- R177: chaining, linearity, leading zeros, the appended checksum, the table form, and three table entries. -/
def Obligations.CrcLaws : Prop :=
  (∀ (c : Word) (u v : List Byte), crc (crc c u) v = crc c (u ++ v)) ∧
  (∀ u v : List Byte, u.length = v.length → crc 0 (List.zipWith (· ^^^ ·) u v) = crc 0 u ^^^ crc 0 v) ∧
  (∀ (k : Nat) (u : List Byte), crc 0 (List.replicate k 0 ++ u) = crc 0 u) ∧
  (∀ u : List Byte, crc 0 (u ++ (bytesOf (crc 0 u)).reverse) = 0) ∧
  (∀ (c : Word) (b : Byte), crcStep c b = (c <<< 8) ^^^ crcStep 0 (c.extractLsb' 24 8 ^^^ b)) ∧
  crcStep 0 1 = 0x04C11DB7 ∧ crcStep 0 128 = 0x690CE0EE ∧ crcStep 0 255 = 0xB1F740B4

/-- R173: `CRCFEED` runs the bytes `PG[a] .. PG[a+l-1]` through the accumulator, or raises `BadOperand`, start before length. -/
def Obligations.CrcfeedFeedsTheRange : Prop :=
  ∀ (s : State) (rs rt : Reg),
    let a := (s.reg rs).toNat
    let l := (s.reg rt).toNat
    decode (wordR 0x21 0 rs rt) = .command (.crcfeed rs rt) ∧
    (a ≤ 65536 → l ≤ 65536 - a → ∃ t, exec (.crcfeed rs rt) s = .next t ∧
      t.regs = { s.regs with
        crcAcc := crc s.regs.crcAcc ((List.range l).map fun k => s.byteAt (0x010000 + (a + k))) } ∧ OnlyRegisters s t) ∧
    (65536 < a → ∃ t, exec (.crcfeed rs rt) s = .next t ∧
      ErrorEntered s t .badOperand (s.reg rs) (encode (.crcfeed rs rt))) ∧
    (a ≤ 65536 → 65536 - a < l → ∃ t, exec (.crcfeed rs rt) s = .next t ∧
      ErrorEntered s t .badOperand (s.reg rt) (encode (.crcfeed rs rt)))

/-- R172, R174: `CRCRST` clears the accumulator and nothing else; `CRCCMP` changes nothing on equality, else it raises
`CrcMismatch` with the accumulator. -/
def Obligations.CrcrstClearsAndCrccmpCompares : Prop :=
  decode 0x20000000 = .command .crcrst ∧ ∀ (s : State) (rs : Reg),
    decode (wordI 0x22 0 rs 0) = .command (.crccmp rs) ∧
    (∃ t, exec .crcrst s = .next t ∧ t.regs = { s.regs with crcAcc := 0 } ∧ OnlyRegisters s t) ∧
    (s.regs.crcAcc = s.reg rs → exec (.crccmp rs) s = .next s) ∧
    (s.regs.crcAcc ≠ s.reg rs → ∃ t, exec (.crccmp rs) s = .next t ∧
      ErrorEntered s t .crcMismatch s.regs.crcAcc (encode (.crccmp rs)))

/-- R176 (with R175): `CRCPAGE` checks the page at `PG[0]` over its `27 + nseg + body` bytes with bytes 22 to 25 read as zero,
against the little-endian word they hold; on a match it writes `CRCACC`, `CRCSTORED`, `PGLEN` and `x[rd]`, else it raises
`CrcMismatch` with the computed checksum. The length is 27 to 65307, so the page fits PGMEM (R260). -/
def Obligations.CrcpageChecksThePage : Prop :=
  ∀ (s : State) (rd : Reg),
    let pg := fun k => s.byteAt (0x010000 + k)
    let nseg := (pg 26).toNat
    let total := 27 + nseg + ((List.range nseg).map fun k => (pg (27 + k)).toNat).sum
    let stored : Word := pg 25 ++ pg 24 ++ pg 23 ++ pg 22
    let c := crc 0 ((List.range total).map fun k => if 22 ≤ k ∧ k ≤ 25 then 0 else pg k)
    decode (wordI 0x23 rd 0 0) = .command (.crcpage rd) ∧ 27 ≤ total ∧ total ≤ 65307 ∧
    (c = stored → ∃ t, exec (.crcpage rd) s = .next t ∧ t.reg rd = BitVec.ofNat 32 total ∧ OtherRegsSame rd s t ∧
      t.regs = { s.regs with
        x := t.regs.x, crcAcc := c, crcStored := stored, pgLen := BitVec.ofNat 32 total } ∧ OnlyRegisters s t) ∧
    (c ≠ stored → ∃ t, exec (.crcpage rd) s = .next t ∧ ErrorEntered s t .crcMismatch c (encode (.crcpage rd)))

/-! ### Numbers (44_imdct R190) -/

/-- R190: on finite operands a product, a sum and a difference that stay finite are the binary32 numbers nearest to the exact
value, and of two equally near the one with the even encoding; they overflow exactly when the exact value is at least half a
unit above the largest finite number, to the infinity of its sign. With infinite operands, where the operation is not invalid,
the result is the infinity IEEE 754 gives (log 11): that of the infinite operand in a sum or a difference, that of the signs'
product in a product. -/
def Obligations.RoundingIsToNearestEven : Prop :=
  (∀ a b : Word, fIsFinite a = true → fIsFinite b = true →
    ∀ (r : Word) (exact scale : Int),
      ((r = fmul a b ∧ exact = fValue a * fValue b ∧ scale = 2 ^ 149) ∨
       (r = fadd a b ∧ exact = fValue a + fValue b ∧ scale = 1) ∨
       (r = fsub a b ∧ exact = fValue a - fValue b ∧ scale = 1)) →
      (fIsInf r = true ↔ (2 ^ 25 - 1) * 2 ^ 253 * scale ≤ 2 * |exact|) ∧
      (fIsInf r = true → (fSign r = true ↔ exact < 0)) ∧
      fIsNan r = false ∧
      (fIsFinite r = true → ∀ v : Word, fIsFinite v = true →
        |fValue r * scale - exact| ≤ |fValue v * scale - exact| ∧
        (|fValue r * scale - exact| = |fValue v * scale - exact| → fValue v ≠ fValue r → fMag r % 2 = 0))) ∧
  (∀ a b : Word, fIsInf a = true → fIsFinite b = true →
    fadd a b = a ∧ fadd b a = a ∧ fsub a b = a ∧ fsub b a = fneg a ∧
    (fMag b ≠ 0 → ∀ r, (r = fmul a b ∨ r = fmul b a) → fIsInf r = true ∧ fSign r = (fSign a != fSign b))) ∧
  (∀ a b : Word, fIsInf a = true → fIsInf b = true →
    (fSign a = fSign b → fadd a b = a) ∧ (fSign a ≠ fSign b → fsub a b = a) ∧
    fIsInf (fmul a b) = true ∧ fSign (fmul a b) = (fSign a != fSign b))

/-- R190: a NaN operand gives a NaN; `∞ − ∞` gives a NaN, as a sum of opposite infinities and as a difference of equal ones;
`0 × ∞` gives a NaN, in either order and with any signs; `fneg` inverts the sign bit and no other. -/
def Obligations.NansAndNegation : Prop :=
  (∀ a b : Word, fIsNan a = true ∨ fIsNan b = true →
    fIsNan (fadd a b) = true ∧ fIsNan (fsub a b) = true ∧ fIsNan (fmul a b) = true) ∧
  (∀ a b : Word, fIsInf a = true → fIsInf b = true → fSign a ≠ fSign b → fIsNan (fadd a b) = true) ∧
  (∀ a b : Word, fIsInf a = true → fIsInf b = true → fSign a = fSign b → fIsNan (fsub a b) = true) ∧
  (∀ a b : Word, (fIsInf a = true ∧ fMag b = 0) ∨ (fMag a = 0 ∧ fIsInf b = true) → fIsNan (fmul a b) = true) ∧
  (∀ a : Word, (fIsInf a = true ↔ a = 0x7F800000 ∨ a = 0xFF800000) ∧ (fMag a = 0 ↔ a = 0x00000000 ∨ a = 0x80000000)) ∧
  (∀ a : Word, (∀ k < 31, (fneg a).getLsbD k = a.getLsbD k) ∧ (fneg a).getLsbD 31 = !a.getLsbD 31)

/-- R226: the clamp, by value: above 1 it gives 1.0, below −1 it gives −1.0, else the operand unchanged; infinities clamp, a NaN
passes. -/
def Obligations.ClampBoundsEverySample : Prop :=
  (∀ v : Word, fIsFinite v = true →
    (2 ^ 149 < fValue v → clamp v = 0x3F800000) ∧ (fValue v < -2 ^ 149 → clamp v = 0xBF800000) ∧
    (-2 ^ 149 ≤ fValue v → fValue v ≤ 2 ^ 149 → clamp v = v)) ∧
  clamp 0x7F800000 = 0x3F800000 ∧ clamp 0xFF800000 = 0xBF800000 ∧ clamp 0x80000000 = 0x80000000 ∧
  ∀ v : Word, fIsNan v = true → clamp v = v

/-! ### IMDCT unit (44_imdct) -/

/-- R200: `IMDCT` with a valid configuration writes `IMD[0 .. bs)` with the samples of the three steps over the block's `Numerics`
(R4; that they stand in the state is the model's choice, log 10), sets `IMDVALID` and `CURBF`, and changes no other byte and no
other register; else it raises `BadConfig(BSEXP)`. The default `Numerics` are the operations of R190 with the network of R197. -/
def Obligations.ImdctWritesOneBlock : Prop :=
  ∀ (s : State) (bf : Bool),
    let e := if bf then s.regs.bsexp.toNat / 16 else s.regs.bsexp.toNat % 16
    decode (wordI 0x30 0 0 (if bf then 1 else 0)) = .command (.imdct bf) ∧
    (s.configValid → ∃ t, exec (.imdct bf) s = .next t ∧
      (∀ j < 2 ^ e, t.element .imd j =
        (imdct s.numerics (e - 2) (s.element .spec) (s.complexElement (if bf then .tw1 else .tw0))
          (s.complexElement .fftw)).getD j 0) ∧
      SameMemoryOutside MemName.imd.base (4 * 2 ^ e) s t ∧
      t.regs = { s.regs with status := { s.regs.status with imdValid := true, curBf := bf } } ∧ t.cache = s.cache ∧
      SamePort s t ∧ t.draws = { s.draws with scratch := t.draws.scratch }) ∧
    (¬ s.configValid → ∃ t, exec (.imdct bf) s = .next t ∧
      ErrorEntered s t .badConfig (s.regs.bsexp.setWidth 32) (encode (.imdct bf))) ∧
    (s.cfg.numerics = .binary32 → s.numerics.add = fadd ∧ s.numerics.sub = fsub ∧ s.numerics.mul = fmul ∧
      s.numerics.neg = fneg ∧ s.numerics.fft = fft s.numerics.toArithmetic)

/-- R195, R197: steps 1 and 2 of the transform, line by line of their pseudocode, for `M = 2^lg` points over any arithmetic.
Step 1: each `S[i]`, operation by operation. Step 2: there are arrays `A 0` (the bit-reversed input) to `A lg` (the output) such
that each stage takes one to the next by the butterflies of R197; bit `b` of `rev_lg(i)` is bit `lg − 1 − b` of `i`. -/
def Obligations.PackingAndNetworkFollowThePseudocode : Prop :=
  ∀ (α : Type) (_ : Inhabited α) (num : Arithmetic α) (lg : Nat) (spec : Nat → α) (tw fw : Nat → Cplx α)
    (input : List (Cplx α)), lg ≤ 11 →
    let m := 2 ^ lg
    let n := 2 * m
    ((preTwiddle num m spec tw).length = m ∧ ∀ i < m,
      let even := spec (2 * i)
      let odd := num.neg (spec (n - 1 - 2 * i))
      let w := tw i
      ((preTwiddle num m spec tw).getD i default).re = num.sub (num.mul odd w.im) (num.mul even w.re) ∧
      ((preTwiddle num m spec tw).getD i default).im = num.add (num.mul odd w.re) (num.mul even w.im)) ∧
    (∀ i < m, rev lg i < m ∧ ∀ b < lg, (rev lg i).testBit b = i.testBit (lg - 1 - b)) ∧
    (fft num fw lg input).length = m ∧
    ∃ A : Nat → Nat → Cplx α,
      (∀ i < m, A 0 (rev lg i) = input.getD i default) ∧
      (∀ s, 1 ≤ s → s ≤ lg → ∀ g j,
        let len := 2 ^ s
        let half := len / 2
        let stride := 2048 / len
        g % len = 0 → g < m → j < half →
        let w := fw (j * stride)
        let u := A (s - 1) (g + j)
        let v := A (s - 1) (g + j + half)
        let t : Cplx α := ⟨num.sub (num.mul v.re w.re) (num.mul v.im w.im), num.add (num.mul v.re w.im) (num.mul v.im w.re)⟩
        j * stride < 1024 ∧
        A s (g + j) = ⟨num.add u.re t.re, num.add u.im t.im⟩ ∧
        A s (g + j + half) = ⟨num.sub u.re t.re, num.sub u.im t.im⟩) ∧
      (∀ k < m, (fft num fw lg input).getD k default = A lg k)

/-- R198: step 3 of the transform, line by line of its two loops, for a transform of `M = 2^lg` points over any numbers
and with any FFT kernel. -/
def Obligations.ScatterFollowsTheTwoLoops : Prop :=
  ∀ (α : Type) (_ : Inhabited α) (num : Numerics α) (lg : Nat) (spec : Nat → α) (tw fw : Nat → Cplx α) (i : Nat), 1 ≤ lg →
    let m := 2 ^ lg
    let q := m / 2
    let n := 2 * m
    let y := num.fft fw lg (preTwiddle num.toArithmetic m spec tw)
    let val := fun k => (⟨num.add (num.mul (tw k).re (y.getD k default).re) (num.mul (tw k).im (y.getD k default).im),
      num.sub (num.mul (tw k).im (y.getD k default).re) (num.mul (tw k).re (y.getD k default).im)⟩ : Cplx α)
    let out := imdct num lg spec tw fw
    let fi := 2 * i
    let ri := m - 1 - 2 * i
    i < q →
    out.getD ri default = num.neg (val i).im ∧
    out.getD (m + fi) default = (val i).im ∧
    out.getD (n + ri) default = (val i).re ∧
    out.getD (n + m + fi) default = (val i).re ∧
    out.getD fi default = num.neg (val (q + i)).re ∧
    out.getD (m + ri) default = (val (q + i)).re ∧
    out.getD (n + fi) default = (val (q + i)).im ∧
    out.getD (n + m + ri) default = (val (q + i)).im

/-- R201: after an `IMDCT` the first half of the block is odd and the second half even about its middle, bit for bit, whatever
the block's `Numerics`; with the default ones the negation is `fneg`. -/
def Obligations.ImdctOutputIsSymmetric : Prop :=
  ∀ (s t : State) (bf : Bool), s.configValid → exec (.imdct bf) s = .next t →
    let m := s.blockSize bf / 4
    ∀ j < m, t.element .imd (m - 1 - j) = s.numerics.neg (t.element .imd (m + j)) ∧
      (s.cfg.numerics = .binary32 → t.element .imd (m - 1 - j) = fneg (t.element .imd (m + j))) ∧
      t.element .imd (2 * m + m + j) = t.element .imd (2 * m + m - 1 - j)

/-- R196, R197: with exact arithmetic and exact roots the network computes the forward transform of size `M = 2^lg`, without
division by `M`. -/
def Obligations.NetworkComputesTheForwardTransform : Prop :=
  ∀ (num : Arithmetic ℝ) (fw : Nat → Cplx ℝ) (lg : Nat) (input : List (Cplx ℝ)),
    (∀ a b, num.add a b = a + b) → (∀ a b, num.sub a b = a - b) → (∀ a b, num.mul a b = a * b) →
    (∀ k < 1024, fw k = ⟨Real.cos (2 * Real.pi * k / 2048), -Real.sin (2 * Real.pi * k / 2048)⟩) →
    lg ≤ 11 → input.length = 2 ^ lg →
    (fft num fw lg input).length = 2 ^ lg ∧
    ∀ k < 2 ^ lg,
      ((fft num fw lg input).getD k default).re =
        ∑ i ∈ Finset.range (2 ^ lg), ((input.getD i default).re * Real.cos (2 * Real.pi * i * k / 2 ^ lg) +
          (input.getD i default).im * Real.sin (2 * Real.pi * i * k / 2 ^ lg)) ∧
      ((fft num fw lg input).getD k default).im =
        ∑ i ∈ Finset.range (2 ^ lg), ((input.getD i default).im * Real.cos (2 * Real.pi * i * k / 2 ^ lg) -
          (input.getD i default).re * Real.sin (2 * Real.pi * i * k / 2 ^ lg))

/-- R199: with exact arithmetic and exact tables the three steps compute the inverse MDCT without normalisation: for a spectrum
of `n = 2·2^lg` and `0 ≤ j < 2n`, `IMD[j] = scale · Σ SPEC[k]·cos((π/n)(j + 1/2 + n/2)(k + 1/2))`. -/
def Obligations.ThreeStepsComputeTheInverseMdct : Prop :=
  ∀ (num : Arithmetic ℝ) (spec : Nat → ℝ) (tw fw : Nat → Cplx ℝ) (lg : Nat) (scale : ℝ),
    (∀ a b, num.add a b = a + b) → (∀ a b, num.sub a b = a - b) → (∀ a b, num.mul a b = a * b) → (∀ a, num.neg a = -a) →
    (∀ k < 1024, fw k = ⟨Real.cos (2 * Real.pi * k / 2048), -Real.sin (2 * Real.pi * k / 2048)⟩) →
    0 < scale → 4 ≤ lg → lg ≤ 11 →
    let n : Nat := 2 * 2 ^ lg
    (∀ k < 2 ^ lg, tw k =
      ⟨Real.sqrt scale * Real.cos (Real.pi / n * (k + 1 / 8)), Real.sqrt scale * Real.sin (Real.pi / n * (k + 1 / 8))⟩) →
    (imdct (referenceNumerics num) lg spec tw fw).length = 2 * n ∧
    ∀ j < 2 * n, (imdct (referenceNumerics num) lg spec tw fw).getD j 0 =
      scale * ∑ k ∈ Finset.range n, spec k * Real.cos (Real.pi / n * (j + 1 / 2 + n / 2) * (k + 1 / 2))

/-! ### OLA unit (45_overlap_add) -/

/-- R227: a first packet writes no output sample, `OUTLEN = 0`; the overlap is saved all the same. -/
def Obligations.FirstPacketYieldsNoFrames : Prop :=
  ∀ (s : State) (rs rt : Reg), s.configValid → s.regs.status.imdValid = true → s.regs.status.prevValid = false →
    (s.reg rs).toNat < s.cfg.maxCh → (s.reg rt).toNat < s.cfg.maxCh →
    let ch := (s.reg rs).toNat
    let half := s.blockSize s.regs.status.curBf / 2
    ∃ t, exec (.ola rs rt) s = .next t ∧ t.regs.outLen = 0 ∧
      (∀ k < half, t.ovl ch k = s.element .imd (half + k)) ∧ SameMemoryOutside (ovlBank ch) (4 * half) s t

/-- R223: two blocks of equal size overlap whole, under the current window,
with the operations of the block's `Numerics` (R4, log 10), `fadd` and `fmul` in the default. -/
def Obligations.EqualBlocksOverlapWhole : Prop :=
  ∀ (s : State) (rs rt : Reg), s.cfg.Valid → s.configValid → s.regs.status.imdValid = true → s.regs.status.prevValid = true →
    (s.reg rs).toNat < s.cfg.maxCh → (s.reg rt).toNat < s.cfg.maxCh →
    s.blockSize s.regs.status.prevBf = s.blockSize s.regs.status.curBf →
    let num := s.numerics
    let ch := (s.reg rs).toNat
    let len := s.blockSize s.regs.status.curBf / 2
    let w := s.element (if s.regs.status.curBf then .win1 else .win0)
    (s.cfg.numerics = .binary32 → num.add = fadd ∧ num.mul = fmul) ∧
    ∃ t, exec (.ola rs rt) s = .next t ∧ t.regs.outLen = BitVec.ofNat 32 len ∧
      ∀ k < len, t.out (s.reg rt).toNat k =
        clamp (num.add (num.mul (s.ovl ch k) (w (len - 1 - k))) (num.mul (s.element .imd k) (w k)))

/-- R224: previous long, current short: the pass-through, then the overlap under the short window,
with the operations of the block's `Numerics` (R4, log 10), `fadd` and `fmul` in the default. -/
def Obligations.LongThenShortOverlap : Prop :=
  ∀ (s : State) (rs rt : Reg), s.cfg.Valid → s.configValid → s.regs.status.imdValid = true → s.regs.status.prevValid = true →
    (s.reg rs).toNat < s.cfg.maxCh → (s.reg rt).toNat < s.cfg.maxCh →
    s.blockSize s.regs.status.curBf < s.blockSize s.regs.status.prevBf →
    let num := s.numerics
    let ch := (s.reg rs).toNat
    let slot := (s.reg rt).toNat
    let start := (s.bs1 - s.bs0) / 4
    let len := s.bs0 / 2
    let w := s.element .win0
    (s.cfg.numerics = .binary32 → num.add = fadd ∧ num.mul = fmul) ∧
    ∃ t, exec (.ola rs rt) s = .next t ∧ t.regs.outLen = BitVec.ofNat 32 (start + len) ∧
      (∀ k < start, t.out slot k = clamp (s.ovl ch k)) ∧
      (∀ k < len, t.out slot (start + k) =
        clamp (num.add (num.mul (s.ovl ch (start + k)) (w (len - 1 - k))) (num.mul (s.element .imd k) (w k))))

/-- R225: previous short, current long: the overlap under the short window, then the tail of the left half,
with the operations of the block's `Numerics` (R4, log 10), `fadd` and `fmul` in the default. -/
def Obligations.ShortThenLongOverlap : Prop :=
  ∀ (s : State) (rs rt : Reg), s.cfg.Valid → s.configValid → s.regs.status.imdValid = true → s.regs.status.prevValid = true →
    (s.reg rs).toNat < s.cfg.maxCh → (s.reg rt).toNat < s.cfg.maxCh →
    s.blockSize s.regs.status.prevBf < s.blockSize s.regs.status.curBf →
    let num := s.numerics
    let ch := (s.reg rs).toNat
    let slot := (s.reg rt).toNat
    let start := (s.bs1 - s.bs0) / 4
    let len := s.bs0 / 2
    let stop := start + len
    let w := s.element .win0
    (s.cfg.numerics = .binary32 → num.add = fadd ∧ num.mul = fmul) ∧
    ∃ t, exec (.ola rs rt) s = .next t ∧ t.regs.outLen = BitVec.ofNat 32 (len + (s.bs1 / 2 - stop)) ∧
      (∀ k < len, t.out slot k =
        clamp (num.add (num.mul (s.ovl ch k) (w (len - 1 - k))) (num.mul (s.element .imd (start + k)) (w k)))) ∧
      (∀ k < s.bs1 / 2 - stop, t.out slot (len + k) = clamp (s.element .imd (stop + k)))

/-- R228, R229, R232: in every case `OLA` saves the right half of the block, unclamped, into the bank of its channel, clears
`IMDVALID` and writes `OUTLEN`, `(pbs + cbs)/4` with a previous packet and 0 without; no other register, and no byte outside that
half-bank and the first `OUTLEN` samples of the slot, changes. -/
def Obligations.OlaSavesTheOverlapAndKeepsTheRest : Prop :=
  ∀ (s : State) (rs rt : Reg), s.cfg.Valid → s.configValid → s.regs.status.imdValid = true →
    (s.reg rs).toNat < s.cfg.maxCh → (s.reg rt).toNat < s.cfg.maxCh →
    let ch := (s.reg rs).toNat
    let slot := (s.reg rt).toNat
    let half := s.blockSize s.regs.status.curBf / 2
    let frames := if s.regs.status.prevValid then
      (s.blockSize s.regs.status.prevBf + s.blockSize s.regs.status.curBf) / 4 else 0
    ∃ t, exec (.ola rs rt) s = .next t ∧
      (∀ k < half, t.ovl ch k = s.element .imd (half + k)) ∧
      (∀ a, (a < 0x080000 + ch * 0x4000 ∨ 0x080000 + ch * 0x4000 + 4 * half ≤ a) →
        (a < 0x100000 + slot * 0x8000 ∨ 0x100000 + slot * 0x8000 + 4 * frames ≤ a) →
        t.byteAt a = s.byteAt a) ∧
      t.regs = { s.regs with
        outLen := BitVec.ofNat 32 frames, status := { s.regs.status with imdValid := false } } ∧
      SameHidden s t ∧ SamePort s t

/-- R229, R259: the tests of `OLA`, in order: configuration, result, channel, slot. -/
def Obligations.OlaTestsInOrder : Prop :=
  ∀ (s : State) (rs rt : Reg),
    decode (wordR 0x31 0 rs rt) = .command (.ola rs rt) ∧
    (¬ s.configValid → ∃ t, exec (.ola rs rt) s = .next t ∧
      ErrorEntered s t .badConfig (s.regs.bsexp.setWidth 32) (encode (.ola rs rt))) ∧
    (s.configValid → s.regs.status.imdValid = false → ∃ t, exec (.ola rs rt) s = .next t ∧
      ErrorEntered s t .badSequence 0 (encode (.ola rs rt))) ∧
    (s.configValid → s.regs.status.imdValid = true → s.cfg.maxCh ≤ (s.reg rs).toNat → ∃ t, exec (.ola rs rt) s = .next t ∧
      ErrorEntered s t .badOperand (s.reg rs) (encode (.ola rs rt))) ∧
    (s.configValid → s.regs.status.imdValid = true → (s.reg rs).toNat < s.cfg.maxCh → s.cfg.maxCh ≤ (s.reg rt).toNat →
      ∃ t, exec (.ola rs rt) s = .next t ∧ ErrorEntered s t .badOperand (s.reg rt) (encode (.ola rs rt)))

/-- R230, R231: `LAPUPD` sets the lapping state to its flag, `LAPRST` forgets it; nothing else changes. -/
def Obligations.LappingStateCommands : Prop :=
  (∀ bf : Bool, decode (wordI 0x32 0 0 (if bf then 1 else 0)) = .command (.lapupd bf)) ∧
  decode 0x33000000 = .command .laprst ∧
  (∀ (s : State) (bf : Bool), ∃ t, exec (.lapupd bf) s = .next t ∧
    t.regs = { s.regs with status := { s.regs.status with prevValid := true, prevBf := bf } } ∧ OnlyRegisters s t) ∧
  (∀ s : State, ∃ t, exec .laprst s = .next t ∧
    t.regs = { s.regs with status := { s.regs.status with prevValid := false, prevBf := false } } ∧ OnlyRegisters s t)

/-- R301: an `IMDCT` result is consumed once: after an `OLA` that succeeded, another one raises `BadSequence`, until an `IMDCT`
sets `IMDVALID` again. -/
def Obligations.EachResultIsConsumedOnce : Prop :=
  ∀ (s t : State) (rs rt rs' rt' : Reg), s.Ready → exec (.ola rs rt) s = .next t → t.Ready →
    (∃ u, exec (.ola rs' rt') t = .next u ∧ ErrorEntered t u .badSequence 0 (encode (.ola rs' rt'))) ∧
    (∀ bf, ∃ u, exec (.imdct bf) t = .next u ∧ u.Ready ∧ u.regs.status.imdValid = true ∧ u.regs.status.curBf = bf)

/-! ### Reset and the interrupt (60_exceptions R261, 70_reset_and_hazards R290 to R292) -/

/-- R290, R292, R30: when `rst` is released every register reads its reset value, STATUS is 0, the bit cache is empty, `irq` is
low, no memory element has a written value, and the port is served again; the reset state of the model is such a state, with the
default parameters of R4. While `rst` is asserted the port is not served; an edge of `rst` that waits behind transactions is
taken, and the transactions wait on, in order; an edge that asserts `rst` again changes nothing; with no edge waiting, nothing
changes (log 8). -/
def Obligations.HardResetLeavesTheResetValues : Prop :=
  (∀ (s : State) (before rest : List HostAction), s.rst = true → .assertRst ∉ before → .releaseRst ∉ before →
    (s.pending = before ++ .releaseRst :: rest → ∃ t, step s = .next t ∧
      (∀ r : PortReg, t.readPortReg r = if r = .id then 0x57564B01 else 0) ∧
      t.regs.status = ⟨false, false, false, false, false, false⟩ ∧ t.cache.cnt = 0 ∧ t.cache.nxt = 0 ∧ t.irq = false ∧
      (∀ a, Memory.get? t.mem a = none) ∧ t.rst = false ∧ t.pending = before ++ rest ∧ t.cfg = s.cfg) ∧
    (s.pending = before ++ .assertRst :: rest → step s = .next { s with pending := before ++ rest }) ∧
    (s.pending = before → step s = .next s)) ∧
  ((∀ r : PortReg, State.reset.readPortReg r = if r = .id then 0x57564B01 else 0) ∧
    State.reset.cache.cnt = 0 ∧ State.reset.cache.nxt = 0 ∧ State.reset.irq = false ∧
    (∀ a, Memory.get? State.reset.mem a = none) ∧ State.reset.rst = false ∧
    State.reset.cfg = ⟨8388608, 524288, 8, .binary32⟩)

/-! ### Invariants -/

/-- The invariant holds at reset. -/
def Obligations.ResetMeetsTheInvariant : Prop := State.reset.Inv

/-- Every step keeps the invariant: legal parameters, memory inside the windows and in the canonical form that is the model's
choice (log 1), `BITPOS ≤ 8·BSLEN ≤ 8·BS_BYTES`, the bit cache a window on the stream, the error and lapping registers
consistent, the counters in range. The cache clause is weaker than R28: it asks for `BITPOS = 8·nxt − cnt` of a cache that is
not empty only (log 5). -/
def Obligations.EveryStepKeepsTheInvariant : Prop :=
  ∀ s t : State, s.Inv → step s = .next t → t.Inv
end

