-- ==== Sys2Proof/Laws/State.lean ====
section
/-! SUPPORT. One lemma per field of State and per update of it, so that no later proof unfolds a record update. -/

namespace Sys2Proof.Machine

variable (s : State)

/-! `setReg` -/

@[simp] theorem setReg_regs (r : Reg) (v : Word) : (s.setReg r v).regs = { s.regs with x := s.regs.x.set r.val v } := rfl
@[simp] theorem setReg_mem (r : Reg) (v : Word) : (s.setReg r v).mem = s.mem := rfl
@[simp] theorem setReg_cache (r : Reg) (v : Word) : (s.setReg r v).cache = s.cache := rfl
@[simp] theorem setReg_draws (r : Reg) (v : Word) : (s.setReg r v).draws = s.draws := rfl
@[simp] theorem setReg_cfg (r : Reg) (v : Word) : (s.setReg r v).cfg = s.cfg := rfl
@[simp] theorem setReg_rst (r : Reg) (v : Word) : (s.setReg r v).rst = s.rst := rfl
@[simp] theorem setReg_pending (r : Reg) (v : Word) : (s.setReg r v).pending = s.pending := rfl
@[simp] theorem setReg_answer (r : Reg) (v : Word) : (s.setReg r v).answer = s.answer := rfl

/-! `storeWords` -/

@[simp] theorem storeWords_regs (a : Nat) (ws : List Word) : (s.storeWords a ws).regs = s.regs := rfl
@[simp] theorem storeWords_mem (a : Nat) (ws : List Word) : (s.storeWords a ws).mem = Memory.store s.mem a (ws.flatMap bytesOf) := rfl
@[simp] theorem storeWords_cache (a : Nat) (ws : List Word) : (s.storeWords a ws).cache = s.cache := rfl
@[simp] theorem storeWords_draws (a : Nat) (ws : List Word) : (s.storeWords a ws).draws = s.draws := rfl
@[simp] theorem storeWords_cfg (a : Nat) (ws : List Word) : (s.storeWords a ws).cfg = s.cfg := rfl
@[simp] theorem storeWords_rst (a : Nat) (ws : List Word) : (s.storeWords a ws).rst = s.rst := rfl
@[simp] theorem storeWords_pending (a : Nat) (ws : List Word) : (s.storeWords a ws).pending = s.pending := rfl
@[simp] theorem storeWords_answer (a : Nat) (ws : List Word) : (s.storeWords a ws).answer = s.answer := rfl

/-! `consume` -/

@[simp] theorem consume_regs (n : Nat) : (s.consume n).regs = { s.regs with bitpos := wordOf (s.regs.bitpos.toNat + n) } := rfl
@[simp] theorem consume_mem (n : Nat) : (s.consume n).mem = s.mem := rfl
@[simp] theorem consume_cache (n : Nat) : (s.consume n).cache = s.cacheAfterRead n := rfl
@[simp] theorem consume_draws (n : Nat) : (s.consume n).draws = { s.draws with refill := s.draws.refill + 1 } := rfl
@[simp] theorem consume_cfg (n : Nat) : (s.consume n).cfg = s.cfg := rfl
@[simp] theorem consume_rst (n : Nat) : (s.consume n).rst = s.rst := rfl
@[simp] theorem consume_pending (n : Nat) : (s.consume n).pending = s.pending := rfl
@[simp] theorem consume_answer (n : Nat) : (s.consume n).answer = s.answer := rfl

/-! `skipBits` -/

@[simp] theorem skipBits_regs (n : Nat) : (s.skipBits n).regs = { s.regs with bitpos := wordOf (s.regs.bitpos.toNat + n) } := rfl
@[simp] theorem skipBits_mem (n : Nat) : (s.skipBits n).mem = s.mem := rfl
@[simp] theorem skipBits_cache (n : Nat) : (s.skipBits n).cache = s.cacheAfterSkip n := rfl
@[simp] theorem skipBits_draws (n : Nat) : (s.skipBits n).draws = s.draws := rfl
@[simp] theorem skipBits_cfg (n : Nat) : (s.skipBits n).cfg = s.cfg := rfl
@[simp] theorem skipBits_rst (n : Nat) : (s.skipBits n).rst = s.rst := rfl
@[simp] theorem skipBits_pending (n : Nat) : (s.skipBits n).pending = s.pending := rfl
@[simp] theorem skipBits_answer (n : Nat) : (s.skipBits n).answer = s.answer := rfl

/-! `raise` -/

@[simp] theorem raise_regs (c : Cause) (info : Nat) (w : Word) : (raise c info w s).regs = { s.regs with errCause := c, errInfo := wordOf info, errCmd := w, status := { s.regs.status with err := true } } := rfl
@[simp] theorem raise_mem (c : Cause) (info : Nat) (w : Word) : (raise c info w s).mem = s.mem := rfl
@[simp] theorem raise_cache (c : Cause) (info : Nat) (w : Word) : (raise c info w s).cache = s.cache := rfl
@[simp] theorem raise_draws (c : Cause) (info : Nat) (w : Word) : (raise c info w s).draws = s.draws := rfl
@[simp] theorem raise_cfg (c : Cause) (info : Nat) (w : Word) : (raise c info w s).cfg = s.cfg := rfl
@[simp] theorem raise_rst (c : Cause) (info : Nat) (w : Word) : (raise c info w s).rst = s.rst := rfl
@[simp] theorem raise_pending (c : Cause) (info : Nat) (w : Word) : (raise c info w s).pending = s.pending := rfl
@[simp] theorem raise_answer (c : Cause) (info : Nat) (w : Word) : (raise c info w s).answer = s.answer := rfl

/-! `errorReturn` -/

@[simp] theorem errorReturn_regs : (errorReturn s).regs = { s.regs with errCause := .none, errInfo := 0, errCmd := 0, status := { s.regs.status with err := false, drop := false } } := rfl
@[simp] theorem errorReturn_mem : (errorReturn s).mem = s.mem := rfl
@[simp] theorem errorReturn_cache : (errorReturn s).cache = s.cache := rfl
@[simp] theorem errorReturn_draws : (errorReturn s).draws = s.draws := rfl
@[simp] theorem errorReturn_cfg : (errorReturn s).cfg = s.cfg := rfl
@[simp] theorem errorReturn_rst : (errorReturn s).rst = s.rst := rfl
@[simp] theorem errorReturn_pending : (errorReturn s).pending = s.pending := rfl
@[simp] theorem errorReturn_answer : (errorReturn s).answer = s.answer := rfl

/-! `dropCommand` -/

@[simp] theorem dropCommand_regs : (dropCommand s).regs = { s.regs with status := { s.regs.status with drop := true } } := rfl
@[simp] theorem dropCommand_mem : (dropCommand s).mem = s.mem := rfl
@[simp] theorem dropCommand_cache : (dropCommand s).cache = s.cache := rfl
@[simp] theorem dropCommand_draws : (dropCommand s).draws = s.draws := rfl
@[simp] theorem dropCommand_cfg : (dropCommand s).cfg = s.cfg := rfl
@[simp] theorem dropCommand_rst : (dropCommand s).rst = s.rst := rfl
@[simp] theorem dropCommand_pending : (dropCommand s).pending = s.pending := rfl
@[simp] theorem dropCommand_answer : (dropCommand s).answer = s.answer := rfl

/-! `softReset` -/

@[simp] theorem softReset_regs : (softReset s).regs = Regs.reset := rfl
@[simp] theorem softReset_mem : (softReset s).mem = s.mem := rfl
@[simp] theorem softReset_cache : (softReset s).cache = BitCache.reset := rfl
@[simp] theorem softReset_draws : (softReset s).draws = s.draws := rfl
@[simp] theorem softReset_cfg : (softReset s).cfg = s.cfg := rfl
@[simp] theorem softReset_rst : (softReset s).rst = s.rst := rfl
@[simp] theorem softReset_pending : (softReset s).pending = s.pending := rfl
@[simp] theorem softReset_answer : (softReset s).answer = s.answer := rfl

/-! `hardReset` -/

@[simp] theorem hardReset_regs : (hardReset s).regs = Regs.reset := rfl
@[simp] theorem hardReset_mem : (hardReset s).mem = [] := rfl
@[simp] theorem hardReset_cache : (hardReset s).cache = BitCache.reset := rfl
@[simp] theorem hardReset_draws : (hardReset s).draws = { s.draws with powerOn := s.draws.powerOn + 1, scratch := s.draws.scratch + 1 } := rfl
@[simp] theorem hardReset_cfg : (hardReset s).cfg = s.cfg := rfl
@[simp] theorem hardReset_rst : (hardReset s).rst = false := rfl
@[simp] theorem hardReset_pending : (hardReset s).pending = s.pending := rfl
@[simp] theorem hardReset_answer : (hardReset s).answer = none := rfl

/-! `setImdResult` -/

@[simp] theorem setImdResult_regs (bf : Bool) : (s.setImdResult bf).regs = { s.regs with status := { s.regs.status with imdValid := true, curBf := bf } } := rfl
@[simp] theorem setImdResult_mem (bf : Bool) : (s.setImdResult bf).mem = s.mem := rfl
@[simp] theorem setImdResult_cache (bf : Bool) : (s.setImdResult bf).cache = s.cache := rfl
@[simp] theorem setImdResult_draws (bf : Bool) : (s.setImdResult bf).draws = s.draws := rfl
@[simp] theorem setImdResult_cfg (bf : Bool) : (s.setImdResult bf).cfg = s.cfg := rfl
@[simp] theorem setImdResult_rst (bf : Bool) : (s.setImdResult bf).rst = s.rst := rfl
@[simp] theorem setImdResult_pending (bf : Bool) : (s.setImdResult bf).pending = s.pending := rfl
@[simp] theorem setImdResult_answer (bf : Bool) : (s.setImdResult bf).answer = s.answer := rfl

/-! `consumeImdResult` -/

@[simp] theorem consumeImdResult_regs : (s.consumeImdResult).regs = { s.regs with status := { s.regs.status with imdValid := false } } := rfl
@[simp] theorem consumeImdResult_mem : (s.consumeImdResult).mem = s.mem := rfl
@[simp] theorem consumeImdResult_cache : (s.consumeImdResult).cache = s.cache := rfl
@[simp] theorem consumeImdResult_draws : (s.consumeImdResult).draws = s.draws := rfl
@[simp] theorem consumeImdResult_cfg : (s.consumeImdResult).cfg = s.cfg := rfl
@[simp] theorem consumeImdResult_rst : (s.consumeImdResult).rst = s.rst := rfl
@[simp] theorem consumeImdResult_pending : (s.consumeImdResult).pending = s.pending := rfl
@[simp] theorem consumeImdResult_answer : (s.consumeImdResult).answer = s.answer := rfl

/-! `setLapping` -/

@[simp] theorem setLapping_regs (bf : Bool) : (s.setLapping bf).regs = { s.regs with status := { s.regs.status with prevValid := true, prevBf := bf } } := rfl
@[simp] theorem setLapping_mem (bf : Bool) : (s.setLapping bf).mem = s.mem := rfl
@[simp] theorem setLapping_cache (bf : Bool) : (s.setLapping bf).cache = s.cache := rfl
@[simp] theorem setLapping_draws (bf : Bool) : (s.setLapping bf).draws = s.draws := rfl
@[simp] theorem setLapping_cfg (bf : Bool) : (s.setLapping bf).cfg = s.cfg := rfl
@[simp] theorem setLapping_rst (bf : Bool) : (s.setLapping bf).rst = s.rst := rfl
@[simp] theorem setLapping_pending (bf : Bool) : (s.setLapping bf).pending = s.pending := rfl
@[simp] theorem setLapping_answer (bf : Bool) : (s.setLapping bf).answer = s.answer := rfl

/-! `clearLapping` -/

@[simp] theorem clearLapping_regs : (s.clearLapping).regs = { s.regs with status := { s.regs.status with prevValid := false, prevBf := false } } := rfl
@[simp] theorem clearLapping_mem : (s.clearLapping).mem = s.mem := rfl
@[simp] theorem clearLapping_cache : (s.clearLapping).cache = s.cache := rfl
@[simp] theorem clearLapping_draws : (s.clearLapping).draws = s.draws := rfl
@[simp] theorem clearLapping_cfg : (s.clearLapping).cfg = s.cfg := rfl
@[simp] theorem clearLapping_rst : (s.clearLapping).rst = s.rst := rfl
@[simp] theorem clearLapping_pending : (s.clearLapping).pending = s.pending := rfl
@[simp] theorem clearLapping_answer : (s.clearLapping).answer = s.answer := rfl

/-! `writePortReg` -/

@[simp] theorem writePortReg_mem (r : PortReg) (v : Word) : (s.writePortReg r v).mem = s.mem := by cases r <;> rfl
@[simp] theorem writePortReg_cache (r : PortReg) (v : Word) : (s.writePortReg r v).cache = s.cache := by cases r <;> rfl
@[simp] theorem writePortReg_draws (r : PortReg) (v : Word) : (s.writePortReg r v).draws = s.draws := by cases r <;> rfl
@[simp] theorem writePortReg_cfg (r : PortReg) (v : Word) : (s.writePortReg r v).cfg = s.cfg := by cases r <;> rfl
@[simp] theorem writePortReg_rst (r : PortReg) (v : Word) : (s.writePortReg r v).rst = s.rst := by cases r <;> rfl
@[simp] theorem writePortReg_pending (r : PortReg) (v : Word) : (s.writePortReg r v).pending = s.pending := by cases r <;> rfl
@[simp] theorem writePortReg_answer (r : PortReg) (v : Word) : (s.writePortReg r v).answer = s.answer := by cases r <;> rfl

/-! The state fields of what a rule comes to. -/

@[simp] theorem commit_done (i : Instr) (t : State) : commit i s (.done t) = t := rfl

@[simp] theorem commit_raised (i : Instr) (c : Cause) (info : Nat) :
    commit i s (.raised c info) = raise c info (encode i) s := rfl

@[simp] theorem settle_eq (i : Instr) (e : Effect) : settle i s e = .next (commit i s e) := rfl

/-! Operand registers. -/

@[simp] theorem reg_setReg_same (r : Reg) (v : Word) : (s.setReg r v).reg r = v := by
  simp [State.reg]

@[simp] theorem reg_setReg_other (r q : Reg) (v : Word) (h : q ≠ r) : (s.setReg r v).reg q = s.reg q := by
  have h' : r.val ≠ q.val := fun e => h (Fin.ext e.symm)
  simp [State.reg, h']

/-- The memory a state reads is its cells and its power-on number, nothing else. -/
theorem byteAt_congr {s t : State} (hm : t.mem = s.mem) (hp : t.draws.powerOn = s.draws.powerOn) (a : Nat) :
    t.byteAt a = s.byteAt a := by
  simp [State.byteAt, hm, hp]

theorem wordAt_congr {s t : State} (a : Nat) (h : ∀ k < 4, t.byteAt (a + k) = s.byteAt (a + k)) :
    t.wordAt a = s.wordAt a := by
  have h0 := h 0 (by omega)
  have h1 := h 1 (by omega)
  have h2 := h 2 (by omega)
  have h3 := h 3 (by omega)
  simp only [Nat.add_zero] at h0
  simp only [State.wordAt, h0, h1, h2, h3]

/-- The bit stream is BSMEM's bytes. -/
theorem bit_congr {s t : State} (h : ∀ k, t.bsByte k = s.bsByte k) (j : Nat) : t.bit j = s.bit j := by
  simp [State.bit, h]

end Sys2Proof.Machine
end

