-- ==== Sys2Proof/Laws/Bits.lean ====
section
/-! SUPPORT. The bit stream: sums of bits (41_huffman R110, R117, R120). -/

namespace Sys2Proof.Machine

/-- A function whose values are bits. -/
def IsBits (f : Nat → Nat) : Prop := ∀ j, f j < 2

theorem bit_lt (s : State) : IsBits s.bit := fun _ => Nat.mod_lt _ (by omega)

theorem bitz_lt (s : State) : IsBits s.bitz := by
  intro j
  unfold State.bitz
  split
  · exact bit_lt s j
  · omega

/-- `n` bits make a number below `2^n`. -/
theorem sumBits_lt {f : Nat → Nat} (hf : IsBits f) (p n : Nat) : sumBits f p n < 2 ^ n := by
  induction n generalizing p with
  | zero => simp [sumBits]
  | succ n ih =>
    have h1 := hf p
    have h2 := ih (p + 1)
    simp only [sumBits, Nat.pow_succ]
    omega

/-- Values compose: the bits of a longer read are those of a first read and, above them, of the next (R120). -/
theorem sumBits_append (f : Nat → Nat) (p k n : Nat) :
    sumBits f p (k + n) = sumBits f p k + 2 ^ k * sumBits f (p + k) n := by
  induction k generalizing p with
  | zero => simp [sumBits]
  | succ k ih =>
    have e : p + (k + 1) = p + 1 + k := by omega
    have e' : k + 1 + n = (k + n) + 1 := by omega
    rw [e', sumBits, ih (p + 1), sumBits, e, Nat.pow_succ]
    ring

/-- The low bits of a read are the shorter read. -/
theorem sumBits_mod {f : Nat → Nat} (hf : IsBits f) (p : Nat) {k n : Nat} (h : k ≤ n) :
    sumBits f p n % 2 ^ k = sumBits f p k := by
  obtain ⟨d, rfl⟩ := Nat.exists_eq_add_of_le h
  rw [sumBits_append, Nat.add_mul_mod_self_left, Nat.mod_eq_of_lt (sumBits_lt hf p k)]

/-- The high bits of a read are the later read. -/
theorem sumBits_div {f : Nat → Nat} (hf : IsBits f) (p k n : Nat) :
    sumBits f p (k + n) / 2 ^ k = sumBits f (p + k) n := by
  have h := sumBits_lt hf p k
  rw [sumBits_append, Nat.add_mul_div_left _ _ (Nat.two_pow_pos k), Nat.div_eq_of_lt h, Nat.zero_add]

/-- Two streams that agree on the bits read give the same number. -/
theorem sumBits_congr {f g : Nat → Nat} (p q n : Nat) (h : ∀ i < n, f (p + i) = g (q + i)) :
    sumBits f p n = sumBits g q n := by
  induction n generalizing p q with
  | zero => rfl
  | succ n ih =>
    have h0 := h 0 (by omega)
    have hn : ∀ i < n, f (p + 1 + i) = g (q + 1 + i) := fun i hi => by
      have := h (i + 1) (by omega)
      rwa [show p + (i + 1) = p + 1 + i by omega, show q + (i + 1) = q + 1 + i by omega] at this
    simp only [Nat.add_zero] at h0
    simp only [sumBits, h0, ih (p + 1) (q + 1) hn]

/-- Bit `i` of a read is the stream's bit. -/
theorem sumBits_bit {f : Nat → Nat} (hf : IsBits f) (p n i : Nat) (h : i < n) :
    sumBits f p n / 2 ^ i % 2 = f (p + i) := by
  obtain ⟨d, rfl⟩ := Nat.exists_eq_add_of_lt h
  rw [show i + d + 1 = i + (d + 1) by omega, sumBits_div hf, sumBits]
  have := hf (p + i)
  omega

/-- Inside the stream a peek is a take (R117). -/
theorem peek_eq_take (s : State) (p w : Nat) (h : p + w ≤ 8 * s.regs.bslen.toNat) : s.peek p w = s.take p w :=
  sumBits_congr p p w fun i hi => by simp [State.bitz, show p + i < 8 * s.regs.bslen.toNat by omega]

theorem take_lt (s : State) (p n : Nat) : s.take p n < 2 ^ n := sumBits_lt (bit_lt s) p n

theorem peek_lt (s : State) (p w : Nat) : s.peek p w < 2 ^ w := sumBits_lt (bitz_lt s) p w

/-- The stream depends on the bytes of BSMEM only. -/
theorem take_congr {s t : State} (h : ∀ k, t.bsByte k = s.bsByte k) (p n : Nat) : t.take p n = s.take p n :=
  sumBits_congr p p n fun i _ => bit_congr h (p + i)

end Sys2Proof.Machine
end

