-- ==== Sys2Proof/Laws/Cache.lean ====
section
/-! SUPPORT. The bit cache (10_state R28): each of its operations keeps it a window on the stream. -/

namespace Sys2Proof.Machine

variable {s : State} {p n k : Nat} {c : BitCache}

theorem emptyAt_holds (h : p ≤ 8 * s.regs.bslen.toNat) : s.CacheHolds p (BitCache.emptyAt p) := by
  refine ⟨by simp [BitCache.emptyAt], by simp only [BitCache.emptyAt]; omega, ?_, by simp [BitCache.emptyAt]⟩
  simp [BitCache.emptyAt, State.take, sumBits]

theorem drop_holds (h : s.CacheHolds p c) (hn : n ≤ c.cnt) (h0 : 0 < c.cnt) : s.CacheHolds (p + n) (c.drop n) := by
  obtain ⟨hcnt, hnxt, hbits, hpos⟩ := h
  have hp := hpos (by omega)
  refine ⟨by simp only [BitCache.drop]; omega, hnxt, ?_, fun _ => by simp only [BitCache.drop]; omega⟩
  have e : c.cnt = n + (c.cnt - n) := by omega
  simp only [BitCache.drop, BitVec.toNat_ushiftRight, Nat.shiftRight_eq_div_pow, hbits, State.take]
  rw [e, sumBits_div (bit_lt s), ← e]

theorem cacheFrom_holds (h : p ≤ 8 * s.regs.bslen.toNat) :
    s.CacheHolds p (s.cacheFrom p) ∧ p + (s.cacheFrom p).cnt = 8 * (s.cacheFrom p).nxt := by
  have hcnt : (s.cacheFrom p).cnt ≤ 7 := by simp only [State.cacheFrom]; omega
  have hpos : p + (s.cacheFrom p).cnt = 8 * (s.cacheFrom p).nxt := by simp only [State.cacheFrom]; omega
  refine ⟨⟨by omega, by simp only [State.cacheFrom]; omega, ?_, fun _ => hpos⟩, hpos⟩
  have hlt := take_lt s p (s.cacheFrom p).cnt
  have hle : 2 ^ (s.cacheFrom p).cnt ≤ 2 ^ 64 := Nat.pow_le_pow_right (by omega) (by omega)
  show (BitVec.ofNat 64 (s.take p (s.cacheFrom p).cnt)).toNat = _
  rw [BitVec.toNat_ofNat, Nat.mod_eq_of_lt (by omega)]

theorem refill_holds (h : s.CacheHolds p c) (hp : p + c.cnt = 8 * c.nxt) : s.CacheHolds p (s.refill c k) := by
  obtain ⟨hcnt, hnxt, hbits, -⟩ := h
  unfold State.refill
  generalize hk : min k (min ((64 - c.cnt) / 8) (s.regs.bslen.toNat - c.nxt)) = m
  have h1 : m ≤ (64 - c.cnt) / 8 := by omega
  have h2 : m ≤ s.regs.bslen.toNat - c.nxt := by omega
  have h3 : c.cnt + 8 * m ≤ 64 := by omega
  refine ⟨h3, by simp only; omega, ?_, fun _ => by simp only; omega⟩
  have hx := take_lt s (8 * c.nxt) (8 * m)
  have hb := take_lt s p c.cnt
  have hpow : 2 ^ (8 * m) * 2 ^ c.cnt ≤ 2 ^ 64 := by
    rw [← Nat.pow_add]
    exact Nat.pow_le_pow_right (by omega) (by omega)
  have hm : 2 ^ (8 * m) ≤ 2 ^ 64 := Nat.pow_le_pow_right (by omega) (by omega)
  have hshift : s.take (8 * c.nxt) (8 * m) * 2 ^ c.cnt < 2 ^ 64 :=
    Nat.lt_of_lt_of_le (Nat.mul_lt_mul_of_pos_right hx (Nat.two_pow_pos _)) hpow
  simp only [BitVec.toNat_or, BitVec.toNat_shiftLeft, BitVec.toNat_ofNat, Nat.shiftLeft_eq, hbits,
    Nat.mod_eq_of_lt (Nat.lt_of_lt_of_le hx hm), Nat.mod_eq_of_lt hshift]
  rw [Nat.or_comm, Nat.mul_comm, ← Nat.two_pow_add_eq_or_of_lt hb]
  simp only [State.take, sumBits_append, hp]
  ring

/-- After a command that reads `n` bits the cache holds the stream from the new position on. -/
theorem cacheAfterRead_holds (h : s.CacheInv) (hn : s.regs.bitpos.toNat + n ≤ 8 * s.regs.bslen.toNat) :
    s.CacheHolds (s.regs.bitpos.toNat + n) (s.cacheAfterRead n) := by
  unfold State.cacheAfterRead
  by_cases hc : 0 < s.cache.cnt ∧ n ≤ s.cache.cnt
  · have hpos := h.2.2.2 (by omega)
    simp only [if_pos hc]
    exact refill_holds (drop_holds h hc.2 hc.1) (by simp only [BitCache.drop]; omega)
  · simp only [if_neg hc]
    exact refill_holds (cacheFrom_holds hn).1 (cacheFrom_holds hn).2

/-- After a command that skips `n` bits the cache holds the stream from the new position on. -/
theorem cacheAfterSkip_holds (h : s.CacheInv) (hn : s.regs.bitpos.toNat + n ≤ 8 * s.regs.bslen.toNat) :
    s.CacheHolds (s.regs.bitpos.toNat + n) (s.cacheAfterSkip n) := by
  unfold State.cacheAfterSkip
  by_cases hc : n ≤ s.cache.cnt ∧ 0 < s.cache.cnt
  · rw [if_pos hc]
    exact drop_holds h hc.1 hc.2
  · rw [if_neg hc]
    exact emptyAt_holds hn

/-- What the cache holds depends on BSLEN and the bytes of BSMEM only. -/
theorem cacheHolds_congr {s t : State} (hl : t.regs.bslen = s.regs.bslen) (hb : ∀ k, t.bsByte k = s.bsByte k)
    (h : s.CacheHolds p c) : t.CacheHolds p c := by
  simpa only [State.CacheHolds, hl, take_congr hb] using h

end Sys2Proof.Machine
end

