-- ==== Sys2Proof/Laws/Codebook.lean ====
section
/-! SUPPORT. The bits of a codeword, and what the placed builder answers. -/

namespace Sys2Proof.Machine

@[simp] theorem lowBits_length (v n : Nat) : (lowBits v n).length = n := by simp [lowBits]

@[simp] theorem codewordBits_length (code len : Nat) : (codewordBits code len).length = len := by simp [codewordBits]

/-- A table is placed exactly when it ends inside CBMEM, and unchanged (R149). -/
theorem placeAt_eq_ok {n base : Nat} {t u : Table} : placeAt n base t = .ok u ↔ t = u ∧ base + t.length ≤ n := by
  unfold placeAt
  split <;> simp [*]

/-- The placed builder answers the builder's table, where it fits (R148, R149). -/
theorem buildTableAt_eq_ok {n base b : Nat} {sparse : Bool} {entries : List CodeEntry} {t : Table} :
    buildTableAt n base sparse b entries = .ok t ↔ buildTable sparse b entries = .ok t ∧ base + t.length ≤ n := by
  unfold buildTableAt
  cases h : buildTable sparse b entries with
  | error f => simp [Except.bind]
  | ok u =>
    simp only [Except.bind, placeAt_eq_ok, Except.ok.injEq]
    exact ⟨fun ⟨e, h⟩ => ⟨e, e ▸ h⟩, fun ⟨e, h⟩ => ⟨e, e ▸ h⟩⟩

end Sys2Proof.Machine
end

