-- ==== Sys2Proof/Laws/Decode.lean ====
section
/-! SUPPORT. The fields of the words the encoder makes (30_encoding R80), and the words the decoder's fields come from. -/

namespace Sys2Proof

theorem toNat_wordOf {v : Nat} (h : v < 2 ^ 32) : (wordOf v).toNat = v := by
  simp only [wordOf, BitVec.toNat_ofNat]
  exact Nat.mod_eq_of_lt h

/-! ### Format I -/

section
variable (rd rs rt : Reg) {op imm : Nat} (hop : op < 256) (himm : imm < 65536)
include hop himm

theorem toNat_formatI : (formatI op rd rs imm).toNat = op * 2 ^ 24 + rd.val * 2 ^ 20 + rs.val * 2 ^ 16 + imm := by
  have := rd.isLt
  have := rs.isLt
  exact toNat_wordOf (by omega)

theorem opcodeOf_formatI : opcodeOf (formatI op rd rs imm) = op := by
  have := rd.isLt
  have := rs.isLt
  simp only [opcodeOf, bits, toNat_formatI rd rs hop himm]
  omega

theorem bits_rd_formatI : bits (formatI op rd rs imm) 20 4 = rd.val := by
  have := rd.isLt
  have := rs.isLt
  simp only [bits, toNat_formatI rd rs hop himm]
  omega

theorem bits_rs_formatI : bits (formatI op rd rs imm) 16 4 = rs.val := by
  have := rd.isLt
  have := rs.isLt
  simp only [bits, toNat_formatI rd rs hop himm]
  omega

theorem bits_low_formatI {lo n : Nat} (h : lo + n ≤ 16) : bits (formatI op rd rs imm) lo n = imm / 2 ^ lo % 2 ^ n := by
  have hd : 2 ^ 16 = 2 ^ lo * 2 ^ (16 - lo) := by rw [← Nat.pow_add]; congr 1; omega
  have hm : 2 ^ (16 - lo) = 2 ^ n * 2 ^ (16 - lo - n) := by rw [← Nat.pow_add]; congr 1; omega
  have e : op * 2 ^ 24 + rd.val * 2 ^ 20 + rs.val * 2 ^ 16 + imm =
      imm + 2 ^ lo * (2 ^ (16 - lo) * (op * 2 ^ 8 + rd.val * 2 ^ 4 + rs.val)) := by
    rw [← Nat.mul_assoc, ← hd]
    ring
  rw [bits, toNat_formatI rd rs hop himm, e, Nat.add_mul_div_left _ _ (Nat.two_pow_pos lo), hm, Nat.mul_assoc,
    Nat.add_mul_mod_self_left]

end

/-! ### Format R and format N are format I with a special low half -/

theorem formatR_eq (op : Nat) (rd rs rt : Reg) : formatR op rd rs rt = formatI op rd rs (rt.val * 2 ^ 12) := rfl

theorem formatN_eq (op : Nat) : formatN op = formatI op 0 0 0 := by
  simp [formatN, formatI]

/-! ### The fields as operands -/

theorem rdOf_eq {w : Word} {r : Reg} (h : bits w 20 4 = r.val) : rdOf w = r := by
  have := r.isLt
  ext
  simp only [rdOf, h, Fin.ofNat]
  omega

theorem rsOf_eq {w : Word} {r : Reg} (h : bits w 16 4 = r.val) : rsOf w = r := by
  have := r.isLt
  ext
  simp only [rsOf, h, Fin.ofNat]
  omega

theorem rtOf_eq {w : Word} {r : Reg} (h : bits w 12 4 = r.val) : rtOf w = r := by
  have := r.isLt
  ext
  simp only [rtOf, h, Fin.ofNat]
  omega

theorem immOf_eq {w : Word} {i : BitVec 16} (h : bits w 0 16 = i.toNat) : immOf w = i := by
  simp [immOf, h]

theorem widthOf_eq {w : Word} {n : BitVec 6} (h : bits w 0 6 = n.toNat) : widthOf w = n := by
  simp [widthOf, h]

theorem flagOf_eq {w : Word} {b : Bool} (h : bits w 0 1 = b.toNat) : flagOf w = b := by
  cases b <;> simp [flagOf, h]

/-- What the decoder says of a word, read off its candidate and the two checks. -/
theorem decode_of_candidate {w : Word} {i : Instr} (hc : candidate (opcodeOf w) w = some i) (hu : unusedZero i w = true)
    (hw : i.wf = true) : decode w = .command i := by
  simp [decode, hc, hu, hw]

/-- A word the decoder accepts has its command as its candidate, its unused fields zero, and the command well formed. -/
theorem decode_command_inv {w : Word} {i : Instr} (h : decode w = .command i) :
    candidate (opcodeOf w) w = some i ∧ unusedZero i w = true ∧ i.wf = true := by
  unfold decode at h
  split at h
  · cases h
  · rename_i j hj
    split at h
    · rename_i hu
      split at h
      · rename_i hw
        cases h
        exact ⟨hj, hu, hw⟩
      · cases h
    · cases h

end Sys2Proof
end

