-- ==== Sys2Proof/Laws/Memory.lean ====
section
/-! SUPPORT. Memory: what a read sees after a store, that every store keeps the canonical form, and the bytes of words. -/

namespace Sys2Proof.Machine

/-! ### Reads of cell lists -/

theorem get?_append (m n : Memory) (a : Nat) :
    Memory.get? (m ++ n) a = (Memory.get? m a).or (Memory.get? n a) := by
  induction m with
  | nil => simp [Memory.get?]
  | cons c m ih => by_cases h : c.1 = a <;> simp [Memory.get?, h, ih]

theorem get?_filter (p : Nat → Bool) (m : Memory) (a : Nat) :
    Memory.get? (m.filter (fun c => p c.1)) a = if p a then Memory.get? m a else none := by
  induction m with
  | nil => simp [Memory.get?]
  | cons c m ih =>
    by_cases hp : p c.1 <;> by_cases h : c.1 = a <;> simp_all [Memory.get?]

theorem get?_run (bs : List Byte) (a x : Nat) :
    Memory.get? (Memory.run a bs) x = if a ≤ x then bs[x - a]? else none := by
  induction bs generalizing a with
  | nil => simp [Memory.run, Memory.get?]
  | cons b bs ih =>
    by_cases h : a = x
    · simp [Memory.run, Memory.get?, h]
    · by_cases hle : a ≤ x
      · have e : x - a = x - (a + 1) + 1 := by omega
        have hle' : a + 1 ≤ x := by omega
        simp [Memory.run, Memory.get?, h, ih, hle, hle', e]
      · have hle' : ¬ a + 1 ≤ x := by omega
        simp [Memory.run, Memory.get?, h, ih, hle, hle']

/-- A store is seen at the addresses it writes, and nowhere else. -/
theorem get?_store (m : Memory) (a x : Nat) (bs : List Byte) :
    Memory.get? (Memory.store m a bs) x =
      if a ≤ x ∧ x < a + bs.length then bs[x - a]? else Memory.get? m x := by
  have lo := get?_filter (fun y => decide (y < a)) m x
  have hi := get?_filter (fun y => decide (a + bs.length ≤ y)) m x
  simp only [Memory.store, get?_append, get?_run, lo, hi]
  by_cases h1 : x < a
  · have n1 : ¬ a ≤ x := by omega
    have n2 : ¬ a + bs.length ≤ x := by omega
    simp [h1, n1, n2]
  · have h2 : a ≤ x := by omega
    by_cases h3 : x < a + bs.length
    · have n2 : ¬ a + bs.length ≤ x := by omega
      simp [h1, h2, h3, n2]
    · have n2 : a + bs.length ≤ x := by omega
      have out : bs[x - a]? = none := by simp; omega
      simp [h1, h2, h3, n2, out]

/-! ### The canonical form -/

theorem mem_run {bs : List Byte} {a : Nat} {c : Host.Cell} (h : c ∈ Memory.run a bs) :
    a ≤ c.1 ∧ c.1 < a + bs.length := by
  induction bs generalizing a with
  | nil => simp [Memory.run] at h
  | cons b bs ih =>
    rcases List.mem_cons.1 h with rfl | h
    · simp
    · have := ih h
      simp only [List.length_cons]
      omega

theorem wf_run (bs : List Byte) (a : Nat) : Memory.wf (Memory.run a bs) := by
  induction bs generalizing a with
  | nil => simp [Memory.run, Memory.wf]
  | cons b bs ih =>
    refine List.pairwise_cons.2 ⟨fun c h => ?_, ih (a + 1)⟩
    have := mem_run h
    simp only
    omega

/-- Every memory operation of the model is a store, and a store keeps the canonical form. -/
theorem wf_store {m : Memory} (h : Memory.wf m) (a : Nat) (bs : List Byte) : Memory.wf (Memory.store m a bs) := by
  refine List.pairwise_append.2 ⟨h.filter _, List.pairwise_append.2 ⟨wf_run bs a, h.filter _, ?_⟩, ?_⟩
  · intro c hc d hd
    have := mem_run hc
    have := (List.mem_filter.1 hd).2
    simp only [decide_eq_true_eq] at this
    omega
  · intro c hc d hd
    have hc' := (List.mem_filter.1 hc).2
    simp only [decide_eq_true_eq] at hc'
    rcases List.mem_append.1 hd with hd | hd
    · have := mem_run hd
      omega
    · have := (List.mem_filter.1 hd).2
      simp only [decide_eq_true_eq] at this
      omega

theorem wf_empty : Memory.wf [] := List.Pairwise.nil

/-- The addresses a store leaves listed. -/
theorem mem_store {m : Memory} {a : Nat} {bs : List Byte} {c : Host.Cell} (h : c ∈ Memory.store m a bs) :
    c ∈ m ∨ (a ≤ c.1 ∧ c.1 < a + bs.length) := by
  rcases List.mem_append.1 h with h | h
  · exact .inl (List.mem_filter.1 h).1
  · rcases List.mem_append.1 h with h | h
    · exact .inr (mem_run h)
    · exact .inl (List.mem_filter.1 h).1

/-! ### Words and their bytes (R51) -/

theorem bytesOf_length (w : Word) : (bytesOf w).length = 4 := rfl

theorem flatMap_bytesOf_length (ws : List Word) : (ws.flatMap bytesOf).length = 4 * ws.length := by
  induction ws with
  | nil => rfl
  | cons w ws ih => simp only [List.flatMap_cons, List.length_append, ih, bytesOf_length, List.length_cons]; omega

theorem flatMap_bytesOf_getElem (ws : List Word) (i k : Nat) (hi : i < ws.length) (hk : k < 4) :
    (ws.flatMap bytesOf)[4 * i + k]? = (bytesOf ws[i])[k]? := by
  induction ws generalizing i with
  | nil => simp at hi
  | cons w ws ih =>
    cases i with
    | zero =>
      simp only [List.flatMap_cons, List.getElem_cons_zero]
      rw [List.getElem?_append_left (by rw [bytesOf_length]; omega)]
      congr 1
      omega
    | succ i =>
      simp only [List.flatMap_cons, List.getElem_cons_succ]
      rw [List.getElem?_append_right (by rw [bytesOf_length]; omega), bytesOf_length]
      rw [← ih i (by simpa using hi)]
      congr 1
      omega

theorem wordOfBytes_bytesOf (w : Word) :
    wordOfBytes (w.extractLsb' 0 8) (w.extractLsb' 8 8) (w.extractLsb' 16 8) (w.extractLsb' 24 8) = w := by
  apply BitVec.eq_of_getLsbD_eq
  intro i hi
  simp only [wordOfBytes, BitVec.getLsbD_append, BitVec.getLsbD_extractLsb']
  rcases (by omega : i < 8 ∨ (8 ≤ i ∧ i < 16) ∨ (16 ≤ i ∧ i < 24) ∨ 24 ≤ i) with h | h | h | h
  · simp [h, show i < 32 by omega]
  · simp [show ¬ i < 8 by omega, show i - 8 < 8 by omega, show 8 + (i - 8) = i by omega]
  · simp [show ¬ i < 8 by omega, show ¬ i - 8 < 8 by omega, show i - 8 - 8 < 8 by omega,
      show 16 + (i - 8 - 8) = i by omega]
  · simp [show ¬ i < 8 by omega, show ¬ i - 8 < 8 by omega, show ¬ i - 8 - 8 < 8 by omega,
      show i - 8 - 8 - 8 < 8 by omega, show 24 + (i - 8 - 8 - 8) = i by omega]

/-! ### Reads of a state after a store -/

variable (s : State) (a : Nat) (ws : List Word)

/-- Every address outside the stored words reads as before. -/
theorem byteAt_storeWords_outside (x : Nat) (h : x < a ∨ a + 4 * ws.length ≤ x) :
    (s.storeWords a ws).byteAt x = s.byteAt x := by
  have out : ¬ (a ≤ x ∧ x < a + (ws.flatMap bytesOf).length) := by
    rw [flatMap_bytesOf_length]
    omega
  simp only [State.byteAt, storeWords_mem, storeWords_draws, get?_store, if_neg out]

theorem byteAt_storeWords_inside (i k : Nat) (hi : i < ws.length) (hk : k < 4) :
    (s.storeWords a ws).byteAt (a + (4 * i + k)) = (bytesOf ws[i]).getD k 0 := by
  have into : a ≤ a + (4 * i + k) ∧ a + (4 * i + k) < a + (ws.flatMap bytesOf).length := by
    rw [flatMap_bytesOf_length]
    omega
  have e : a + (4 * i + k) - a = 4 * i + k := by omega
  have hb : (bytesOf ws[i])[k]? = some ((bytesOf ws[i]).getD k 0) := by
    rw [List.getD_eq_getElem?_getD, List.getElem?_eq_getElem (by rw [bytesOf_length]; exact hk)]
    rfl
  simp only [State.byteAt, storeWords_mem, storeWords_draws, get?_store, if_pos into, e,
    flatMap_bytesOf_getElem ws i k hi hk, hb, Option.getD_some]

/-- A stored word reads back (R54, R58). -/
theorem wordAt_storeWords_inside (i : Nat) (hi : i < ws.length) :
    (s.storeWords a ws).wordAt (a + 4 * i) = ws[i] := by
  have h0 := byteAt_storeWords_inside s a ws i 0 hi (by omega)
  have h1 := byteAt_storeWords_inside s a ws i 1 hi (by omega)
  have h2 := byteAt_storeWords_inside s a ws i 2 hi (by omega)
  have h3 := byteAt_storeWords_inside s a ws i 3 hi (by omega)
  simp only [Nat.add_zero, ← Nat.add_assoc] at h0 h1 h2 h3
  simp only [State.wordAt, h0, h1, h2, h3]
  exact wordOfBytes_bytesOf ws[i]

/-- A word outside the stored ones reads as before. -/
theorem wordAt_storeWords_outside (x : Nat) (h : x + 4 ≤ a ∨ a + 4 * ws.length ≤ x) :
    (s.storeWords a ws).wordAt x = s.wordAt x :=
  wordAt_congr x fun k hk => byteAt_storeWords_outside s a ws (x + k) (by omega)

end Sys2Proof.Machine
end

