-- ==== Sys2Proof/Laws/Ops.lean ====
section
/-! SUPPORT. The shared operations: what entering an error, committing an effect and each update leave unchanged. -/

namespace Sys2Proof.Machine

variable (s : State)

theorem samePort_refl : SamePort s s := ⟨rfl, rfl, rfl, rfl⟩

theorem sameHidden_refl : SameHidden s s := ⟨rfl, rfl⟩

/-- A state that differs in registers only. -/
theorem onlyRegisters_regs (r : Regs) : OnlyRegisters s { s with regs := r } :=
  ⟨fun _ => rfl, ⟨rfl, rfl⟩, rfl, rfl, rfl, rfl⟩

/-- Entering an error changes the error registers and `ERR`, and nothing else (R256). -/
theorem raise_entered (c : Cause) (info : Nat) (w : Word) : ErrorEntered s (raise c info w s) c (wordOf info) w :=
  ⟨rfl, onlyRegisters_regs s _⟩

/-- A register written by `setReg`. -/
theorem setReg_frame (r : Reg) (v : Word) :
    (s.setReg r v).reg r = v ∧ OtherRegsSame r s (s.setReg r v) ∧ OnlyRegisters s (s.setReg r v) :=
  ⟨reg_setReg_same s r v, fun q h => reg_setReg_other s r q v h, onlyRegisters_regs s _⟩

/-- What a commit comes to: the effect's own state, or an error entered with the command's word. -/
theorem commit_cases (i : Instr) (e : Effect) :
    (∃ t, e = .done t ∧ commit i s e = t) ∨
    (∃ c info, e = .raised c info ∧ ErrorEntered s (commit i s e) c (wordOf info) (encode i)) := by
  cases e with
  | done t => exact .inl ⟨t, rfl, rfl⟩
  | raised c info => exact .inr ⟨c, info, rfl, raise_entered s c info _⟩

/-- A consumed read changes the position, the cache and the refill counter only. -/
theorem consume_frame (n : Nat) : OnlyReader s (s.consume n) :=
  ⟨fun _ => rfl, ⟨rfl, rfl, rfl, rfl⟩, rfl⟩

/-- Words stored at `a` change no byte outside them. -/
theorem storeWords_frame (a : Nat) (ws : List Word) : SameMemoryOutside a (4 * ws.length) s (s.storeWords a ws) :=
  fun x h => byteAt_storeWords_outside s a ws x h

theorem wordOf_toNat (w : Word) : wordOf w.toNat = w := by simp [wordOf]

end Sys2Proof.Machine
end

