-- ==== Sys2Proof/Laws/PerInstr.lean ====
section
/-! SUPPORT. Statements made per command: every command's word matches its row of 30_encoding R83. -/

namespace Sys2Proof

/-- The word of format I, field by field. -/
theorem formatI_append (rd rs : Reg) {op imm : Nat} (hop : op < 256) (himm : imm < 65536) :
    formatI op rd rs imm =
      (BitVec.ofNat 8 op ++ BitVec.ofNat 4 rd.val ++ BitVec.ofNat 4 rs.val ++ BitVec.ofNat 16 imm : BitVec 32) := by
  have h1 := rd.isLt
  have h2 := rs.isLt
  apply BitVec.eq_of_toNat_eq
  rw [toNat_formatI rd rs hop himm]
  simp only [BitVec.toNat_append, BitVec.toNat_ofNat]
  rw [Nat.mod_eq_of_lt (show op < 2 ^ 8 by omega), Nat.mod_eq_of_lt (show rd.val < 2 ^ 4 by omega),
    Nat.mod_eq_of_lt (show rs.val < 2 ^ 4 by omega), Nat.mod_eq_of_lt (show imm < 2 ^ 16 by omega),
    ← Nat.shiftLeft_add_eq_or_of_lt (by omega : rd.val < 2 ^ 4),
    ← Nat.shiftLeft_add_eq_or_of_lt (by omega : rs.val < 2 ^ 4),
    ← Nat.shiftLeft_add_eq_or_of_lt (by omega : imm < 2 ^ 16)]
  simp only [Nat.shiftLeft_eq]
  omega

/-- A mask acts field by field. -/
theorem and_formatI (rd rs : Reg) {op imm : Nat} (hop : op < 256) (himm : imm < 65536)
    (mo : BitVec 8) (md ms : BitVec 4) (mi : BitVec 16) :
    formatI op rd rs imm &&& (mo ++ md ++ ms ++ mi : BitVec 32) =
      ((BitVec.ofNat 8 op &&& mo) ++ (BitVec.ofNat 4 rd.val &&& md) ++ (BitVec.ofNat 4 rs.val &&& ms) ++
        (BitVec.ofNat 16 imm &&& mi) : BitVec 32) := by
  rw [formatI_append rd rs hop himm, BitVec.and_append, BitVec.and_append, BitVec.and_append]

/-- A word of format I under a mask, from the four fields under their masks. -/
theorem formatI_matches (rd rs : Reg) {op imm : Nat} (hop : op < 256) (himm : imm < 65536)
    {mo vo : BitVec 8} {md ms vd vs : BitVec 4} {mi vi : BitVec 16}
    (ho : BitVec.ofNat 8 op &&& mo = vo) (hd : BitVec.ofNat 4 rd.val &&& md = vd)
    (hs : BitVec.ofNat 4 rs.val &&& ms = vs) (hi : BitVec.ofNat 16 imm &&& mi = vi) :
    formatI op rd rs imm &&& (mo ++ md ++ ms ++ mi : BitVec 32) = (vo ++ vd ++ vs ++ vi : BitVec 32) := by
  rw [and_formatI rd rs hop himm, ho, hd, hs, hi]

theorem reg_and_zero (r : Reg) : BitVec.ofNat 4 r.val &&& 0#4 = 0#4 := by simp

theorem imm_and_zero (n : Nat) : BitVec.ofNat 16 n &&& 0#16 = 0#16 := by simp

theorem width_and_high (n : BitVec 6) : BitVec.ofNat 16 n.toNat &&& 0xFFC0#16 = 0#16 := by
  have key : ∀ m : BitVec 6, BitVec.ofNat 16 m.toNat &&& 0xFFC0#16 = 0#16 := by decide
  exact key n

theorem rt_and_low (r : Reg) : BitVec.ofNat 16 (r.val * 2 ^ 12) &&& 0x0FFF#16 = 0#16 := by
  have key : ∀ q : Reg, BitVec.ofNat 16 (q.val * 2 ^ 12) &&& 0x0FFF#16 = 0#16 := by decide
  exact key r

theorem flag_and_high (b : Bool) : BitVec.ofNat 16 b.toNat &&& 0xFFFE#16 = 0#16 := by cases b <;> decide

namespace Laws.MatchesRow

/-- The command's word, under the mask of the command's row in R83, is the row's match. -/
def Statement (i : Instr) : Prop :=
  ∃ row ∈ opcodeRows, row.mnemonic = i.mnemonic ∧ encode i &&& row.mask = row.matchBits

theorem nop : Statement .nop :=
  ⟨⟨"NOP", 0x00000000, 0xFFFFFFFF⟩, by simp [opcodeRows], rfl,
    rfl⟩

theorem li (rd : Reg) (imm : BitVec 16) : Statement (.li rd imm) :=
  ⟨⟨"LI", 0x01000000, 0xFF0F0000⟩, by simp [opcodeRows], rfl,
    formatI_matches (op := 0x01) rd 0 (by omega) imm.isLt (mo := 0xFF) (md := 0x0) (ms := 0xF) (mi := 0x0000)
      (vo := 0x01) (vd := 0) (vs := 0) (vi := 0) rfl (reg_and_zero rd) rfl (imm_and_zero _)⟩

theorem lih (rd : Reg) (imm : BitVec 16) : Statement (.lih rd imm) :=
  ⟨⟨"LIH", 0x02000000, 0xFF0F0000⟩, by simp [opcodeRows], rfl,
    formatI_matches (op := 0x02) rd 0 (by omega) imm.isLt (mo := 0xFF) (md := 0x0) (ms := 0xF) (mi := 0x0000)
      (vo := 0x02) (vd := 0) (vs := 0) (vi := 0) rfl (reg_and_zero rd) rfl (imm_and_zero _)⟩

theorem errclr : Statement .errclr :=
  ⟨⟨"ERRCLR", 0x03000000, 0xFFFFFFFF⟩, by simp [opcodeRows], rfl,
    rfl⟩

theorem sreset : Statement .sreset :=
  ⟨⟨"SRESET", 0x04000000, 0xFFFFFFFF⟩, by simp [opcodeRows], rfl,
    rfl⟩

theorem bsinit (rs : Reg) : Statement (.bsinit rs) :=
  ⟨⟨"BSINIT", 0x10000000, 0xFFF0FFFF⟩, by simp [opcodeRows], rfl,
    formatI_matches (op := 0x10) 0 rs (by omega) (by omega) (mo := 0xFF) (md := 0xF) (ms := 0x0) (mi := 0xFFFF)
      (vo := 0x10) (vd := 0) (vs := 0) (vi := 0) rfl rfl (reg_and_zero rs) rfl⟩

theorem rdbool (rd : Reg) : Statement (.rdbool rd) :=
  ⟨⟨"RDBOOL", 0x11000000, 0xFF0FFFFF⟩, by simp [opcodeRows], rfl,
    formatI_matches (op := 0x11) rd 0 (by omega) (by omega) (mo := 0xFF) (md := 0x0) (ms := 0xF) (mi := 0xFFFF)
      (vo := 0x11) (vd := 0) (vs := 0) (vi := 0) rfl (reg_and_zero rd) rfl rfl⟩

theorem rdbits (rd : Reg) (n : BitVec 6) : Statement (.rdbits rd n) :=
  ⟨⟨"RDBITS", 0x12000000, 0xFF0FFFC0⟩, by simp [opcodeRows], rfl,
    formatI_matches (op := 0x12) rd 0 (by omega) (by have := n.isLt; omega) (mo := 0xFF) (md := 0x0) (ms := 0xF) (mi := 0xFFC0)
      (vo := 0x12) (vd := 0) (vs := 0) (vi := 0) rfl (reg_and_zero rd) rfl (width_and_high n)⟩

theorem skipi (imm : BitVec 16) : Statement (.skipi imm) :=
  ⟨⟨"SKIPI", 0x13000000, 0xFFFF0000⟩, by simp [opcodeRows], rfl,
    formatI_matches (op := 0x13) 0 0 (by omega) imm.isLt (mo := 0xFF) (md := 0xF) (ms := 0xF) (mi := 0x0000)
      (vo := 0x13) (vd := 0) (vs := 0) (vi := 0) rfl rfl rfl (imm_and_zero _)⟩

theorem skip (rs : Reg) : Statement (.skip rs) :=
  ⟨⟨"SKIP", 0x14000000, 0xFFF0FFFF⟩, by simp [opcodeRows], rfl,
    formatI_matches (op := 0x14) 0 rs (by omega) (by omega) (mo := 0xFF) (md := 0xF) (ms := 0x0) (mi := 0xFFFF)
      (vo := 0x14) (vd := 0) (vs := 0) (vi := 0) rfl rfl (reg_and_zero rs) rfl⟩

theorem rdcb (rd rs : Reg) : Statement (.rdcb rd rs) :=
  ⟨⟨"RDCB", 0x15000000, 0xFF00FFFF⟩, by simp [opcodeRows], rfl,
    formatI_matches (op := 0x15) rd rs (by omega) (by omega) (mo := 0xFF) (md := 0x0) (ms := 0x0) (mi := 0xFFFF)
      (vo := 0x15) (vd := 0) (vs := 0) (vi := 0) rfl (reg_and_zero rd) (reg_and_zero rs) rfl⟩

theorem crcrst : Statement .crcrst :=
  ⟨⟨"CRCRST", 0x20000000, 0xFFFFFFFF⟩, by simp [opcodeRows], rfl,
    rfl⟩

theorem crcfeed (rs rt : Reg) : Statement (.crcfeed rs rt) :=
  ⟨⟨"CRCFEED", 0x21000000, 0xFFF00FFF⟩, by simp [opcodeRows], rfl,
    formatI_matches (op := 0x21) 0 rs (by omega) (by have := rt.isLt; omega) (mo := 0xFF) (md := 0xF) (ms := 0x0) (mi := 0x0FFF)
      (vo := 0x21) (vd := 0) (vs := 0) (vi := 0) rfl rfl (reg_and_zero rs) (rt_and_low rt)⟩

theorem crccmp (rs : Reg) : Statement (.crccmp rs) :=
  ⟨⟨"CRCCMP", 0x22000000, 0xFFF0FFFF⟩, by simp [opcodeRows], rfl,
    formatI_matches (op := 0x22) 0 rs (by omega) (by omega) (mo := 0xFF) (md := 0xF) (ms := 0x0) (mi := 0xFFFF)
      (vo := 0x22) (vd := 0) (vs := 0) (vi := 0) rfl rfl (reg_and_zero rs) rfl⟩

theorem crcpage (rd : Reg) : Statement (.crcpage rd) :=
  ⟨⟨"CRCPAGE", 0x23000000, 0xFF0FFFFF⟩, by simp [opcodeRows], rfl,
    formatI_matches (op := 0x23) rd 0 (by omega) (by omega) (mo := 0xFF) (md := 0x0) (ms := 0xF) (mi := 0xFFFF)
      (vo := 0x23) (vd := 0) (vs := 0) (vi := 0) rfl (reg_and_zero rd) rfl rfl⟩

theorem imdct (bf : Bool) : Statement (.imdct bf) :=
  ⟨⟨"IMDCT", 0x30000000, 0xFFFFFFFE⟩, by simp [opcodeRows], rfl,
    formatI_matches (op := 0x30) 0 0 (by omega) (by cases bf <;> decide) (mo := 0xFF) (md := 0xF) (ms := 0xF) (mi := 0xFFFE)
      (vo := 0x30) (vd := 0) (vs := 0) (vi := 0) rfl rfl rfl (flag_and_high bf)⟩

theorem ola (rs rt : Reg) : Statement (.ola rs rt) :=
  ⟨⟨"OLA", 0x31000000, 0xFFF00FFF⟩, by simp [opcodeRows], rfl,
    formatI_matches (op := 0x31) 0 rs (by omega) (by have := rt.isLt; omega) (mo := 0xFF) (md := 0xF) (ms := 0x0) (mi := 0x0FFF)
      (vo := 0x31) (vd := 0) (vs := 0) (vi := 0) rfl rfl (reg_and_zero rs) (rt_and_low rt)⟩

theorem lapupd (bf : Bool) : Statement (.lapupd bf) :=
  ⟨⟨"LAPUPD", 0x32000000, 0xFFFFFFFE⟩, by simp [opcodeRows], rfl,
    formatI_matches (op := 0x32) 0 0 (by omega) (by cases bf <;> decide) (mo := 0xFF) (md := 0xF) (ms := 0xF) (mi := 0xFFFE)
      (vo := 0x32) (vd := 0) (vs := 0) (vi := 0) rfl rfl rfl (flag_and_high bf)⟩

theorem laprst : Statement .laprst :=
  ⟨⟨"LAPRST", 0x33000000, 0xFFFFFFFF⟩, by simp [opcodeRows], rfl,
    rfl⟩

end Laws.MatchesRow

end Sys2Proof
end

