-- ==== Sys2Proof/Laws/Step.lean ====
section
/-! SUPPORT. What one step can do: an inversion lemma for the step, one for a host write, one for a command. -/

namespace Sys2Proof.Machine

/-- What a step can do: hold in reset, wait, or serve the oldest host action. -/
theorem step_cases {s t : State} (h : step s = .next t) :
    (s.rst = true ∧ t = heldInReset s) ∨
    (s.rst = false ∧ s.pending = [] ∧ t = s) ∨
    (s.rst = false ∧ ∃ a rest, s.pending = a :: rest ∧ serve a { s with pending := rest } = .next t) := by
  unfold step stepPort at h
  cases hr : s.rst with
  | true =>
    simp only [hr, if_true, Host.Outcome.next.injEq] at h
    exact .inl ⟨rfl, h.symm⟩
  | false =>
    simp only [hr, Bool.false_eq_true, if_false] at h
    cases hp : s.pending with
    | nil =>
      simp only [hp, Host.Outcome.next.injEq] at h
      exact .inr (.inl ⟨rfl, rfl, h.symm⟩)
    | cons a rest =>
      simp only [hp] at h
      exact .inr (.inr ⟨rfl, a, rest, rfl, h⟩)

/-- A step serves the oldest action. -/
theorem step_serves {s : State} {a : HostAction} {rest : List HostAction} (hr : s.rst = false)
    (hp : s.pending = a :: rest) : step s = serve a { s with pending := rest } := by
  simp [step, stepPort, hr, hp]

/-- While `rst` is asserted a step releases the block, or takes an edge off the pending ones, or does nothing. -/
theorem heldInReset_cases (s : State) :
    (∃ rest, heldInReset s = hardReset { s with pending := rest }) ∨
    (∃ rest, heldInReset s = { s with pending := rest }) := by
  unfold heldInReset
  split
  · exact .inl ⟨_, rfl⟩
  · exact .inr ⟨_, rfl⟩
  · exact .inr ⟨s.pending, rfl⟩

/-- What a command step can do (R105): drop, raise `IllegalCommand`, or run the command the word decodes to. -/
theorem runCommand_cases {w : Word} {s t : State} (h : runCommand w s = .next t) :
    (s.regs.status.err = true ∧ acceptedInError w = false ∧ t = dropCommand s) ∨
    ((s.regs.status.err = false ∨ acceptedInError w = true) ∧
      ((∃ why, decode w = .illegal why ∧ t = raise .illegalCommand 0 w s) ∨
       (∃ i, decode w = .command i ∧ exec i s = .next t))) := by
  unfold runCommand at h
  split at h
  · rename_i hg
    simp only [Bool.and_eq_true, Bool.not_eq_true'] at hg
    cases h
    exact .inl ⟨hg.1, hg.2, rfl⟩
  · rename_i hg
    have hgate : s.regs.status.err = false ∨ acceptedInError w = true := by
      cases he : s.regs.status.err <;> cases ha : acceptedInError w <;> simp_all
    refine .inr ⟨hgate, ?_⟩
    split at h
    · rename_i why hd
      cases h
      exact .inl ⟨why, hd, rfl⟩
    · rename_i i hd
      exact .inr ⟨i, hd, h⟩

/-- What a host write can do: answer ERR, run a command, write a register, or write a word of a memory. -/
theorem hostWrite_cases {width : Width} {addr : Addr} {v : Word} {s t : State} (h : hostWrite width addr v s = .next t) :
    (legalTarget s.cfg width addr = .unmapped ∧ t = { s with answer := some .err }) ∨
    (legalTarget s.cfg width addr = .reg .cmd ∧ runCommand v { s with answer := some .ok } = .next t) ∨
    (∃ r, r ≠ .cmd ∧ legalTarget s.cfg width addr = .reg r ∧ t = { s with answer := some .ok }.writePortReg r v) ∨
    (∃ m, legalTarget s.cfg width addr = .mem m ∧ t = { s with answer := some .ok }.writeMem m addr.toNat v) := by
  unfold hostWrite at h
  split at h
  · rename_i hl
    exact .inr (.inl ⟨hl, h⟩)
  · rename_i r hr hl
    cases h
    exact .inr (.inr (.inl ⟨r, fun e => hr e, hl, rfl⟩))
  · rename_i m hl
    cases h
    exact .inr (.inr (.inr ⟨m, hl, rfl⟩))
  · rename_i hl
    cases h
    exact .inl ⟨hl, rfl⟩

/-- What serving an action can do. -/
theorem serve_cases {a : HostAction} {s t : State} (h : serve a s = .next t) :
    (∃ width addr, a = .read width addr ∧ t = { s with answer := some (s.portRead width addr) }) ∨
    (∃ width addr v, a = .write width addr v ∧ hostWrite width addr v s = .next t) ∨
    (a = .assertRst ∧ t = { s with rst := true }) ∨ (a = .releaseRst ∧ t = s) := by
  cases a with
  | read width addr => cases h; exact .inl ⟨width, addr, rfl, rfl⟩
  | write width addr v => exact .inr (.inl ⟨width, addr, v, rfl, h⟩)
  | assertRst => cases h; exact .inr (.inr (.inl ⟨rfl, rfl⟩))
  | releaseRst => cases h; exact .inr (.inr (.inr ⟨rfl, rfl⟩))

/-! ### The address map -/

/-- The memory a lookup finds holds the address. -/
theorem memoryAt_holds {p : Params} {a : Nat} {m : MemName} (h : memoryAt p a = some m) : m.holds p a = true := by
  simpa using List.find?_some h

theorem mem_all (m : MemName) : m ∈ MemName.all := by cases m <;> simp [MemName.all]

/-- An address inside some window is found. -/
theorem memoryAt_isSome {p : Params} {a : Nat} {m : MemName} (h : m.holds p a = true) : (memoryAt p a).isSome := by
  simp only [memoryAt, List.find?_isSome]
  exact ⟨m, mem_all m, h⟩

theorem holds_iff (p : Params) (m : MemName) (a : Nat) : m.holds p a = true ↔ m.base ≤ a ∧ a < m.base + m.size p := by
  simp [MemName.holds]

/-- The target of a legal access to a memory is that memory's window. -/
theorem legalTarget_mem {p : Params} {width : Width} {addr : Addr} {m : MemName}
    (h : legalTarget p width addr = .mem m) :
    width = .word ∧ addr.toNat % 4 = 0 ∧ m.holds p addr.toNat = true := by
  unfold legalTarget at h
  split at h
  · rename_i hw
    refine ⟨hw.1, hw.2, ?_⟩
    unfold target at h
    split at h
    · cases h
    · split at h
      · rename_i m' hm
        cases h
        exact memoryAt_holds hm
      · cases h
  · cases h

end Sys2Proof.Machine
end

