-- ==== Sys2Proof/Laws/Units.lean ====
section
/-! SUPPORT. What each operation the units share can do: reads and skips of the stream, the codebook walk, the checksum, the
lengths of what the DSP units store, host writes to memories. -/

namespace Sys2Proof.Machine

/-- Every command is a commit of what its rule comes to. -/
theorem exec_eq_commit (i : Instr) (s : State) : ∃ e, exec i s = .next (commit i s e) := by
  cases i <;> exact ⟨_, rfl⟩

/-! ### The bit reader -/

/-- A skip changes the position and the cache only. -/
theorem skipBits_frame (s : State) (n : Nat) : SameMemory s (s.skipBits n) ∧ SamePort s (s.skipBits n) :=
  ⟨fun _ => rfl, rfl, rfl, rfl, rfl⟩

/-- What a read of `n` bits comes to (R113, R114). -/
theorem readBits_cases (s : State) (rd : Reg) (n : Nat) :
    (s.rem < n ∧ readBits rd n s = .raised .endOfStream s.rem) ∨
    (n ≤ s.rem ∧ readBits rd n s = .done ((s.setReg rd (wordOf (s.take s.regs.bitpos.toNat n))).consume n)) := by
  unfold readBits
  split
  · exact .inl ⟨by assumption, rfl⟩
  · exact .inr ⟨by omega, rfl⟩

/-- What a skip of `n` bits comes to (R115, R116). -/
theorem ignoreBits_cases (s : State) (n : Nat) :
    (s.rem < n ∧ ignoreBits n s = .raised .endOfStream s.rem) ∨ (n ≤ s.rem ∧ ignoreBits n s = .done (s.skipBits n)) := by
  unfold ignoreBits
  split
  · exact .inl ⟨by assumption, rfl⟩
  · exact .inr ⟨by omega, rfl⟩

/-- A new position as a word: the position moved by `n`. -/
theorem wordOf_add (p : Word) (n : Nat) : wordOf (p.toNat + n) = p + BitVec.ofNat 32 n := by
  apply BitVec.eq_of_toNat_eq
  simp [wordOf]

/-! ### Codebook entries and the walk -/

theorem entry_jump_eq (e : Entry) : Entry.jump e = e.getLsbD 63 := by
  have := e.isLt
  have h : e.toNat / 2 ^ 63 % 2 = e.toNat / 2 ^ 63 := by omega
  rw [Entry.jump, BitVec.getLsbD, Nat.testBit_eq_decide_div_mod_eq, h]
  rfl

theorem entry_off_eq (e : Entry) : Entry.off e = (e.extractLsb' 32 31).toNat := by
  simp [Entry.off, Nat.shiftRight_eq_div_pow]

theorem entry_len_eq (e : Entry) : Entry.len e = (e.extractLsb' 0 32).toNat := by
  simp [Entry.len]

/-- A walk that returns a value has consumed no more than remained. -/
theorem walk_value_le {s : State} {base : Nat} : ∀ {fuel width off src consumed v n : Nat},
    walk s base fuel width off src consumed = .value v n → n ≤ s.rem
  | 0, _, _, _, _, _, _, h => by simp [walk] at h
  | fuel + 1, width, off, src, consumed, v, n, h => by
    unfold walk at h
    simp only at h
    split at h
    · cases h
    split at h
    · cases h
    split at h
    · split at h
      · cases h
      · exact walk_value_le h
    split at h
    · split at h <;> cases h
    split at h
    · cases h
    · cases h
      omega

/-- The causes a walk can raise (R118). -/
theorem walk_cause {s : State} {base : Nat} : ∀ {fuel width off src consumed info : Nat} {c : Cause},
    walk s base fuel width off src consumed = .raised c info →
      c = .endOfStream ∨ c = .malformedTable ∨ c = .tableBounds ∨ c = .decodeError
  | 0, _, _, _, _, _, _, h => by
    simp only [walk, WalkEnd.raised.injEq] at h
    exact .inl h.1.symm
  | fuel + 1, width, off, src, consumed, info, c, h => by
    unfold walk at h
    simp only at h
    split at h
    · cases h
      simp
    split at h
    · cases h
      simp
    split at h
    · split at h
      · cases h
        simp
      · exact walk_cause h
    split at h
    · split at h <;> cases h <;> simp
    split at h
    · cases h
      simp
    · cases h

/-- Passes beyond what the remaining bits allow change no walk (R119). -/
theorem walk_more_fuel {s : State} {base : Nat} (extra : Nat) : ∀ {fuel width off src consumed : Nat},
    consumed ≤ s.rem → s.rem < consumed + fuel →
      walk s base (fuel + extra) width off src consumed = walk s base fuel width off src consumed
  | 0, _, _, _, _, h, h' => by omega
  | fuel + 1, width, off, src, consumed, h, h' => by
    rw [show fuel + 1 + extra = (fuel + extra) + 1 by omega, walk, walk]
    simp only
    split
    · rfl
    split
    · rfl
    split
    · split
      · rfl
      · exact walk_more_fuel extra (by omega) (by omega)
    · rfl

/-- The whole decode: the sentinel's tests, then the walk (R118). -/
theorem decodeCode_value_le {s : State} {base v n : Nat} (h : decodeCode s base = .value v n) : n ≤ s.rem := by
  unfold decodeCode at h
  simp only at h
  split at h
  · cases h
  split at h
  · exact walk_value_le h
  · cases h

/-- `RDCB` whose decode returns a value. -/
theorem exec_rdcb_value {s : State} {rd rs : Reg} {v n : Nat} (h : decodeCode s (s.operand rs) = .value v n) :
    exec (.rdcb rd rs) s = .next { (s.setReg rd (wordOf v)).consume n with regs.hlen := wordOf n } := by
  simp only [exec, execRdcb, h, settle_eq, commit_done]

/-- `RDCB` whose decode raises. -/
theorem exec_rdcb_raised {s : State} {rd rs : Reg} {c : Cause} {info : Nat}
    (h : decodeCode s (s.operand rs) = .raised c info) :
    exec (.rdcb rd rs) s = .next (raise c info (encode (.rdcb rd rs)) s) := by
  simp only [exec, execRdcb, h, settle_eq, commit_raised]

/-! ### The checksum -/

/-- Bytes fed in two pieces (R171). -/
theorem crc_append (c : Word) (u v : List Byte) : crc c (u ++ v) = crc (crc c u) v := List.foldl_append

theorem crc_nil (c : Word) : crc c [] = c := rfl

/-! ### What the DSP units store -/

/-- A block built with the default `Numerics` computes in binary32 with the reference network (R4). -/
theorem numerics_default {s : State} (h : s.cfg.numerics = .binary32) :
    s.numerics = referenceNumerics Sys2Proof.Machine.binary32 := by simp only [State.numerics, h]

/-- The `Numerics` of a state are those of its parameters. -/
theorem numerics_congr {s t : State} (h : t.cfg = s.cfg) : t.numerics = s.numerics := by simp only [State.numerics, h]

@[simp] theorem referenceNumerics_toArithmetic {α : Type} [Inhabited α] (num : Arithmetic α) :
    (referenceNumerics num).toArithmetic = num := rfl
@[simp] theorem referenceNumerics_fft {α : Type} [Inhabited α] (num : Arithmetic α) :
    (referenceNumerics num).fft = fft num := rfl

theorem imdct_length {α : Type} [Inhabited α] (num : Numerics α) (lg : Nat) (spec : Nat → α) (tw fw : Nat → Cplx α) :
    (imdct num lg spec tw fw).length = 4 * 2 ^ lg := by
  simp [imdct]

theorem olaSaved_length (s : State) : s.olaSaved.length = s.blockSize s.regs.status.curBf / 2 := by
  simp [State.olaSaved]

theorem olaEqual_length (s : State) (ch : Nat) : (s.olaEqual ch).length = s.blockSize s.regs.status.curBf / 2 := by
  simp [State.olaEqual]

theorem olaLongShort_length (s : State) (ch : Nat) : (s.olaLongShort ch).length = (s.bs1 - s.bs0) / 4 + s.bs0 / 2 := by
  simp [State.olaLongShort, State.olaStart]

theorem olaShortLong_length (s : State) (ch : Nat) :
    (s.olaShortLong ch).length = s.bs0 / 2 + (s.bs1 / 2 - ((s.bs1 - s.bs0) / 4 + s.bs0 / 2)) := by
  simp [State.olaShortLong, State.olaStart]

/-- A valid pair gives block sizes of 64 to 8192 samples, the short one no longer than the long one (R22). -/
theorem blockSizes_of_configValid {s : State} (h : s.configValid) : 64 ≤ s.bs0 ∧ s.bs0 ≤ s.bs1 ∧ s.bs1 ≤ 8192 := by
  have h0 : (2 : Nat) ^ 6 ≤ 2 ^ s.bs0Exp := Nat.pow_le_pow_right (by omega) h.1
  have h1 : (2 : Nat) ^ s.bs0Exp ≤ 2 ^ s.bs1Exp := Nat.pow_le_pow_right (by omega) h.2.1
  have h2 : (2 : Nat) ^ s.bs1Exp ≤ 2 ^ 13 := Nat.pow_le_pow_right (by omega) h.2.2
  simp only [State.bs0, State.bs1]
  omega

/-- A block size is a multiple of 64 (R7, R22). -/
theorem blockSize_dvd {s : State} (h : s.configValid) (bf : Bool) : 64 ∣ s.blockSize bf := by
  have h6 : (64 : Nat) = 2 ^ 6 := rfl
  have hc := h
  unfold State.configValid at hc
  cases bf <;> simp only [State.blockSize, State.bs0, State.bs1, Bool.false_eq_true, if_true, if_false] <;> rw [h6] <;>
    exact Nat.pow_dvd_pow 2 (by omega)

/-- `OLA` never stores more than 4096 samples (R23). -/
theorem olaSamples_length_le {s : State} (h : s.configValid) (ch : Nat) : (s.olaSamples ch).length ≤ 4096 := by
  obtain ⟨-, h2, h3⟩ := blockSizes_of_configValid h
  have hb : s.blockSize s.regs.status.curBf ≤ 8192 := by
    unfold State.blockSize
    split <;> omega
  unfold State.olaSamples
  simp only
  split
  · simp
  split
  · rw [olaEqual_length]
    omega
  split
  · rw [olaLongShort_length]
    omega
  · rw [olaShortLong_length]
    omega

/-- How many samples `OLA` stores (R227, R232). -/
theorem olaSamples_length {s : State} (h : s.configValid) (ch : Nat) :
    (s.olaSamples ch).length = if s.regs.status.prevValid then
      (s.blockSize s.regs.status.prevBf + s.blockSize s.regs.status.curBf) / 4 else 0 := by
  obtain ⟨-, hle, -⟩ := blockSizes_of_configValid h
  have d0 := blockSize_dvd h false
  have d1 := blockSize_dvd h true
  simp only [State.blockSize, Bool.false_eq_true, if_false, if_true] at d0 d1
  unfold State.olaSamples
  simp only
  cases hv : s.regs.status.prevValid
  · simp
  simp only [Bool.true_eq_false, if_false, if_true]
  split
  · rename_i he
    rw [olaEqual_length, he]
    omega
  rename_i hne
  cases hp : s.regs.status.prevBf <;> cases hq : s.regs.status.curBf <;>
    simp only [hp, hq, State.blockSize, Bool.false_eq_true, if_false, if_true] at hne ⊢
  · exact absurd trivial hne
  · rw [if_neg (by omega), olaShortLong_length]
    omega
  · rw [if_pos (by omega), olaLongShort_length]
    omega
  · exact absurd trivial hne

/-- `OLA` that passes its four tests (R229). -/
theorem exec_ola_next {s : State} {rs rt : Reg} (hc : s.configValid) (hi : s.regs.status.imdValid = true)
    (hch : s.operand rs < s.cfg.maxCh) (hslot : s.operand rt < s.cfg.maxCh) :
    exec (.ola rs rt) s = .next
      { ((s.storeWords (outSlot (s.operand rt)) (s.olaSamples (s.operand rs))).storeWords (ovlBank (s.operand rs))
          s.olaSaved).consumeImdResult with
        regs.outLen := wordOf (s.olaSamples (s.operand rs)).length } := by
  show settle _ s _ = _
  simp only
  rw [if_neg (fun h => h hc), if_neg (by simp [hi]), if_neg (by omega), if_neg (by omega)]
  rfl

/-- `IMDCT` with a valid configuration (R200). -/
theorem exec_imdct_next {s : State} {bf : Bool} (hc : s.configValid) :
    exec (.imdct bf) s = .next
      { (s.storeWords MemName.imd.base (s.imdctSamples bf)).setImdResult bf with draws.scratch := s.draws.scratch + 1 } := by
  show settle _ s _ = _
  rw [if_neg (fun h => h hc)]
  rfl

/-! ### Windows and host writes to memories -/

/-- For legal parameters an address in a window belongs to that window's memory alone (R53). -/
theorem memoryAt_eq {p : Params} (hp : p.Valid) {a : Nat} {m : MemName} (h : m.holds p a = true) :
    memoryAt p a = some m := by
  cases hm : memoryAt p a with
  | none =>
    have := memoryAt_isSome h
    simp [hm] at this
  | some m' =>
    have h' := memoryAt_holds hm
    rw [holds_iff] at h h'
    obtain ⟨-, -, -, -, p5, -, p7⟩ := hp
    congr 1
    cases m <;> cases m' <;> simp only [MemName.base, MemName.size] at h h' <;> first | rfl | omega

/-- Every window but BSMEM's ends where BSMEM begins or below (R53). -/
theorem window_below_bs {p : Params} (hp : p.Valid) {m : MemName} (h : m ≠ .bs) : m.base + m.size p ≤ 0x800000 := by
  obtain ⟨-, -, -, -, h5, -, h7⟩ := hp
  cases m <;> simp only [MemName.base, MemName.size] <;> first | omega | exact absurd rfl h

/-- A host write to a memory stores its word and touches no register. -/
theorem writeMem_frame (s : State) (m : MemName) (a : Nat) (v : Word) :
    SameMemoryOutside a 4 s (s.writeMem m a v) ∧ (s.writeMem m a v).wordAt a = v ∧ (s.writeMem m a v).regs = s.regs ∧
      (s.writeMem m a v).draws = s.draws ∧ (s.writeMem m a v).cfg = s.cfg ∧ (s.writeMem m a v).rst = s.rst ∧
      (s.writeMem m a v).pending = s.pending ∧ (s.writeMem m a v).answer = s.answer := by
  have hf := storeWords_frame s a [v]
  have hw : (s.storeWords a [v]).wordAt a = v := by
    simpa using wordAt_storeWords_inside s a [v] 0 (by simp)
  unfold State.writeMem
  simp only
  split
  · exact ⟨fun x hx => hf x hx, hw, rfl, rfl, rfl, rfl, rfl, rfl⟩
  · exact ⟨hf, hw, rfl, rfl, rfl, rfl, rfl, rfl⟩

end Sys2Proof.Machine
end

