-- ==== Sys2Proof/Laws/Words.lean ====
section
/-! SUPPORT. The command words laid out field by field (30_encoding R80) are the encoder's. -/

namespace Sys2Proof.Machine

theorem wordI_eq_formatI (op : BitVec 8) (rd rs : Reg) (imm : BitVec 16) :
    wordI op rd rs imm = formatI op.toNat rd rs imm.toNat := by
  apply BitVec.eq_of_toNat_eq
  rw [toNat_formatI rd rs op.isLt imm.isLt]
  have h1 := rd.isLt
  have h2 := rs.isLt
  have h3 := imm.isLt
  simp only [wordI, BitVec.toNat_append, BitVec.toNat_ofFin]
  rw [← Nat.shiftLeft_add_eq_or_of_lt h3, ← Nat.shiftLeft_add_eq_or_of_lt h2, ← Nat.shiftLeft_add_eq_or_of_lt h1]
  simp only [Nat.shiftLeft_eq]
  ring

theorem wordR_eq_formatR (op : BitVec 8) (rd rs rt : Reg) : wordR op rd rs rt = formatR op.toNat rd rs rt := by
  apply BitVec.eq_of_toNat_eq
  have h1 := rd.isLt
  have h2 := rs.isLt
  have h3 := rt.isLt
  rw [formatR_eq, toNat_formatI rd rs op.isLt (by omega)]
  simp only [wordR, BitVec.toNat_append, BitVec.toNat_ofFin]
  rw [← Nat.shiftLeft_add_eq_or_of_lt (show (0#12).toNat < 2 ^ 12 by decide), ← Nat.shiftLeft_add_eq_or_of_lt h3,
    ← Nat.shiftLeft_add_eq_or_of_lt h2, ← Nat.shiftLeft_add_eq_or_of_lt h1]
  simp only [Nat.shiftLeft_eq, BitVec.toNat_ofNat]
  ring

theorem wordI_eq_formatN (op : BitVec 8) : wordI op 0 0 0 = formatN op.toNat := by
  rw [wordI_eq_formatI, formatN_eq]
  rfl

/-- The word of each command, its fields in their places. -/
theorem word_of_command :
    wordI 0x00 0 0 0 = encode .nop ∧ wordI 0x03 0 0 0 = encode .errclr ∧ wordI 0x04 0 0 0 = encode .sreset ∧
    wordI 0x20 0 0 0 = encode .crcrst ∧ wordI 0x33 0 0 0 = encode .laprst ∧
    (∀ rd imm, wordI 0x01 rd 0 imm = encode (.li rd imm)) ∧ (∀ rd imm, wordI 0x02 rd 0 imm = encode (.lih rd imm)) ∧
    (∀ rs, wordI 0x10 0 rs 0 = encode (.bsinit rs)) ∧ (∀ rd, wordI 0x11 rd 0 0 = encode (.rdbool rd)) ∧
    (∀ rd (n : BitVec 6), wordI 0x12 rd 0 (n.setWidth 16) = encode (.rdbits rd n)) ∧
    (∀ imm, wordI 0x13 0 0 imm = encode (.skipi imm)) ∧ (∀ rs, wordI 0x14 0 rs 0 = encode (.skip rs)) ∧
    (∀ rd rs, wordI 0x15 rd rs 0 = encode (.rdcb rd rs)) ∧ (∀ rs rt, wordR 0x21 0 rs rt = encode (.crcfeed rs rt)) ∧
    (∀ rs, wordI 0x22 0 rs 0 = encode (.crccmp rs)) ∧ (∀ rd, wordI 0x23 rd 0 0 = encode (.crcpage rd)) ∧
    (∀ bf : Bool, wordI 0x30 0 0 (if bf then 1 else 0) = encode (.imdct bf)) ∧
    (∀ rs rt, wordR 0x31 0 rs rt = encode (.ola rs rt)) ∧
    (∀ bf : Bool, wordI 0x32 0 0 (if bf then 1 else 0) = encode (.lapupd bf)) := by
  refine ⟨wordI_eq_formatN _, wordI_eq_formatN _, wordI_eq_formatN _, wordI_eq_formatN _, wordI_eq_formatN _,
    fun _ _ => wordI_eq_formatI _ _ _ _, fun _ _ => wordI_eq_formatI _ _ _ _, fun _ => wordI_eq_formatI _ _ _ _,
    fun _ => wordI_eq_formatI _ _ _ _, fun rd n => ?_, fun _ => wordI_eq_formatI _ _ _ _, fun _ => wordI_eq_formatI _ _ _ _,
    fun _ _ => wordI_eq_formatI _ _ _ _, fun _ _ => wordR_eq_formatR _ _ _ _, fun _ => wordI_eq_formatI _ _ _ _,
    fun _ => wordI_eq_formatI _ _ _ _, fun bf => ?_, fun _ _ => wordR_eq_formatR _ _ _ _, fun bf => ?_⟩
  · rw [wordI_eq_formatI, encode, BitVec.toNat_setWidth, Nat.mod_eq_of_lt (by omega)]
    rfl
  · cases bf <;> exact wordI_eq_formatI _ _ _ _
  · cases bf <;> exact wordI_eq_formatI _ _ _ _

end Sys2Proof.Machine
end

