-- ==== Sys2Proof/Tests/Slice0.lean ====
section
/-! SUPPORT. Tests. Words, states and results are written out from the spec: the encodings of 30_encoding R80 to R83, the
examples of the command rules, the vectors of 95_test_vectors, the worked tables of 42_codebook_table section 4. Every
`witness_` theorem shows a concrete state and operands that meet all the hypotheses of the obligation it names. -/

namespace Sys2Proof.Tests

open Sys2Proof Sys2Proof.Machine

/-! ### Helpers -/

/-- The next state, where there is one. -/
def nextOf : Host.Outcome State Fault Refusal → Option State
  | .next t => some t
  | .fault _ => none
  | .refused _ => none

/-- One step of a state whose host writes the word to CMD. -/
def cmd (w : Nat) (s : State) : Option State := nextOf (step (s.withFetchWord 32 w))

def withBytes (a : Nat) (bs : List Nat) (s : State) : State :=
  { s with mem := Memory.store s.mem a (bs.map (BitVec.ofNat 8)) }

def withEntries (base : Nat) (es : List Entry) (s : State) : State :=
  s.storeWords (0x400000 + 8 * base) (es.flatMap fun e => [e.extractLsb' 0 32, e.extractLsb' 32 32])

/-- The reset state with the bytes in BSMEM bound, the reader at `pos`. -/
def reader (bs : List Nat) (pos : Nat) : State :=
  { withBytes 0x800000 bs State.reset with regs.bslen := wordOf bs.length, regs.bitpos := wordOf pos }

/-- The reset state with run state ERROR as an `EndOfStream` of `RDBITS X1, 8` leaves it (vector 2.5 step 1). -/
def inError : State :=
  { State.reset with regs.status.err := true, regs.errCause := .endOfStream, regs.errCmd := 0x12100008 }

/-- What a host sees of an error: STATUS, ERRCAUSE, ERRINFO, ERRCMD. -/
def errorView (t : State) : Word × Word × Word × Word :=
  (t.readPortReg .status, t.readPortReg .errCause, t.regs.errInfo, t.regs.errCmd)

/-- Table B of 42_codebook_table section 4: lengths `[1, 2, 2]`, values `41`, `42`, `43`. -/
def tableB : Table :=
  [0x8000000100000002, 0x0000004100000001, 0x0000004200000002, 0x0000004100000001, 0x0000004300000002]

/-- Table C: two levels. -/
def tableC : Table :=
  [0x8000000100000002, 0x0000000A00000001, 0x0000000B00000002, 0x0000000A00000001, 0x8000000500000002,
   0x0000000C00000001, 0x0000000D00000002, 0x0000000C00000001, 0x0000000E00000002]

/-- Table E: one entry, an unused slot. -/
def tableE : Table := [0x8000000100000001, 0x0000000700000001, 0x0000000000000000]

/-- The 33-byte page of R176's example. -/
def page : List Nat :=
  [0x4F, 0x67, 0x67, 0x53, 0x00, 0x02, 0x00, 0x00, 0x00, 0x00, 0x00, 0x00, 0x00, 0x00, 0x78, 0x56, 0x34, 0x12,
   0x00, 0x00, 0x00, 0x00, 0x4B, 0x77, 0x28, 0x06, 0x01, 0x05, 0x68, 0x65, 0x6C, 0x6C, 0x6F]

def pageState : State := withBytes 0x010000 page State.reset

/-- The state of vectors 6.1 to 6.6 without samples: `BSEXP = 76`, `X0 = 0`, `X1 = 1`, the flags as stated. -/
def olaState (prevValid prevBf curBf : Bool) : State :=
  { State.reset.setReg 1 1 with
    regs.bsexp := 0x76
    regs.status := { State.reset.regs.status with
      imdValid := true, curBf := curBf, prevValid := prevValid, prevBf := prevBf } }

/-! ### Well-formedness (R81, R83): the one operand whose range is not its field's -/

theorem test_wf_refuses_rdbits_33 : (Instr.rdbits 1 33).wf = false := by decide
theorem test_wf_accepts_rdbits_32 : (Instr.rdbits 1 32).wf = true := by decide
theorem test_wf_refuses_every_width_over_32 : ∀ n : BitVec 6, (Instr.rdbits 0 n).wf = decide (n.toNat ≤ 32) := by decide

/-! ### Decoding: words written out field by field from R80 to R83 (opcode, rd, rs, rt or imm16) -/

theorem test_decode_sys :
    decode 0b00000000_0000_0000_0000000000000000 = .command .nop ∧
    decode 0b00000001_0111_0000_0111011101001011 = .command (.li 7 0x774B) ∧
    decode 0b00000010_0111_0000_0000011000101000 = .command (.lih 7 0x0628) ∧
    decode 0b00000011_0000_0000_0000000000000000 = .command .errclr ∧
    decode 0b00000100_0000_0000_0000000000000000 = .command .sreset := by decide

theorem test_decode_huf :
    decode 0b00010000_0000_0001_0000000000000000 = .command (.bsinit 1) ∧
    decode 0b00010001_0001_0000_0000000000000000 = .command (.rdbool 1) ∧
    decode 0b00010010_0001_0000_0000000000011000 = .command (.rdbits 1 24) ∧
    decode 0b00010010_0001_0000_0000000000100000 = .command (.rdbits 1 32) ∧
    decode 0b00010011_0000_0000_1111111111111111 = .command (.skipi 65535) ∧
    decode 0b00010100_0000_0011_0000000000000000 = .command (.skip 3) ∧
    decode 0b00010101_0011_0010_0000000000000000 = .command (.rdcb 3 2) ∧
    decode 0b00010101_1111_1111_0000000000000000 = .command (.rdcb 15 15) := by decide

theorem test_decode_crc :
    decode 0b00100000_0000_0000_0000000000000000 = .command .crcrst ∧
    decode 0b00100001_0000_0001_0010_000000000000 = .command (.crcfeed 1 2) ∧
    decode 0b00100001_0000_1111_1111_000000000000 = .command (.crcfeed 15 15) ∧
    decode 0b00100010_0000_0010_0000000000000000 = .command (.crccmp 2) ∧
    decode 0b00100011_0001_0000_0000000000000000 = .command (.crcpage 1) := by decide

theorem test_decode_dsp :
    decode 0b00110000_0000_0000_0000000000000001 = .command (.imdct true) ∧
    decode 0b00110001_0000_0000_0001_000000000000 = .command (.ola 0 1) ∧
    decode 0b00110010_0000_0000_0000000000000001 = .command (.lapupd true) ∧
    decode 0b00110011_0000_0000_0000000000000000 = .command .laprst := by decide

/-- Vector 2.3: the words that are no commands. -/
theorem test_decode_illegal :
    [0x05000000, 0x16000000, 0xFFFFFFFF, 0x00000001, 0x01110002, 0x10110000, 0x12100021, 0x12100040, 0x13010000,
      0x15320001, 0x21112000, 0x21012001, 0x30000002, 0x31001001, 0x33000001].map (fun w => (decode w).instr?) =
    List.replicate 15 none := by decide

/-- The words of the command rules' examples, made by the encoder. -/
theorem test_encode_examples :
    [Instr.li 1 2, .lih 2 0x0628, .rdbits 1 24, .skip 3, .rdcb 3 2, .crcfeed 1 2, .crccmp 2, .crcpage 1, .imdct true, .ola 0 1,
      .lapupd true].map encode =
    [0x01100002, 0x02200628, 0x12100018, 0x14030000, 0x15320000, 0x21012000, 0x22020000, 0x23100000, 0x30000001,
      0x31001000, 0x32000001] := by decide

/-! ### System commands -/

theorem test_nop_changes_nothing :
    (cmd 0x00000000 (reader [1] 3)).map (fun t => (t.regs, t.mem, t.cache)) =
      some ((reader [1] 3).regs, (reader [1] 3).mem, (reader [1] 3).cache) := by decide
theorem test_li_clears_the_upper_half :
    (cmd 0x01700001 (State.reset.setReg 7 0x0628774B)).map (·.reg 7) = some 0x00000001 := by decide
theorem test_lih_keeps_the_low_half :
    (cmd 0x02201234 (State.reset.setReg 2 0xAAAA5555)).map (·.reg 2) = some 0x12345555 := by decide
theorem test_errclr_returns : (cmd 0x03000000 inError).map errorView = some (0, 0, 0, 0) := by decide
theorem test_sreset_from_error :
    (cmd 0x04000000 (inError.setReg 5 7)).map (fun t => (t.reg 5, errorView t)) = some (0, 0, 0, 0, 0) := by decide
theorem test_sreset_keeps_memories :
    (cmd 0x04000000 (reader [0xA7] 3)).map (fun t => (t.bsByte 0, t.regs.bslen)) = some (0xA7, 0) := by decide

/-- Vector 2.5, steps 2 and 3: dropped, the error registers kept. -/
theorem test_dropped_in_error :
    (cmd 0x01100005 inError).map (fun t => (t.reg 1, errorView t)) = some (0, 0x21, 2, 0, 0x12100008) ∧
    (cmd 0x05000000 inError).map errorView = some (0x21, 2, 0, 0x12100008) := by decide

/-- Vector 2.5, step 9. -/
theorem test_illegal_command : (cmd 0x05000000 State.reset).map errorView = some (1, 4, 0, 0x05000000) := by decide

/-! ### The port (vectors 2.1, 2.2 step 6, 2.6) -/

theorem test_port_reads :
    [0x000000, 0x000004, 0x00001C, 0x000002, 0x001000].map (State.reset.portRead .word) =
      [.data 0x57564B01, .data 0, .data 0, .err, .err] ∧
    State.reset.portRead .byte 0x800000 = .err ∧ State.reset.portRead .word 0x7FFFFC = .data (State.reset.wordAt 0x7FFFFC) := by
  refine ⟨by decide, by decide, ?_⟩
  rfl
theorem test_port_write_x1 :
    (nextOf (hostWrite .word 0x000104 0xDEADBEEF State.reset)).map (fun t => (t.reg 1, t.portRead .word 0x000104)) =
      some (0xDEADBEEF, .data 0xDEADBEEF) := by decide
theorem test_port_little_endian :
    (nextOf (hostWrite .word 0x800000 0xA7564342 State.reset)).map (fun t => [0, 1, 2, 3].map t.bsByte) =
      some [0x42, 0x43, 0x56, 0xA7] := by decide
theorem test_irq_follows_enable_and_error :
    ({ inError with regs.ie := true } : State).irq = true ∧ inError.irq = false ∧
      ({ State.reset with regs.ie := true } : State).irq = false := by decide

/-! ### HUF unit (R112 to R118, vectors 3.1, 3.2) -/

theorem test_bsinit_binds :
    (cmd 0x10010000 ((reader [1, 2, 3] 9).setReg 1 2)).map (fun t => (t.regs.bslen, t.regs.bitpos)) = some (2, 0) := by decide
theorem test_bsinit_too_long :
    (cmd 0x10010000 (State.reset.setReg 1 0x00800001)).map errorView = some (1, 5, 0x00800001, 0x10010000) := by decide
theorem test_rdbool_takes_bit_0_first :
    (cmd 0x11100000 (reader [0xA7] 3)).map (fun t => (t.reg 1, t.regs.bitpos)) = some (0, 4) ∧
    (cmd 0x11100000 (reader [0xA7] 5)).map (fun t => (t.reg 1, t.regs.bitpos)) = some (1, 6) := by decide
theorem test_rdbits_sync_word :
    (cmd 0x12100018 (reader [0x42, 0x43, 0x56, 0xA7, 0xF0] 0)).map (fun t => (t.reg 1, t.regs.bitpos)) =
      some (0x00564342, 24) := by decide
theorem test_rdbits_straddles_five_bytes :
    (cmd 0x12100020 (reader [0x42, 0x43, 0x56, 0xA7, 0xF0] 3)).map (fun t => (t.reg 1, t.regs.bitpos)) =
      some (0x14EAC868, 35) := by decide
theorem test_skipi_to_a_position :
    (cmd 0x13000002 (reader [0, 0, 0, 0, 0] 35)).map (·.regs.bitpos) = some 37 := by decide
theorem test_skipi_zero_at_the_end : (cmd 0x13000000 (reader [0] 8)).map (·.regs.bitpos) = some 8 := by decide
theorem test_skip_past_the_end :
    (cmd 0x14030000 ((reader [0, 0, 0, 0, 0] 0).setReg 3 100)).map (fun t => (t.regs.bitpos, errorView t)) =
      some (0, 1, 2, 40, 0x14030000) := by decide
theorem test_skip_exactly_to_the_end :
    (cmd 0x14030000 ((reader [0, 0, 0, 0, 0] 0).setReg 3 40)).map (·.regs.bitpos) = some 40 := by decide

/-- Vector 3.2 (c), the first two codes of `EF D6`. -/
theorem test_rdcb_through_a_jump :
    (cmd 0x15320000 (withEntries 0 tableC (reader [0xEF, 0xD6] 0))).map (fun t => (t.reg 3, t.regs.hlen, t.regs.bitpos)) =
      some (14, 4, 4) ∧
    (cmd 0x15220000 (withEntries 0 tableC (reader [0xEF, 0xD6] 4))).map (fun t => (t.reg 2, t.regs.hlen, t.regs.bitpos)) =
      some (10, 1, 5) := by decide +kernel

/-- Vectors 3.2 (c) last code, (e) and (h): every way to fail. -/
theorem test_rdcb_failures :
    (cmd 0x15320000 (withEntries 0 tableC (reader [0xEF, 0xD6] 14))).map errorView = some (1, 2, 2, 0x15320000) ∧
    (cmd 0x15320000 (withEntries 0 tableE (reader [0x03] 0))).map errorView = some (1, 1, 2, 0x15320000) ∧
    (cmd 0x15320000 (withEntries 0 [0x0000000000000002] (reader [0] 0))).map errorView = some (1, 7, 0, 0x15320000) ∧
    (cmd 0x15320000 (withEntries 0 [0x8000000100000001, 0x8000000300000000] (reader [0] 0))).map errorView =
      some (1, 7, 1, 0x15320000) ∧
    (cmd 0x15320000 (withEntries 0 [0xFFFFFFFF00000001] (reader [1] 0))).map errorView =
      some (1, 6, 0x80000000, 0x15320000) := by decide +kernel

/-! ### Codebook tables (R147 to R151, section 4 of 42_codebook_table) -/

theorem test_worked_tables :
    buildFromLengths false 8 [2, 2, 2, 2] [0, 1, 2, 3] =
      .ok [0x8000000100000002, 0x0000000000000002, 0x0000000200000002, 0x0000000100000002, 0x0000000300000002] ∧
    buildFromLengths false 8 [1, 2, 2] [0x41, 0x42, 0x43] = .ok tableB ∧
    buildFromLengths false 2 [1, 2, 3, 4, 4] [10, 11, 12, 13, 14] = .ok tableC := by decide +kernel
theorem test_builder_failures :
    buildFromLengths false 8 [2, 0, 2] [0, 1, 2] = .error .zeroLength ∧
    buildFromLengths false 8 [2, 2, 2] [0, 1, 2] = .error .incomplete ∧
    buildFromLengths false 8 [1, 1, 1] [0, 1, 2] = .error .overSpecified ∧
    buildFromLengths false 8 [1] [7] = .ok tableE := by decide +kernel
/-- R149: five entries end at entry 5 of CBMEM from base 0, and fit at no place above `CB_ENTRIES − 5`. -/
theorem test_builder_fits_in_memory :
    buildFromLengthsAt 5 0 false 8 [1, 2, 2] [0x41, 0x42, 0x43] = .ok tableB ∧
    buildFromLengthsAt 5 1 false 8 [1, 2, 2] [0x41, 0x42, 0x43] = .error .doesNotFit ∧
    buildTableAt 524288 524284 false 8 [⟨0, 1, 0x41⟩, ⟨2, 2, 0x42⟩, ⟨3, 2, 0x43⟩] = .error .doesNotFit := by decide +kernel
/-- R147: the ranges of the builder's inputs, at their ends. -/
theorem test_builder_inputs :
    BuilderInputs 32 [⟨0xFFFFFFFF, 32, 0x7FFFFFFF⟩, ⟨0, 0, 0⟩] ∧ ¬ BuilderInputs 0 [] ∧ ¬ BuilderInputs 33 [] ∧
    ¬ BuilderInputs 8 [⟨0, 33, 0⟩] ∧ ¬ BuilderInputs 8 [⟨4, 2, 0⟩] ∧ ¬ BuilderInputs 8 [⟨0, 2, 0x80000000⟩] := by decide
/-- R146: the bits of the codeword `110`, most significant first. -/
theorem test_codeword_bits : codewordBits 0b110 3 = [true, true, false] := by decide
theorem test_canonical_codewords :
    canonicalCodewords [2, 4, 4, 4, 4, 2, 3, 3] =
      some [some ⟨0b00, 2⟩, some ⟨0b0100, 4⟩, some ⟨0b0101, 4⟩, some ⟨0b0110, 4⟩, some ⟨0b0111, 4⟩, some ⟨0b10, 2⟩,
        some ⟨0b110, 3⟩, some ⟨0b111, 3⟩] ∧
    canonicalCodewords [2, 0, 2, 1] = some [some ⟨0b00, 2⟩, none, some ⟨0b01, 2⟩, some ⟨0b1, 1⟩] ∧
    canonicalCodewords [1, 2, 2, 2] = none := by decide +kernel

/-! ### CRC unit (R171, R173, R174, R176) -/

theorem test_crc_check_value :
    crc 0 [0x31, 0x32, 0x33, 0x34, 0x35, 0x36, 0x37, 0x38, 0x39] = 0x89A1897F ∧ crc 0 [0x4F, 0x67, 0x67, 0x53] = 0x5FB0A94F := by
  decide +kernel
theorem test_crcrst_clears :
    (cmd 0x20000000 { State.reset with regs.crcAcc := 0x0628774B }).map (·.regs.crcAcc) = some 0 := by decide
/-- Program P2, step 4. -/
theorem test_crcfeed_of_22_bytes :
    (cmd 0x21023000 (pageState.setReg 3 22)).map (·.regs.crcAcc) = some 0xB4405D22 := by decide +kernel
/-- Vector 2.4. -/
theorem test_crcfeed_ranges :
    (cmd 0x21012000 (State.reset.setReg 1 65537)).map errorView = some (1, 5, 0x00010001, 0x21012000) ∧
    (cmd 0x21012000 ((State.reset.setReg 1 65530).setReg 2 7)).map errorView = some (1, 5, 7, 0x21012000) ∧
    (cmd 0x21012000 (State.reset.setReg 1 65536)).map errorView = some (0, 0, 0, 0) := by decide
theorem test_crccmp_both_ways :
    (cmd 0x22020000 ({ State.reset with regs.crcAcc := 0x0628774B }.setReg 2 0x0628774B)).map errorView = some (0, 0, 0, 0) ∧
    (cmd 0x22020000 { State.reset with regs.crcAcc := 0x0628774B }).map errorView = some (1, 3, 0x0628774B, 0x22020000) := by
  decide
theorem test_crcpage_passes :
    (cmd 0x23100000 pageState).map (fun t => (t.reg 1, t.regs.pgLen, t.regs.crcAcc, t.regs.crcStored)) =
      some (33, 33, 0x0628774B, 0x0628774B) := by decide +kernel
theorem test_crcpage_mismatch :
    (cmd 0x23100000 (withBytes 0x01001C [0x69] pageState)).map (fun t => (t.reg 1, errorView t)) =
      some (0, 1, 3, 0x4F2510C6, 0x23100000) := by decide +kernel

/-! ### IMDCT unit (R190, R200, vectors 2.4, 5.1) -/

/-- The binary32 results follow from IEEE 754: a tie to even, a subnormal, an overflow, a product rounded up. -/
theorem test_binary32_rounding :
    fadd 0x3F800000 0x33800000 = 0x3F800000 ∧ fadd 0x3F800001 0x33800000 = 0x3F800002 ∧
    fmul 0x00800000 0x3F000000 = 0x00400000 ∧ fmul 0x7F7FFFFF 0x40000000 = 0x7F800000 ∧
    fsub 0x3F800000 0x3F800000 = 0x00000000 ∧ fmul 0x3F800001 0x3F800001 = 0x3F800002 := by decide +kernel
theorem test_imdct_bad_config :
    (cmd 0x30000001 { State.reset with regs.bsexp := 0x5A }).map errorView = some (1, 8, 0x5A, 0x30000001) ∧
    (cmd 0x30000000 { State.reset with regs.bsexp := 0xE6 }).map errorView = some (1, 8, 0xE6, 0x30000000) := by decide

/-- The twiddles of 95_test_vectors section 5. -/
def twiddleWords : List Word :=
    [0x3F7FFB11, 0x3C490E90, 0x3F7E70B0, 0x3DE1BC2E, 0x3F7A7302, 0x3E541501, 0x3F740BDD, 0x3E9AA086]
    ++ [0x3F6B4B0C, 0x3EC9B953, 0x3F604621, 0x3EF6E0CB, 0x3F531849, 0x3F10D3CD, 0x3F43E200, 0x3F24D225]
    ++ [0x3F32C8C9, 0x3F373A23, 0x3F1FF6CB, 0x3F47DE65, 0x3F0B9A6B, 0x3F5695E5, 0x3EEBCBBB, 0x3F633C5A]
    ++ [0x3EBE1D4A, 0x3F6DB293, 0x3E8E9A22, 0x3F75DEC6, 0x3E3B6ECF, 0x3F7BACCD, 0x3DAFB680, 0x3F7F0E58]

/-- `FW[k]` for `k` a multiple of 128. -/
def rootWords : List (Nat × Word × Word) :=
  [(0, 0x3F800000, 0x00000000), (128, 0x3F6C835E, 0xBEC3EF15), (256, 0x3F3504F3, 0xBF3504F3),
   (384, 0x3EC3EF15, 0xBF6C835E), (512, 0x00000000, 0xBF800000), (640, 0xBEC3EF15, 0xBF6C835E),
   (768, 0xBF3504F3, 0xBF3504F3), (896, 0xBF6C835E, 0xBEC3EF15)]

/-- The state of vector 5.1: `BSEXP = 66`, the tables, an impulse in SPECMEM. -/
def impulseState : State :=
  { ((rootWords.foldl (fun s e => s.storeWords (0x038000 + 8 * e.1) [e.2.1, e.2.2]) State.reset).storeWords 0x030000
      twiddleWords).storeWords 0x020000 (0x3F800000 :: List.replicate 31 0) with
    regs.bsexp := 0x66 }

theorem test_imdct_impulse :
    (cmd 0x30000000 impulseState).map (fun t => (t.element .imd 0, t.element .imd 32, t.readPortReg .status)) =
      some (0x3F3085BB, 0xBF396842, 2) := by decide +kernel

/-! ### OLA unit (vectors 2.4, 6.1, 6.2, 6.6, 6.7) -/

/-- The synthetic short window of section 6: `WIN0[i] = i/32`. Only the two places the test reads. -/
theorem test_overlap_kernel :
    overlapKernel State.reset.numerics 0x3F800000 0xBF800000 (fun i => if i = 31 then 0x3F780000 else 0) 32 0 = 0x3F780000 ∧
    overlapKernel State.reset.numerics 0x40000000 0x40000000 (fun i => if i = 31 then 0x3F780000 else 0) 32 0 = 0x3F800000 ∧
    overlapKernel State.reset.numerics 0xC0000000 0xC0000000 (fun i => if i = 31 then 0x3F780000 else 0) 32 0 = 0xBF800000 := by decide +kernel
theorem test_ola_first_packet :
    (cmd 0x31001000 ((olaState false false false).storeWords 0x028000 (List.replicate 64 0x3F000000))).map
      (fun t => (t.regs.outLen, t.readPortReg .status, t.ovl 0 0, t.ovl 0 31)) = some (0, 0, 0x3F000000, 0x3F000000) := by
  decide +kernel
theorem test_ola_errors_in_order :
    (cmd 0x31001000 (State.reset.setReg 0 99)).map errorView = some (1, 8, 0, 0x31001000) ∧
    (cmd 0x31001000 { State.reset.setReg 0 99 with regs.bsexp := 0x66 }).map errorView = some (1, 9, 0, 0x31001000) ∧
    (cmd 0x31001000 ((olaState true false false).setReg 0 8)).map errorView = some (0x0B, 5, 8, 0x31001000) ∧
    (cmd 0x31001000 ((olaState true false false).setReg 1 8)).map errorView = some (0x0B, 5, 8, 0x31001000) := by decide
theorem test_lapupd_sets : (cmd 0x32000001 State.reset).map (·.readPortReg .status) = some 0x18 := by decide
theorem test_laprst_forgets :
    (cmd 0x33000000 { State.reset with regs.status := ⟨false, true, true, true, true, false⟩ }).map (·.readPortReg .status) =
      some 0x06 := by decide

/-! ### Witnesses: command words and the command step -/

/-- The reset state with host actions waiting. -/
def waiting (l : List HostAction) : State := { State.reset with pending := l }

theorem witness_EncodedCommandDecodesBack : (Instr.rdbits 15 32).wf = true ∧ (Instr.ola 0 15).wf = true := by decide
theorem witness_DecodedWordEncodesBack : decode 0x12F00020 = .command (.rdbits 15 32) := by decide
theorem witness_DecoderIsTheOpcodeTable :
    decode 0x12F00020 = .command (.rdbits 15 32) ∧ (⟨"RDBITS", 0x12000000, 0xFF0FFFC0⟩ : OpcodeRow) ∈ opcodeRows ∧
    (⟨"RDBITS", 0x12000000, 0xFF0FFFC0⟩ : OpcodeRow).selects 0x12F00020 = true := by decide
theorem witness_PseudoInstructionsExpand :
    ((waiting (li32 15 0x0628774B ++ [])).rst = false ∧ (waiting (li32 15 0x0628774B ++ [])).Ready ∧
      (waiting (li32 15 0x0628774B ++ [])).pending = li32 15 0x0628774B ++ []) ∧
    ((waiting (clr 0 ++ [])).rst = false ∧ (waiting (clr 0 ++ [])).Ready ∧ (waiting (clr 0 ++ [])).pending = clr 0 ++ []) :=
  ⟨⟨rfl, rfl, rfl⟩, rfl, rfl, rfl⟩
theorem witness_StepRunsTheDecodedCommand :
    ((waiting [issue 0x01100005]).rst = false ∧ (waiting [issue 0x01100005]).pending = issue 0x01100005 :: [] ∧
      decode 0x01100005 = .command (.li 1 5) ∧ (waiting [issue 0x01100005]).Ready) ∧
    (({ inError with pending := [issue 0x03000000] } : State).rst = false ∧ decode 0x03000000 = .command .errclr ∧
      decode 0x04000000 = .command .sreset ∧ inError.regs.status.err = true) :=
  ⟨⟨rfl, rfl, by decide, rfl⟩, rfl, by decide, by decide, rfl⟩
theorem witness_CommandInErrorStateIsDropped :
    ({ inError with pending := [issue 0x05000000] } : State).rst = false ∧
    ({ inError with pending := [issue 0x05000000] } : State).pending = issue 0x05000000 :: [] ∧
    ({ inError with pending := [issue 0x05000000] } : State).regs.status.err = true ∧
    (0x05000000 : Word) ≠ 0x03000000 ∧ (0x05000000 : Word) ≠ 0x04000000 := ⟨rfl, rfl, rfl, by decide, by decide⟩
theorem witness_IllegalWordRaisesIllegalCommand :
    (waiting [issue 0x12100021]).rst = false ∧ (waiting [issue 0x12100021]).pending = issue 0x12100021 :: [] ∧
    (waiting [issue 0x12100021]).Ready ∧ (∀ r ∈ opcodeRows, r.selects 0x12100021 = false) := ⟨rfl, rfl, rfl, by decide⟩
theorem witness_ErrorEntryIsPrecise :
    State.reset.Ready ∧ ∃ t, runCommand 0x12100008 State.reset = .next t ∧ t.regs.status.err = true :=
  ⟨rfl, _, rfl, by decide⟩
theorem witness_ErrorStateIsLeftByClearsOnly :
    inError.regs.status.err = true ∧
    ∃ t, step { inError with pending := [issue 0x03000000] } = .next t ∧ t.regs.status.err = false := ⟨rfl, _, rfl, by decide⟩
theorem witness_StatusFieldsHaveTheirWriters :
    ∃ t, exec (.lapupd true) State.reset = .next t ∧ t.regs.status.prevValid ≠ State.reset.regs.status.prevValid ∧
      t.regs.status.prevBf ≠ State.reset.regs.status.prevBf := ⟨_, rfl, by decide, by decide⟩
theorem witness_StatusFieldsHaveTheirWriters_clears :
    ∃ t, exec .sreset { State.reset with regs.status := ⟨true, true, true, true, true, true⟩ } = .next t ∧
      t.regs.status.imdValid = false ∧ t.regs.status.curBf = false ∧ t.regs.status.drop = false ∧ t.regs.status.err = false :=
  ⟨_, rfl, rfl, rfl, rfl, rfl⟩
theorem witness_RegistersHaveTheirWriters :
    (∃ t, exec (.rdbits 1 8) (reader [0xA7] 0) = .next t ∧ (Instr.rdbits 1 8) ≠ .sreset ∧ t.reg 1 ≠ (reader [0xA7] 0).reg 1 ∧
      t.regs.bitpos ≠ (reader [0xA7] 0).regs.bitpos) ∧
    (∃ t, exec (.crcpage 1) pageState = .next t ∧ t.regs.crcAcc ≠ pageState.regs.crcAcc ∧
      t.regs.crcStored ≠ pageState.regs.crcStored) ∧
    (∃ t, exec (.bsinit 1) (State.reset.setReg 1 2) = .next t ∧ t.regs.bslen ≠ State.reset.regs.bslen) ∧
    (∃ t, exec (.rdcb 3 2) (withEntries 0 tableB (reader [0x1A] 0)) = .next t ∧ t.regs.hlen ≠ 0) ∧
    (∃ t, exec (.rdbool 1) State.reset = .next t ∧ t.regs.errCause ≠ State.reset.regs.errCause) :=
  ⟨⟨_, rfl, by decide, by decide, by decide⟩, ⟨_, rfl, by decide +kernel, by decide +kernel⟩, ⟨_, rfl, by decide⟩,
    ⟨_, rfl, by decide⟩, _, rfl, by decide⟩
theorem witness_MemoriesHaveTheirWriters :
    ∃ t, exec (.ola 0 1) ((olaState false false false).storeWords 0x028000 (List.replicate 32 0 ++ List.replicate 32 0x3F000000)
        |>.storeWords 0x080000 (List.replicate 32 0)) = .next t ∧ t.byteAt 0x080003 ≠
      (((olaState false false false).storeWords 0x028000 (List.replicate 32 0 ++ List.replicate 32 0x3F000000)
        |>.storeWords 0x080000 (List.replicate 32 0)).byteAt 0x080003) := ⟨_, rfl, by decide +kernel⟩

/-! ### Witnesses: the port -/

theorem witness_ReservedOffsetsReadZeroAndIgnoreWrites :
    ([0x01C, 0x02C, 0x03C, 0x048, 0x0FC, 0x140, 0xFFC] : List Addr).all (fun a => decide (a.toNat < 0x1000 ∧ a.toNat % 4 = 0 ∧
      a.toNat ∉ [0x000, 0x004, 0x008, 0x00C, 0x010, 0x014, 0x018, 0x020, 0x024, 0x028, 0x030, 0x034, 0x038, 0x040, 0x044] ∧
      ¬ (0x100 ≤ a.toNat ∧ a.toNat < 0x140))) = true := by decide +kernel
theorem witness_RefusedAccessIsAnsweredErrAndChangesNothing :
    Width.byte ≠ .word ∧ (0x000002 : Addr).toNat % 4 ≠ 0 ∧
    ([0x001000, 0x00FFFC, 0x03A000, 0x048000, 0x140000, 0x3FFFFC] : List Addr).all (fun a => decide (0x1000 ≤ a.toNat ∧
      ∀ m ∈ MemName.all, ¬ (m.base ≤ a.toNat ∧ a.toNat < m.base + m.size State.reset.cfg))) = true := by decide +kernel
theorem witness_AddressMapIsThatOfTheRule :
    Params.default.Valid ∧ Params.Valid ⟨4, 2, 1, .other 0⟩ ∧ Params.Valid ⟨8388608, 524288, 32, .binary32⟩ ∧ MemName.out ≠ .cb := by decide
theorem witness_HostWriteThenReadReturnsTheWord :
    State.reset.cfg.Valid ∧ ∀ p ∈ ([(.pg, 0x010000), (.pg, 0x01FFFC), (.bs, 0x800000), (.bs, 0xFFFFFC), (.cb, 0x7FFFFC)] :
      List (MemName × Addr)), p.2.toNat % 4 = 0 ∧ p.1.base ≤ p.2.toNat ∧ p.2.toNat < p.1.base + p.1.size State.reset.cfg := by
  decide
theorem witness_StepServesTheOldestHostAction :
    (waiting [.read .word 0]).rst = false ∧ (waiting [.read .word 0]).pending = .read .word 0 :: [] ∧
    (waiting [.write .half 4 5]).rst = false ∧ (waiting [.write .half 4 5]).pending = .write .half 4 5 :: [] ∧
    (waiting [.assertRst]).pending = .assertRst :: [] ∧ (waiting [.releaseRst]).pending = .releaseRst :: [] ∧
    State.reset.rst = false ∧ State.reset.pending = [] := ⟨rfl, rfl, rfl, rfl, rfl, rfl, rfl, rfl⟩

/-! ### Witnesses: the HUF unit -/

theorem witness_BsinitBindsTheReader :
    ((State.reset.setReg 1 0x00800000).reg 1).toNat ≤ (State.reset.setReg 1 0x00800000).cfg.bsBytes ∧
    (State.reset.setReg 1 0x00800001).cfg.bsBytes < ((State.reset.setReg 1 0x00800001).reg 1).toNat := by decide
theorem witness_BitReadsReturnTheStreamBits :
    32 ≤ 8 * (reader [1, 2, 3, 4] 0).regs.bslen.toNat - (reader [1, 2, 3, 4] 0).regs.bitpos.toNat ∧
    8 * (reader [1, 2, 3, 4] 1).regs.bslen.toNat - (reader [1, 2, 3, 4] 1).regs.bitpos.toNat < 32 ∧
    (Instr.rdbits 1 32 = .rdbits 1 (32 : BitVec 6) ∧ 32 = (32 : BitVec 6).toNat) ∧
    1 ≤ 8 * (reader [1] 7).regs.bslen.toNat - (reader [1] 7).regs.bitpos.toNat ∧
    8 * (reader [1] 8).regs.bslen.toNat - (reader [1] 8).regs.bitpos.toNat < 1 := by decide
theorem witness_SkipsAdvanceThePosition :
    Instr.skipi 8 = .skipi (8 : BitVec 16) ∧
    (8 : BitVec 16).toNat ≤ 8 * (reader [1] 0).regs.bslen.toNat - (reader [1] 0).regs.bitpos.toNat ∧
    8 * (reader [1] 0).regs.bslen.toNat - (reader [1] 0).regs.bitpos.toNat < (9 : BitVec 16).toNat ∧
    8 * ((reader [1] 0).setReg 3 0xFFFFFFFF).regs.bslen.toNat - ((reader [1] 0).setReg 3 0xFFFFFFFF).regs.bitpos.toNat <
      (((reader [1] 0).setReg 3 0xFFFFFFFF).reg 3).toNat := by decide

/-- The clauses: the base at `CB_ENTRIES`; a sentinel that is a value entry, one of width 0, one of width 33; a walk that ends in a
value, and one that raises. -/
theorem witness_RdcbWritesTheDecodedValue :
    (State.reset.setReg 2 524288).cfg.cbEntries ≤ ((State.reset.setReg 2 524288).reg 2).toNat ∧
    (State.reset.reg 2).toNat < State.reset.cfg.cbEntries ∧
    ((withEntries 0 [0x0000000000000002] State.reset).cbEntry 0).getLsbD 63 = false ∧
    (((withEntries 0 [0x8000000100000000] State.reset).cbEntry 0).extractLsb' 0 32).toNat = 0 ∧
    32 < (((withEntries 0 [0x8000000100000021] State.reset).cbEntry 0).extractLsb' 0 32).toNat ∧
    ((withEntries 0 tableB (reader [0x1A] 0)).cbEntry 0).getLsbD 63 = true ∧
    walk (withEntries 0 tableB (reader [0x1A] 0)) 0 9 2 1 0 0 = .value 0x41 1 ∧
    walk (withEntries 0 tableE (reader [0x03] 0)) 0 9 1 1 0 0 = .raised .decodeError 2 := by decide
theorem witness_RdcbLoopFollowsThePseudocode :
    ((0 = 0 ∨ 32 < 0) ∧ (33 = 0 ∨ 32 < 33)) ∧
    (withEntries 0 [0xFFFFFFFF00000001] (reader [1] 0)).cfg.cbEntries ≤
      0 + 0x7FFFFFFF + (withEntries 0 [0xFFFFFFFF00000001] (reader [1] 0)).peek 0 1 ∧
    (((withEntries 0 tableC (reader [0xEF] 0)).cbEntry (0 + 1 + (withEntries 0 tableC (reader [0xEF] 0)).peek 0 2)).getLsbD 63
      = true ∧ 0 + 2 ≤ (withEntries 0 tableC (reader [0xEF] 0)).rem) ∧
    (((withEntries 0 tableC (reader [0xEF] 7)).cbEntry 4).getLsbD 63 = true ∧
      (withEntries 0 tableC (reader [0xEF] 7)).rem < 0 + 2) ∧
    ((withEntries 0 tableE (reader [0x03] 0)).cbEntry (0 + 1 + (withEntries 0 tableE (reader [0x03] 0)).peek 0 1) = 0 ∧
      0 + 1 ≤ (withEntries 0 tableE (reader [0x03] 0)).rem ∧ (withEntries 0 tableE (reader [0x03] 8)).rem < 0 + 1) ∧
    (1 ≤ (((withEntries 0 tableB (reader [0x1A] 0)).cbEntry 1).extractLsb' 0 32).toNat ∧
      0 + 1 ≤ (withEntries 0 tableB (reader [0x1A] 0)).rem ∧ (withEntries 0 tableB (reader [0x1A] 8)).rem < 0 + 1) := by
  decide +kernel

/-- The same eight bits at another place of BSMEM. -/
theorem witness_RdcbDependsOnlyOnTheRemainingBits :
    (withEntries 0 tableB (reader [0x1A] 0)).cfg.cbEntries = (withEntries 0 tableB (reader [0xFF, 0x1A] 8)).cfg.cbEntries ∧
    (∀ i < (withEntries 0 tableB (reader [0x1A] 0)).cfg.cbEntries,
      (withEntries 0 tableB (reader [0xFF, 0x1A] 8)).cbEntry i = (withEntries 0 tableB (reader [0x1A] 0)).cbEntry i) ∧
    (withEntries 0 tableB (reader [0xFF, 0x1A] 8)).rem = (withEntries 0 tableB (reader [0x1A] 0)).rem ∧
    (∀ j < (withEntries 0 tableB (reader [0x1A] 0)).rem,
      (withEntries 0 tableB (reader [0xFF, 0x1A] 8)).bit (8 + j) = (withEntries 0 tableB (reader [0x1A] 0)).bit (0 + j)) := by
  refine ⟨rfl, fun i hi => ?_, by decide, by decide⟩
  have e : ∀ x < 0x800000, (withEntries 0 tableB (reader [0xFF, 0x1A] 8)).byteAt x =
      (withEntries 0 tableB (reader [0x1A] 0)).byteAt x := fun x hx => by
    have h : ¬ 0x800000 ≤ x := by omega
    simp only [State.byteAt, withEntries, State.storeWords, reader, withBytes, get?_store, h, false_and, if_false]
  have hi' : i < 524288 := hi
  simp only [State.cbEntry, MemName.base]
  rw [wordAt_congr _ fun k hk => e _ (by omega), wordAt_congr _ fun k hk => e _ (by omega)]
theorem witness_ReaderPositionLaws :
    (reader [1, 2] 0).cfg.Valid ∧ (reader [1, 2] 0).ReaderInv ∧ (reader [1, 2] 0).Ready ∧
    (5 : BitVec 6).toNat + (11 : BitVec 6).toNat ≤ 32 ∧ (16 : BitVec 6).toNat = (5 : BitVec 6).toNat + (11 : BitVec 6).toNat ∧
    (16 : BitVec 6).toNat ≤ (reader [1, 2] 0).rem ∧
    (∃ t u, exec (.skipi ((5 : BitVec 6).setWidth 16)) (reader [1, 2] 0) = .next t ∧ exec (.rdbits 1 11) t = .next u) ∧
    (∃ t u, exec (.rdbits 1 5) (reader [1, 2] 0) = .next t ∧ exec (.rdbits 1 11) t = .next u) ∧
    (∃ v, exec (.rdbits 1 16) (reader [1, 2] 0) = .next v) ∧ (∀ rs, Instr.rdbits 1 16 ≠ .bsinit rs) ∧
    Instr.rdbits 1 16 ≠ .sreset := by
  refine ⟨by decide, ⟨by decide, by decide⟩, rfl, by decide, by decide, by decide, ⟨_, _, rfl, rfl⟩, ⟨_, _, rfl, rfl⟩,
    ⟨_, rfl⟩, fun rs => by simp, by simp⟩

/-- Table C is well formed: two blocks, the second named by slot 3 of the first. -/
theorem tableC_wellFormed : WellFormedTable tableC [⟨1, 2⟩, ⟨5, 2⟩] where
  root := ⟨⟨1, 2⟩, [⟨5, 2⟩], rfl, by unfold namesBlock; decide⟩
  bounds := by decide
  disjoint := by decide
  cover := by
    intro i h1 h2
    have h2' : i < 9 := h2
    by_cases h : i < 5
    · exact ⟨⟨1, 2⟩, by simp, h1, by simp only [Block.stop]; omega⟩
    · exact ⟨⟨5, 2⟩, by simp, by simp only; omega, by simp only [Block.stop]; omega⟩
  slots := by
    unfold SlotOk namesBlock
    decide
  rootUnnamed := by
    unfold namesBlock
    decide
  childNamed := by
    intro k c hk hc
    match k, hk, hc with
    | 1, _, hc =>
      obtain rfl : (⟨5, 2⟩ : Block) = c := by simpa using hc
      refine ⟨0, ⟨1, 2⟩, 3, by decide, rfl, by decide, by unfold namesBlock; decide, ?_⟩
      unfold namesBlock
      decide
    | k + 2, _, hc => simp at hc
  used := by decide

/-- Table E is well formed for its code: one codeword, `0`, with value 7. -/
theorem tableE_wellFormedFor : WellFormedFor tableE [⟨1, 1⟩] [⟨0, 1, 7⟩] := by
  refine ⟨⟨⟨⟨1, 1⟩, [], rfl, by unfold namesBlock; decide⟩, by decide, by decide, fun i h1 h2 => ?_,
    by unfold SlotOk namesBlock; decide, by unfold namesBlock; decide, fun k c hk hc => ?_, by decide⟩, fun code v => ⟨fun h => ?_, ?_⟩⟩
  · have h2' : i < 3 := h2
    exact ⟨⟨1, 1⟩, by simp, h1, by simp only [Block.stop]; omega⟩
  · match k, hk, hc with
    | k + 1, _, hc => simp at hc
  · have h' : CodeOf tableE 1 1 code v := h
    cases h' with
    | leaf off width idx inBlock isValue used =>
      match idx, inBlock, used with
      | 0, _, _ => decide
      | 1, _, used => exact absurd used (by decide)
    | jump off width idx code v inBlock isJump below =>
      match idx, inBlock, isJump with
      | 0, _, isJump => exact absurd isJump (by decide)
      | 1, _, isJump => exact absurd isJump (by decide)
  · simp only [List.mem_singleton, exists_eq_left]
    rintro ⟨-, rfl, rfl⟩
    exact CodeOf.leaf 1 1 0 (by decide) (by decide) (by decide)

/-- The codeword `1111` of table C. -/
theorem tableC_code_14 : TableCode tableC [true, true, true, true] 14 :=
  .jump 1 2 3 [true, true] 14 (by decide) (by decide) (.leaf 5 2 3 (by decide) (by decide) (by decide))

/-- Its last clause: the stream bit 0 in front of table E. -/
theorem witness_RdcbIsPrefixDecoding_code :
    (withEntries 0 tableE (reader [0xFE] 0)).holdsTable ((withEntries 0 tableE (reader [0xFE] 0)).reg 2).toNat tableE ∧
    WellFormedFor tableE [⟨1, 1⟩] [⟨0, 1, 7⟩] ∧ 1 ≤ (withEntries 0 tableE (reader [0xFE] 0)).rem ∧
    (withEntries 0 tableE (reader [0xFE] 0)).streamBits 0 1 = codewordBits 0 1 :=
  ⟨⟨by decide, by decide⟩, tableE_wellFormedFor, by decide, by decide⟩

/-- The first three clauses: the codeword `1111` in front, nothing left, three ones left. -/
theorem witness_RdcbIsPrefixDecoding :
    WellFormedTable tableC [⟨1, 2⟩, ⟨5, 2⟩] ∧
    ((withEntries 0 tableC (reader [0xEF] 0)).holdsTable ((withEntries 0 tableC (reader [0xEF] 0)).reg 2).toNat tableC ∧
      TableCode tableC [true, true, true, true] 14 ∧
      [true, true, true, true].length ≤ (withEntries 0 tableC (reader [0xEF] 0)).rem ∧
      (withEntries 0 tableC (reader [0xEF] 0)).streamBits 0 4 = [true, true, true, true]) ∧
    ((withEntries 0 tableC (reader [0xEF] 8)).holdsTable ((withEntries 0 tableC (reader [0xEF] 8)).reg 2).toNat tableC ∧
      ∀ code v, TableCode tableC code v → code.length ≤ (withEntries 0 tableC (reader [0xEF] 8)).rem →
        (withEntries 0 tableC (reader [0xEF] 8)).streamBits 8 code.length ≠ code) ∧
    ((withEntries 0 tableC (reader [0xEF] 5)).holdsTable ((withEntries 0 tableC (reader [0xEF] 5)).reg 2).toNat tableC ∧
      (withEntries 0 tableC (reader [0xEF] 5)).rem < [true, true, true, true].length ∧
      (withEntries 0 tableC (reader [0xEF] 5)).streamBits 5 3 = [true, true, true, true].take 3) := by
  refine ⟨tableC_wellFormed, ⟨⟨by decide, by decide⟩, tableC_code_14, by decide, by decide⟩, ⟨⟨by decide, by decide⟩, ?_⟩,
    ⟨by decide, by decide⟩, by decide, by decide⟩
  intro code v h hl
  have h0 : (withEntries 0 tableC (reader [0xEF] 8)).rem = 0 := by decide
  rw [h0] at hl
  exfalso
  cases h with
  | leaf off width idx _ _ used => simp [lowBits] at hl; omega
  | jump off width idx code v _ _ _ =>
    simp only [List.length_append, lowBits, List.length_map, List.length_range] at hl
    have : Entry.len (tableAt tableC 0) = 2 := by decide
    omega
theorem witness_CanonicalCodewordsAreTheLowestFree :
    canonicalCodewords [2, 0, 2, 1] = some [some ⟨0, 2⟩, none, some ⟨1, 2⟩, some ⟨1, 1⟩] ∧
    canonicalCodewords [1, 2, 0, 2, 3] = none ∧
    (canonicalCodewords ([1, 2, 0, 2, 3].take 4) = some [some ⟨0, 1⟩, some ⟨2, 2⟩, none, some ⟨3, 2⟩] ∧
      ∀ code < 2 ^ 3, ∃ d ∈ ([⟨0, 1⟩, ⟨2, 2⟩, ⟨3, 2⟩] : List Codeword), d.clashes ⟨code, 3⟩ = true) := by decide +kernel

/-! ### Witnesses: the CRC unit -/

theorem witness_CrcLaws : [(1 : Byte), 2].length = [(3 : Byte), 4].length := rfl
theorem witness_CrcfeedFeedsTheRange :
    (((State.reset.setReg 1 65536).reg 1).toNat ≤ 65536 ∧ ((State.reset.setReg 1 65536).reg 2).toNat ≤ 65536 - 65536) ∧
    65536 < ((State.reset.setReg 1 65537).reg 1).toNat ∧
    (((State.reset.setReg 1 65536).setReg 2 1).reg 1).toNat ≤ 65536 ∧
    65536 - 65536 < (((State.reset.setReg 1 65536).setReg 2 1).reg 2).toNat := by decide
theorem witness_CrcrstClearsAndCrccmpCompares :
    State.reset.regs.crcAcc = State.reset.reg 2 ∧
    (State.reset.setReg 2 1).regs.crcAcc ≠ (State.reset.setReg 2 1).reg 2 := by decide
theorem witness_CrcpageChecksThePage :
    pageState.pageCrc = pageState.pageStored ∧
    (withBytes 0x01001C [0x69] pageState).pageCrc ≠ (withBytes 0x01001C [0x69] pageState).pageStored := by decide +kernel

/-! ### Witnesses: numbers -/

/-- A finite result, an overflow, a subnormal; 1.5, the largest finite number and the smallest subnormal as operands. -/
theorem witness_RoundingIsToNearestEven :
    fIsFinite 0x3FC00000 = true ∧ fIsFinite 0x7F7FFFFF = true ∧ fIsFinite 0x00000001 = true ∧
    fIsFinite (fmul 0x3FC00000 0x3FC00000) = true ∧ fIsInf (fmul 0x7F7FFFFF 0x3FC00000) = true ∧
    fIsFinite (fadd 0x00000001 0x80000002) = true ∧ fIsInf (fsub 0x7F7FFFFF 0xFF7FFFFF) = true ∧
    fIsInf (fadd 0xFF7FFFFF 0xFF7FFFFF) = true ∧ (fIsInf 0xFF800000 = true ∧ fMag 0x80000001 ≠ 0) ∧
    fSign 0x7F800000 ≠ fSign 0xFF800000 := by decide +kernel
theorem witness_NansAndNegation :
    (fIsNan 0x7FC00000 = true ∧ fIsNan 0xFF800001 = true ∧ fIsNan 0x7F800000 = false) ∧
    (fIsInf 0xFF800000 = true ∧ fIsInf 0x7F800000 = true ∧ fSign 0xFF800000 ≠ fSign 0x7F800000) ∧
    fSign 0xFF800000 = fSign 0xFF800000 ∧ fMag 0x80000000 = 0 ∧ fMag 0x00000000 = 0 := by decide
theorem witness_ClampBoundsEverySample :
    (fIsFinite 0x3F800001 = true ∧ 2 ^ 149 < fValue 0x3F800001) ∧ (fIsFinite 0xBF800001 = true ∧ fValue 0xBF800001 < -2 ^ 149) ∧
    (fIsFinite 0x3F800000 = true ∧ -2 ^ 149 ≤ fValue 0x3F800000 ∧ fValue 0x3F800000 ≤ 2 ^ 149) ∧
    (fIsFinite 0xBF800000 = true ∧ -2 ^ 149 ≤ fValue 0xBF800000) ∧ fIsNan 0x7FC00000 = true := by decide +kernel

/-! ### Witnesses: the IMDCT unit -/

theorem witness_ImdctWritesOneBlock :
    ({ State.reset with regs.bsexp := 0x66 } : State).configValid ∧ ({ State.reset with regs.bsexp := 0xDD } : State).configValid ∧
    ¬ State.reset.configValid ∧ ¬ ({ State.reset with regs.bsexp := 0x5A } : State).configValid ∧
    ¬ ({ State.reset with regs.bsexp := 0xE6 } : State).configValid := by decide
theorem witness_ScatterFollowsTheTwoLoops : Nonempty (Inhabited Word) ∧ Nonempty (Numerics Word) ∧ 1 ≤ 4 ∧ 7 < 2 ^ 4 / 2 :=
  ⟨⟨inferInstance⟩, ⟨State.reset.numerics⟩, by decide, by decide⟩
theorem witness_PackingAndNetworkFollowThePseudocode :
    Nonempty (Inhabited Word) ∧ Nonempty (Arithmetic Word) ∧ 11 ≤ 11 ∧ 2 ^ 11 - 1 < 2 ^ 11 ∧ 1 ≤ 11 ∧
    (1024 % 2 ^ 10 = 0 ∧ 1024 < 2 ^ 11 ∧ 511 < 2 ^ 10 / 2) :=
  ⟨⟨inferInstance⟩, ⟨binary32⟩, by decide, by decide, by decide, by decide, by decide, by decide⟩
theorem witness_ImdctOutputIsSymmetric :
    ({ State.reset with regs.bsexp := 0x66 } : State).configValid ∧
    ∃ t, exec (.imdct true) { State.reset with regs.bsexp := 0x66 } = .next t := by
  refine ⟨by decide, ?_⟩
  obtain ⟨e, he⟩ := exec_eq_commit (.imdct true) { State.reset with regs.bsexp := 0x66 }
  exact ⟨_, he⟩

/-- Exact arithmetic. -/
noncomputable def exactArithmetic : Arithmetic ℝ := ⟨(· + ·), (· - ·), (· * ·), (- ·)⟩

theorem witness_NetworkComputesTheForwardTransform :
    (∀ a b, exactArithmetic.add a b = a + b) ∧ (∀ a b, exactArithmetic.sub a b = a - b) ∧ (∀ a b, exactArithmetic.mul a b = a * b) ∧
    (∃ fw : Nat → Cplx ℝ,
      ∀ k < 1024, fw k = ⟨Real.cos (2 * Real.pi * k / 2048), -Real.sin (2 * Real.pi * k / 2048)⟩) ∧
    11 ≤ 11 ∧ ([⟨1, 0⟩, ⟨0, 1⟩] : List (Cplx ℝ)).length = 2 ^ 1 :=
  ⟨fun _ _ => rfl, fun _ _ => rfl, fun _ _ => rfl, ⟨_, fun _ _ => rfl⟩, by decide, rfl⟩
theorem witness_ThreeStepsComputeTheInverseMdct :
    (∀ a b, exactArithmetic.add a b = a + b) ∧ (∀ a b, exactArithmetic.sub a b = a - b) ∧ (∀ a b, exactArithmetic.mul a b = a * b) ∧
    (∀ a, exactArithmetic.neg a = -a) ∧
    (∃ fw : Nat → Cplx ℝ,
      ∀ k < 1024, fw k = ⟨Real.cos (2 * Real.pi * k / 2048), -Real.sin (2 * Real.pi * k / 2048)⟩) ∧
    (0 : ℝ) < 1 ∧ 4 ≤ 4 ∧ 4 ≤ 11 ∧
    (∃ tw : Nat → Cplx ℝ, ∀ k < 2 ^ 4,
      tw k = ⟨Real.sqrt 1 * Real.cos (Real.pi / (2 * 2 ^ 4 : Nat) * (k + 1 / 8)),
        Real.sqrt 1 * Real.sin (Real.pi / (2 * 2 ^ 4 : Nat) * (k + 1 / 8))⟩) :=
  ⟨fun _ _ => rfl, fun _ _ => rfl, fun _ _ => rfl, fun _ => rfl, ⟨_, fun _ _ => rfl⟩, one_pos, by decide, by decide,
    ⟨_, fun _ _ => rfl⟩⟩

/-! ### Witnesses: the OLA unit -/

/-- Channel 7 and slot 7, the last ones of the default parameters. -/
def olaTop (prevValid prevBf curBf : Bool) : State := ((olaState prevValid prevBf curBf).setReg 0 7).setReg 1 7

theorem witness_FirstPacketYieldsNoFrames :
    (olaTop false false true).configValid ∧ (olaTop false false true).regs.status.imdValid = true ∧
    (olaTop false false true).regs.status.prevValid = false ∧
    ((olaTop false false true).reg 0).toNat < (olaTop false false true).cfg.maxCh ∧
    ((olaTop false false true).reg 1).toNat < (olaTop false false true).cfg.maxCh := by decide
theorem witness_EqualBlocksOverlapWhole :
    (olaTop true true true).cfg.Valid ∧ (olaTop true true true).configValid ∧
    (olaTop true true true).regs.status.imdValid = true ∧ (olaTop true true true).regs.status.prevValid = true ∧
    ((olaTop true true true).reg 0).toNat < (olaTop true true true).cfg.maxCh ∧
    ((olaTop true true true).reg 1).toNat < (olaTop true true true).cfg.maxCh ∧
    (olaTop true true true).blockSize (olaTop true true true).regs.status.prevBf =
      (olaTop true true true).blockSize (olaTop true true true).regs.status.curBf := by decide
theorem witness_LongThenShortOverlap :
    (olaTop true true false).cfg.Valid ∧ (olaTop true true false).configValid ∧
    (olaTop true true false).regs.status.imdValid = true ∧ (olaTop true true false).regs.status.prevValid = true ∧
    ((olaTop true true false).reg 0).toNat < (olaTop true true false).cfg.maxCh ∧
    ((olaTop true true false).reg 1).toNat < (olaTop true true false).cfg.maxCh ∧
    (olaTop true true false).blockSize (olaTop true true false).regs.status.curBf <
      (olaTop true true false).blockSize (olaTop true true false).regs.status.prevBf := by decide
theorem witness_ShortThenLongOverlap :
    (olaTop true false true).cfg.Valid ∧ (olaTop true false true).configValid ∧
    (olaTop true false true).regs.status.imdValid = true ∧ (olaTop true false true).regs.status.prevValid = true ∧
    ((olaTop true false true).reg 0).toNat < (olaTop true false true).cfg.maxCh ∧
    ((olaTop true false true).reg 1).toNat < (olaTop true false true).cfg.maxCh ∧
    (olaTop true false true).blockSize (olaTop true false true).regs.status.prevBf <
      (olaTop true false true).blockSize (olaTop true false true).regs.status.curBf := by decide
theorem witness_OlaSavesTheOverlapAndKeepsTheRest :
    (olaTop true false true).cfg.Valid ∧ (olaTop true false true).configValid ∧
    (olaTop true false true).regs.status.imdValid = true ∧
    ((olaTop true false true).reg 0).toNat < (olaTop true false true).cfg.maxCh ∧
    ((olaTop true false true).reg 1).toNat < (olaTop true false true).cfg.maxCh := by decide
theorem witness_OlaTestsInOrder :
    ¬ State.reset.configValid ∧
    (({ State.reset with regs.bsexp := 0x66 } : State).configValid ∧
      ({ State.reset with regs.bsexp := 0x66 } : State).regs.status.imdValid = false) ∧
    ((olaState true false false).configValid ∧ (olaState true false false).regs.status.imdValid = true ∧
      ((olaState true false false).setReg 0 8).cfg.maxCh ≤ (((olaState true false false).setReg 0 8).reg 0).toNat) ∧
    (((olaState true false false).setReg 1 8).reg 0).toNat < ((olaState true false false).setReg 1 8).cfg.maxCh ∧
    ((olaState true false false).setReg 1 8).cfg.maxCh ≤ (((olaState true false false).setReg 1 8).reg 1).toNat := by decide
theorem witness_EachResultIsConsumedOnce :
    (olaState false false false).Ready ∧ ∃ t, exec (.ola 0 1) (olaState false false false) = .next t ∧ t.Ready := by
  refine ⟨rfl, ?_⟩
  have h2 : ¬ ((olaState false false false).cfg.maxCh ≤ (olaState false false false).operand 0) := by decide
  have h3 : ¬ ((olaState false false false).cfg.maxCh ≤ (olaState false false false).operand 1) := by decide
  have h4 : (olaState false false false).regs.status.imdValid = true := rfl
  simp only [exec, execOla, h2, h3, h4, if_false, Bool.true_eq_false, settle_eq]
  exact ⟨_, rfl, rfl⟩

/-! ### Witnesses: reset and the invariant -/

theorem witness_HardResetLeavesTheResetValues :
    (({ inError with rst := true, pending := [.read .word 8, .releaseRst] } : State).rst = true ∧
      ({ inError with rst := true, pending := [.read .word 8, .releaseRst] } : State).pending =
        [.read .word 8] ++ .releaseRst :: []) ∧
    ({ inError with rst := true, pending := [.read .word 8, .assertRst] } : State).pending =
      [.read .word 8] ++ .assertRst :: [] ∧
    HostAction.assertRst ∉ [HostAction.read .word 8] ∧ HostAction.releaseRst ∉ [HostAction.read .word 8] ∧
    ({ inError with rst := true, pending := [.read .word 8] } : State).pending = [.read .word 8] := by decide

/-- The reset state with a command waiting meets the invariant, and steps. -/
theorem witness_EveryStepKeepsTheInvariant :
    (waiting [issue 0x32000001]).Inv ∧ ∃ t, step (waiting [issue 0x32000001]) = .next t ∧ t.regs.status.prevBf = true := by
  refine ⟨⟨by decide, ⟨wf_empty, by simp [waiting, State.reset]⟩, ⟨by decide, by decide⟩, emptyAt_holds (by decide),
    ⟨fun _ => ⟨rfl, rfl, rfl, rfl⟩, fun h => by cases h⟩, fun _ => rfl, by decide, by decide, .inl rfl⟩, _, rfl, rfl⟩

end Sys2Proof.Tests
end

/-! SUPPORT and PROOFS. The state's family: what a command can leave behind, said once (`ExecResult`), and from it who writes
which register and memory, what the register window answers, and that every step keeps the invariant. -/

namespace Sys2Proof.Machine

/-! ### What a command can leave behind (40_sys R105 step 4) -/

/-- `ExecResult s i t`: command `i`, run from `s`, ends in `t`. One constructor for the error entry of any command, one per
command for the writes of its rule, under the tests the rule has passed. -/
inductive ExecResult (s : State) : Instr → State → Prop where
  | raised {i : Instr} {c : Cause} {info : Nat} (hc : c ≠ .none) : ExecResult s i (raise c info (encode i) s)
  | nop : ExecResult s .nop s
  | li (rd : Reg) (imm : BitVec 16) : ExecResult s (.li rd imm) (s.setReg rd (wordOf imm.toNat))
  | lih (rd : Reg) (imm : BitVec 16) :
      ExecResult s (.lih rd imm) (s.setReg rd (wordOf (imm.toNat * 2 ^ 16 + bits (s.reg rd) 0 16)))
  | errclr : ExecResult s .errclr (errorReturn s)
  | sreset : ExecResult s .sreset (softReset s)
  | bsinit (rs : Reg) (hlen : s.operand rs ≤ s.cfg.bsBytes) : ExecResult s (.bsinit rs)
      { s with regs.bslen := wordOf (s.operand rs), regs.bitpos := 0, cache := BitCache.emptyAt 0 }
  | rdbool (rd : Reg) (hn : 1 ≤ s.rem) :
      ExecResult s (.rdbool rd) ((s.setReg rd (wordOf (s.take s.regs.bitpos.toNat 1))).consume 1)
  | rdbits (rd : Reg) (n : BitVec 6) (hn : n.toNat ≤ s.rem) :
      ExecResult s (.rdbits rd n) ((s.setReg rd (wordOf (s.take s.regs.bitpos.toNat n.toNat))).consume n.toNat)
  | skipi (imm : BitVec 16) (hn : imm.toNat ≤ s.rem) : ExecResult s (.skipi imm) (s.skipBits imm.toNat)
  | skip (rs : Reg) (hn : s.operand rs ≤ s.rem) : ExecResult s (.skip rs) (s.skipBits (s.operand rs))
  | rdcb (rd rs : Reg) {payload n : Nat} (hd : decodeCode s (s.operand rs) = .value payload n) :
      ExecResult s (.rdcb rd rs) { (s.setReg rd (wordOf payload)).consume n with regs.hlen := wordOf n }
  | crcrst : ExecResult s .crcrst { s with regs.crcAcc := 0 }
  | crcfeed (rs rt : Reg) : ExecResult s (.crcfeed rs rt)
      { s with regs.crcAcc := crc s.regs.crcAcc (s.pgBytes (s.operand rs) (s.operand rt)) }
  | crccmp (rs : Reg) : ExecResult s (.crccmp rs) s
  | crcpage (rd : Reg) : ExecResult s (.crcpage rd) { s.setReg rd (wordOf s.pageTotal) with
      regs.crcAcc := s.pageCrc
      regs.crcStored := s.pageStored
      regs.pgLen := wordOf s.pageTotal }
  | imdct (bf : Bool) (hv : s.configValid) : ExecResult s (.imdct bf)
      { (s.storeWords MemName.imd.base (s.imdctSamples bf)).setImdResult bf with draws.scratch := s.draws.scratch + 1 }
  | ola (rs rt : Reg) (hv : s.configValid) (hch : s.operand rs < s.cfg.maxCh) (hslot : s.operand rt < s.cfg.maxCh) :
      ExecResult s (.ola rs rt)
        { ((s.storeWords (outSlot (s.operand rt)) (s.olaSamples (s.operand rs))).storeWords (ovlBank (s.operand rs))
            s.olaSaved).consumeImdResult with
          regs.outLen := wordOf (s.olaSamples (s.operand rs)).length }
  | lapupd (bf : Bool) : ExecResult s (.lapupd bf) (s.setLapping bf)
  | laprst : ExecResult s .laprst s.clearLapping

/-- A walk raises some cause. -/
theorem walk_cause_ne_none {s : State} {base fuel width off src consumed info : Nat} {c : Cause}
    (h : walk s base fuel width off src consumed = .raised c info) : c ≠ .none := by
  rcases walk_cause h with rfl | rfl | rfl | rfl <;> decide

/-- The decode raises some cause. -/
theorem decodeCode_cause_ne_none {s : State} {base info : Nat} {c : Cause} (h : decodeCode s base = .raised c info) :
    c ≠ .none := by
  unfold decodeCode at h
  simp only at h
  split at h
  · cases h
    decide
  split at h
  · exact walk_cause_ne_none h
  · cases h
    decide

/-- A read that commits: the error of a short stream, or the read itself. -/
theorem commit_readBits {s : State} {i : Instr} {rd : Reg} {n : Nat}
    (hdone : n ≤ s.rem → ExecResult s i ((s.setReg rd (wordOf (s.take s.regs.bitpos.toNat n))).consume n)) :
    ExecResult s i (commit i s (readBits rd n s)) := by
  rcases readBits_cases s rd n with ⟨-, e⟩ | ⟨hn, e⟩ <;> rw [e]
  · exact .raised (by decide)
  · exact hdone hn

/-- A skip that commits: the error of a short stream, or the skip itself. -/
theorem commit_ignoreBits {s : State} {i : Instr} {n : Nat} (hdone : n ≤ s.rem → ExecResult s i (s.skipBits n)) :
    ExecResult s i (commit i s (ignoreBits n s)) := by
  rcases ignoreBits_cases s n with ⟨-, e⟩ | ⟨hn, e⟩ <;> rw [e]
  · exact .raised (by decide)
  · exact hdone hn

/-- Every command ends as `ExecResult` says. -/
theorem exec_result {i : Instr} {s t : State} (h : exec i s = .next t) : ExecResult s i t := by
  cases i with
  | nop => cases h; exact .nop
  | li rd imm => cases h; exact .li rd imm
  | lih rd imm => cases h; exact .lih rd imm
  | errclr => cases h; exact .errclr
  | sreset => cases h; exact .sreset
  | bsinit rs =>
    cases h
    dsimp only
    split
    · exact .raised (by decide)
    · exact .bsinit rs (by omega)
  | rdbool rd => cases h; exact commit_readBits (.rdbool rd)
  | rdbits rd n => cases h; exact commit_readBits (.rdbits rd n)
  | skipi imm => cases h; exact commit_ignoreBits (.skipi imm)
  | skip rs => cases h; exact commit_ignoreBits (.skip rs)
  | rdcb rd rs =>
    cases hd : decodeCode s (s.operand rs) with
    | value payload n => rw [exec_rdcb_value hd] at h; cases h; exact .rdcb rd rs hd
    | raised c info => rw [exec_rdcb_raised hd] at h; cases h; exact .raised (decodeCode_cause_ne_none hd)
  | crcrst => cases h; exact .crcrst
  | crcfeed rs rt =>
    cases h
    dsimp only
    split
    · exact .raised (by decide)
    split
    · exact .raised (by decide)
    · exact .crcfeed rs rt
  | crccmp rs =>
    cases h
    split
    · exact .raised (by decide)
    · exact .crccmp rs
  | crcpage rd =>
    cases h
    split
    · exact .raised (by decide)
    · exact .crcpage rd
  | imdct bf =>
    cases h
    split
    · exact .raised (by decide)
    · rename_i hv
      exact .imdct bf (not_not.1 hv)
  | ola rs rt =>
    cases h
    dsimp only
    split
    · exact .raised (by decide)
    rename_i hv
    split
    · exact .raised (by decide)
    split
    · exact .raised (by decide)
    split
    · exact .raised (by decide)
    · exact .ola rs rt (not_not.1 hv) (by omega) (by omega)
  | lapupd bf => cases h; exact .lapupd bf
  | laprst => cases h; exact .laprst

/-! ### The writers of the registers (10_state R11, R17 to R23)

In each proof the commands that write the register are named, and every other one leaves it as it was. -/

section Writers

variable {s t : State} {i : Instr}

/-- R17: the writers of IMDVALID. -/
theorem ExecResult.imdValid_writer (h : ExecResult s i t) (hne : t.regs.status.imdValid ≠ s.regs.status.imdValid) :
    (∃ bf, i = .imdct bf) ∨ (∃ rs rt, i = .ola rs rt) ∨ i = .sreset := by
  cases h with
  | imdct bf => exact .inl ⟨bf, rfl⟩
  | ola rs rt => exact .inr (.inl ⟨rs, rt, rfl⟩)
  | sreset => exact .inr (.inr rfl)
  | _ => exact absurd rfl hne

/-- R17: the writers of CURBF. -/
theorem ExecResult.curBf_writer (h : ExecResult s i t) (hne : t.regs.status.curBf ≠ s.regs.status.curBf) :
    (∃ bf, i = .imdct bf) ∨ i = .sreset := by
  cases h with
  | imdct bf => exact .inl ⟨bf, rfl⟩
  | sreset => exact .inr rfl
  | _ => exact absurd rfl hne

/-- R17: the writers of PREV_VALID and PREV_BF. -/
theorem ExecResult.lapping_writer (h : ExecResult s i t)
    (hne : t.regs.status.prevValid ≠ s.regs.status.prevValid ∨ t.regs.status.prevBf ≠ s.regs.status.prevBf) :
    (∃ bf, i = .lapupd bf) ∨ i = .laprst ∨ i = .sreset := by
  cases h with
  | lapupd bf => exact .inl ⟨bf, rfl⟩
  | laprst => exact .inr (.inl rfl)
  | sreset => exact .inr (.inr rfl)
  | _ => exact hne.elim (absurd rfl) (absurd rfl)

/-- R17: the commands that write DROP when they run. -/
theorem ExecResult.drop_writer (h : ExecResult s i t) (hne : t.regs.status.drop ≠ s.regs.status.drop) :
    i = .errclr ∨ i = .sreset := by
  cases h with
  | errclr => exact .inl rfl
  | sreset => exact .inr rfl
  | _ => exact absurd rfl hne

/-- R17, R250: the commands that clear ERR. -/
theorem ExecResult.err_clearer (h : ExecResult s i t) (hs : s.regs.status.err = true)
    (ht : t.regs.status.err = false) : i = .errclr ∨ i = .sreset := by
  cases h with
  | raised => exact absurd ht (by simp)
  | errclr => exact .inl rfl
  | sreset => exact .inr rfl
  | _ => exact absurd (hs.symm.trans ht) (by decide)

/-- A write of `rd` changes no other operand register. -/
theorem eq_of_setReg_ne {rd r : Reg} {v : Word} (hne : (s.setReg rd v).reg r ≠ s.reg r) : r = rd :=
  by_contra fun hr => hne (reg_setReg_other s rd r v hr)

/-- R11: an operand register is written as the `rd` of a command that has one. -/
theorem ExecResult.reg_writer (h : ExecResult s i t) (hi : i ≠ .sreset) {r : Reg} (hne : t.reg r ≠ s.reg r) :
    (∃ imm, i = .li r imm) ∨ (∃ imm, i = .lih r imm) ∨ i = .rdbool r ∨ (∃ n, i = .rdbits r n) ∨
    (∃ rs, i = .rdcb r rs) ∨ i = .crcpage r := by
  cases h with
  | li rd | lih rd | rdbool rd | rdbits rd | rdcb rd | crcpage rd =>
    obtain rfl := eq_of_setReg_ne hne
    simp
  | sreset => exact absurd rfl hi
  | _ => exact absurd rfl hne

/-- R19, R22: no command but `SRESET` writes CTRL or BSEXP. -/
theorem ExecResult.control_unchanged (h : ExecResult s i t) (hi : i ≠ .sreset) :
    t.regs.ie = s.regs.ie ∧ t.regs.bsexp = s.regs.bsexp := by
  cases h with
  | sreset => exact absurd rfl hi
  | _ => exact ⟨rfl, rfl⟩

/-- R20: the writers of BSLEN. -/
theorem ExecResult.bslen_writer (h : ExecResult s i t) (hi : i ≠ .sreset) (hne : t.regs.bslen ≠ s.regs.bslen) :
    ∃ rs, i = .bsinit rs := by
  cases h with
  | bsinit rs => exact ⟨rs, rfl⟩
  | sreset => exact absurd rfl hi
  | _ => exact absurd rfl hne

/-- R20: the writers of BITPOS. -/
theorem ExecResult.bitpos_writer (h : ExecResult s i t) (hi : i ≠ .sreset) (hne : t.regs.bitpos ≠ s.regs.bitpos) :
    (∃ rs, i = .bsinit rs) ∨ (∃ rd, i = .rdbool rd) ∨ (∃ rd n, i = .rdbits rd n) ∨ (∃ imm, i = .skipi imm) ∨
    (∃ rs, i = .skip rs) ∨ (∃ rd rs, i = .rdcb rd rs) := by
  cases h with
  | bsinit | rdbool | rdbits | skipi | skip | rdcb => simp
  | sreset => exact absurd rfl hi
  | _ => exact absurd rfl hne

/-- R20: the writers of HLEN. -/
theorem ExecResult.hlen_writer (h : ExecResult s i t) (hi : i ≠ .sreset) (hne : t.regs.hlen ≠ s.regs.hlen) :
    ∃ rd rs, i = .rdcb rd rs := by
  cases h with
  | rdcb rd rs => exact ⟨rd, rs, rfl⟩
  | sreset => exact absurd rfl hi
  | _ => exact absurd rfl hne

/-- R21: the writers of CRCACC. -/
theorem ExecResult.crcAcc_writer (h : ExecResult s i t) (hi : i ≠ .sreset) (hne : t.regs.crcAcc ≠ s.regs.crcAcc) :
    i = .crcrst ∨ (∃ rs rt, i = .crcfeed rs rt) ∨ ∃ rd, i = .crcpage rd := by
  cases h with
  | crcrst => exact .inl rfl
  | crcfeed rs rt => exact .inr (.inl ⟨rs, rt, rfl⟩)
  | crcpage rd => exact .inr (.inr ⟨rd, rfl⟩)
  | sreset => exact absurd rfl hi
  | _ => exact absurd rfl hne

/-- R21: the writers of CRCSTORED and PGLEN. -/
theorem ExecResult.page_writer (h : ExecResult s i t) (hi : i ≠ .sreset)
    (hne : t.regs.crcStored ≠ s.regs.crcStored ∨ t.regs.pgLen ≠ s.regs.pgLen) : ∃ rd, i = .crcpage rd := by
  cases h with
  | crcpage rd => exact ⟨rd, rfl⟩
  | sreset => exact absurd rfl hi
  | _ => exact hne.elim (absurd rfl) (absurd rfl)

/-- R23: the writers of OUTLEN. -/
theorem ExecResult.outLen_writer (h : ExecResult s i t) (hi : i ≠ .sreset) (hne : t.regs.outLen ≠ s.regs.outLen) :
    ∃ rs rt, i = .ola rs rt := by
  cases h with
  | ola rs rt => exact ⟨rs, rt, rfl⟩
  | sreset => exact absurd rfl hi
  | _ => exact absurd rfl hne

/-- R18: the error registers change by `ERRCLR` and by an error entry. -/
theorem ExecResult.error_writer (h : ExecResult s i t) (hi : i ≠ .sreset)
    (hne : t.regs.errCause ≠ s.regs.errCause ∨ t.regs.errInfo ≠ s.regs.errInfo ∨ t.regs.errCmd ≠ s.regs.errCmd) :
    i = .errclr ∨ t.regs.status.err = true := by
  cases h with
  | raised => exact .inr rfl
  | errclr => exact .inl rfl
  | sreset => exact absurd rfl hi
  | _ => exact hne.elim (absurd rfl) (·.elim (absurd rfl) (absurd rfl))

end Writers

/-- Settles O12: each field's writers, read off what a command can leave behind. -/
theorem statusFieldsHaveTheirWriters : Obligations.StatusFieldsHaveTheirWriters := by
  intro i s t h
  have hr := exec_result h
  exact ⟨hr.imdValid_writer, hr.curBf_writer, fun hne => hr.lapping_writer (.inl hne),
    fun hne => hr.lapping_writer (.inr hne), hr.drop_writer, hr.err_clearer⟩

/-- Settles O13: each register's writers, read off what a command can leave behind. -/
theorem registersHaveTheirWriters : Obligations.RegistersHaveTheirWriters := by
  intro i s t h hi
  have hr := exec_result h
  obtain ⟨hie, hbs⟩ := hr.control_unchanged hi
  exact ⟨fun r => hr.reg_writer hi, hie, hbs, hr.bslen_writer hi, hr.bitpos_writer hi, hr.hlen_writer hi,
    hr.crcAcc_writer hi, hr.page_writer hi, hr.outLen_writer hi, hr.error_writer hi⟩

/-! ### Stores inside a memory's window (20_memory R53) -/

/-- The `n` bytes from `a` on lie in the window of memory `m`. -/
def InWindow (p : Params) (m : MemName) (a n : Nat) : Prop := m.base ≤ a ∧ a + n ≤ m.base + m.size p

section Stores

variable {s : State} {m : MemName} {a : Nat} {ws : List Word}

/-- A byte that a store inside a window changes lies in the window. -/
theorem holds_of_storeWords_ne (hw : InWindow s.cfg m a (4 * ws.length)) {x : Nat}
    (hne : (s.storeWords a ws).byteAt x ≠ s.byteAt x) : m.holds s.cfg x = true := by
  obtain ⟨hlo, hhi⟩ := hw
  have hin : ¬ (x < a ∨ a + 4 * ws.length ≤ x) := fun h => hne (byteAt_storeWords_outside s a ws x h)
  rw [holds_iff]
  omega

/-- A store inside a window keeps the memory canonical and inside the windows. -/
theorem storeWords_memoryInv (hs : s.MemoryInv) (hw : InWindow s.cfg m a (4 * ws.length)) :
    (s.storeWords a ws).MemoryInv := by
  obtain ⟨hwf, hall⟩ := hs
  obtain ⟨hlo, hhi⟩ := hw
  refine ⟨wf_store hwf a _, fun c hc => ?_⟩
  rcases mem_store hc with hc | ⟨h1, h2⟩
  · exact hall c hc
  · rw [flatMap_bytesOf_length] at h2
    exact memoryAt_isSome ((holds_iff s.cfg m c.1).2 (by omega))

/-- A store inside another memory's window leaves BSMEM as it was. -/
theorem bsByte_storeWords (hp : s.cfg.Valid) (hm : m ≠ .bs) (hw : InWindow s.cfg m a (4 * ws.length)) (k : Nat) :
    (s.storeWords a ws).bsByte k = s.bsByte k := by
  have hend := window_below_bs hp hm
  refine byteAt_storeWords_outside s a ws _ (.inr ?_)
  simp only [MemName.base, InWindow] at hend hw ⊢
  omega

/-- An aligned word of a window lies in it whole: a window's base and size are multiples of 4. -/
theorem word_inWindow {p : Params} (hp : p.Valid) (h : m.holds p a = true) (ha : a % 4 = 0) : InWindow p m a 4 := by
  obtain ⟨-, -, h4, -⟩ := hp
  rw [holds_iff] at h
  have hbase : m.base % 4 = 0 := by cases m <;> rfl
  have hsize : m.size p % 4 = 0 := by cases m <;> simp only [MemName.size] <;> omega
  unfold InWindow
  omega

end Stores

/-- A valid pair selects no block of more than 8192 samples. -/
theorem blockSize_le {s : State} (hv : s.configValid) (bf : Bool) : s.blockSize bf ≤ 8192 := by
  obtain ⟨-, h1, h2⟩ := blockSizes_of_configValid hv
  unfold State.blockSize
  split <;> omega

/-- `IMDCT` computes one sample for each of the block's (R200). -/
theorem imdctSamples_length {s : State} (hv : s.configValid) (bf : Bool) :
    (s.imdctSamples bf).length = s.blockSize bf := by
  obtain ⟨h0, h01, -⟩ := hv
  have h2 : 2 ≤ s.blockExp bf := by cases bf <;> simp only [State.blockExp, if_true, Bool.false_eq_true, if_false] <;> omega
  calc (s.imdctSamples bf).length = 4 * 2 ^ (s.blockExp bf - 2) := imdct_length ..
    _ = 2 ^ (2 + (s.blockExp bf - 2)) := (Nat.pow_add 2 2 _).symm
    _ = 2 ^ s.blockExp bf := by rw [Nat.add_sub_cancel' h2]
    _ = s.blockSize bf := by cases bf <;> rfl

theorem imdctSamples_inWindow {s : State} (hv : s.configValid) (bf : Bool) :
    InWindow s.cfg .imd MemName.imd.base (4 * (s.imdctSamples bf).length) := by
  have hb := blockSize_le hv bf
  rw [imdctSamples_length hv]
  simp only [InWindow, MemName.base, MemName.size]
  omega

theorem olaSamples_inWindow {s : State} (hv : s.configValid) (ch : Nat) {slot : Nat} (hslot : slot < s.cfg.maxCh) :
    InWindow s.cfg .out (outSlot slot) (4 * (s.olaSamples ch).length) := by
  have hl := olaSamples_length_le hv ch
  simp only [InWindow, outSlot, MemName.base, MemName.size]
  omega

theorem olaSaved_inWindow {s : State} (hv : s.configValid) {ch : Nat} (hch : ch < s.cfg.maxCh) :
    InWindow s.cfg .ovl (ovlBank ch) (4 * s.olaSaved.length) := by
  have hb := blockSize_le hv s.regs.status.curBf
  rw [olaSaved_length]
  simp only [InWindow, ovlBank, MemName.base, MemName.size]
  omega

/-- Settles O14: `IMDCT` and `OLA` alone store, each inside its own windows. -/
theorem memoriesHaveTheirWriters : Obligations.MemoriesHaveTheirWriters := by
  intro i s t a h hne
  cases exec_result h with
  | imdct bf hv => exact .inl ⟨⟨bf, rfl⟩, holds_of_storeWords_ne (imdctSamples_inWindow hv bf) hne⟩
  | ola rs rt hv hch hslot =>
    refine .inr ⟨⟨rs, rt, rfl⟩, ?_⟩
    by_cases hout : (s.storeWords (outSlot (s.operand rt)) (s.olaSamples (s.operand rs))).byteAt a = s.byteAt a
    · exact .inl (holds_of_storeWords_ne
        (s := s.storeWords (outSlot (s.operand rt)) (s.olaSamples (s.operand rs)))
        (olaSaved_inWindow hv hch) (hout ▸ hne))
    · exact .inr (holds_of_storeWords_ne (olaSamples_inWindow hv _ hslot) hout)
  | _ => exact absurd rfl hne

/-! ### The register window (10_state R14 to R25) -/

section Window

variable {a : Addr}

/-- A word access at a multiple of 4 below `0x1000` names the register of its offset. -/
theorem legalTarget_reg (p : Params) (hlt : a.toNat < 0x1000) (h4 : a.toNat % 4 = 0) :
    legalTarget p .word a = .reg (portReg a.toNat) := by
  simp [legalTarget, target, hlt, h4]

/-- A host read in the register window returns its register. -/
theorem portRead_reg (s : State) (hlt : a.toNat < 0x1000) (h4 : a.toNat % 4 = 0) :
    s.portRead .word a = .data (s.readPortReg (portReg a.toNat)) := by
  simp only [State.portRead, legalTarget_reg s.cfg hlt h4]

/-- A host write in the register window, CMD apart, is answered OK and stores to its register. -/
theorem hostWrite_reg (s : State) (v : Word) (hlt : a.toNat < 0x1000) (h4 : a.toNat % 4 = 0)
    (hcmd : portReg a.toNat ≠ .cmd) :
    hostWrite .word a v s = .next ({ s with answer := some .ok }.writePortReg (portReg a.toNat) v) := by
  have ht := legalTarget_reg s.cfg hlt h4
  unfold hostWrite
  split
  · rename_i h
    exact absurd (Target.reg.inj (ht.symm.trans h)) hcmd
  · rename_i r _ h
    rw [Target.reg.inj (ht.symm.trans h)]
  · rename_i h
    cases ht.symm.trans h
  · rename_i h
    cases ht.symm.trans h

/-- The offset of an operand register, as the host writes it. -/
theorem toNat_operandAddr (i : Reg) : (BitVec.ofNat 24 (0x100 + 4 * i.val)).toNat = 0x100 + 4 * i.val := by
  have := i.isLt
  rw [BitVec.toNat_ofNat, Nat.mod_eq_of_lt (by omega)]

theorem portReg_operand (i : Reg) : portReg (0x100 + 4 * i.val) = .x i := by
  have := i.isLt
  rw [portReg, if_pos (by omega)]
  congr 1
  ext
  simp only [Fin.ofNat]
  omega

/-- An offset outside the operand window and outside the table of R14 is reserved (R25). -/
theorem portReg_reserved {n : Nat} (hfix : n ∉ fixedRegs.map Prod.fst) (hx : ¬ (0x100 ≤ n ∧ n < 0x140)) :
    portReg n = .reserved := by
  have hnone : fixedRegs.lookup n = none := by
    rw [List.lookup_eq_none_iff]
    intro p hp
    exact bne_iff_ne.2 fun e => hfix (e ▸ List.mem_map_of_mem hp)
  rw [portReg, if_neg (fun h => hx ⟨h.1, h.2.1⟩), hnone]
  rfl

end Window

/-- Settles O16: the offset of `X<i>` names `X<i>`, whose store is `setReg`. -/
theorem operandWindowReadsAndWrites : Obligations.OperandWindowReadsAndWrites := by
  intro s i v
  have ha := toNat_operandAddr i
  have hlt : (BitVec.ofNat 24 (0x100 + 4 * i.val)).toNat < 0x1000 := by omega
  have h4 : (BitVec.ofNat 24 (0x100 + 4 * i.val)).toNat % 4 = 0 := by omega
  have hreg : portReg (BitVec.ofNat 24 (0x100 + 4 * i.val)).toNat = .x i := by rw [ha, portReg_operand]
  obtain ⟨hsame, hother, hmem, hhidden, -⟩ := setReg_frame { s with answer := some .ok } i v
  refine ⟨by rw [portRead_reg s hlt h4, hreg]; rfl, ({ s with answer := some .ok } : State).setReg i v, ?_, hsame, hother,
    rfl, rfl, hmem, hhidden, rfl, rfl, rfl⟩
  rw [hostWrite_reg s v hlt h4 (by rw [hreg]; nofun), hreg]
  rfl

/-- Settles O18: the offsets R14 does not list are reserved; they read 0 and their store is nothing. -/
theorem reservedOffsetsReadZeroAndIgnoreWrites : Obligations.ReservedOffsetsReadZeroAndIgnoreWrites := by
  intro s a v hlt h4 hfix hx
  have hreg : portReg a.toNat = .reserved := portReg_reserved hfix hx
  refine ⟨by rw [portRead_reg s hlt h4, hreg]; rfl, ?_⟩
  rw [hostWrite_reg s v hlt h4 (by rw [hreg]; nofun), hreg]
  rfl

/-- R17: the six fields are bits 0 to 5 of the word the host reads. -/
theorem status_word_bits (x : Status) :
    x.word.getLsbD 0 = x.err ∧ x.word.getLsbD 1 = x.imdValid ∧ x.word.getLsbD 2 = x.curBf ∧
    x.word.getLsbD 3 = x.prevValid ∧ x.word.getLsbD 4 = x.prevBf ∧ x.word.getLsbD 5 = x.drop ∧ x.word.toNat < 64 := by
  obtain ⟨err, imdValid, curBf, prevValid, prevBf, drop⟩ := x
  revert err imdValid curBf prevValid prevBf drop
  decide

/-- Settles O15: each address names its register; STATUS and ERRCAUSE are read bit by bit and code by code. -/
theorem registerWindowReads : Obligations.RegisterWindowReads := by
  intro s
  obtain ⟨h0, h1, h2, h3, h4, h5, hlt⟩ := status_word_bits s.regs.status
  refine ⟨rfl, rfl, ⟨s.regs.status.word, rfl, h0, h1, h2, h3, h4, h5, hlt, by rw [h0]; rfl⟩, ?_, rfl, rfl, ?_, rfl, rfl, rfl,
    rfl, rfl, rfl, rfl, rfl⟩
  · show Answer.data s.regs.errCause.code = _
    cases s.regs.errCause <;> rfl
  · show Answer.data (wordOf s.regs.ie.toNat) = _
    cases s.regs.ie <;> rfl

/-- Settles O17: CTRL and BSEXP keep their own bits of the word, the read-only registers keep nothing. -/
theorem controlRegisterWrites : Obligations.ControlRegisterWrites := by
  intro s v
  have hwrite : ∀ (a : Addr) (r : PortReg), a.toNat < 0x1000 → a.toNat % 4 = 0 → portReg a.toNat = r → r ≠ .cmd →
      hostWrite .word a v s = .next ({ s with answer := some .ok }.writePortReg r v) := by
    rintro a r hlt h4 rfl hcmd
    exact hostWrite_reg s v hlt h4 hcmd
  have hbits : v.setWidth 8 = v.extractLsb' 0 8 := BitVec.setWidth_eq_extractLsb' (by decide)
  refine ⟨hwrite _ .ctrl (by decide) (by decide) rfl nofun, ?_, ?_⟩
  · rw [hwrite _ .bsexp (by decide) (by decide) rfl nofun, ← hbits]
    rfl
  · simp only [List.forall_mem_cons, List.not_mem_nil, false_implies, implies_true, and_true]
    exact ⟨rfl, rfl, rfl, rfl, rfl, rfl, rfl, rfl, rfl, rfl, rfl, rfl⟩

/-! ### The invariant -/

section Invariant

variable {s t : State} {i : Instr}

/-- The invariant speaks of the registers, the memory, the bit cache and the parameters only. -/
theorem State.Inv.congr (hs : s.Inv) (hr : t.regs = s.regs) (hm : t.mem = s.mem) (hc : t.cache = s.cache)
    (hd : t.draws = s.draws) (hp : t.cfg = s.cfg) : t.Inv := by
  obtain ⟨regs, mem, cache, draws, cfg, rst, pending, answer⟩ := t
  cases hr
  cases hm
  cases hc
  cases hd
  cases hp
  exact { hs with }

/-- Reset registers and an empty cache meet the invariant over any sound memory. -/
theorem inv_of_reset (hr : s.regs = Regs.reset) (hc : s.cache = BitCache.reset) (hp : s.cfg.Valid)
    (hm : s.MemoryInv) : s.Inv where
  params := hp
  memory := hm
  reader := by simp [State.ReaderInv, hr, Regs.reset]
  cache := by
    rw [State.CacheInv, hr, hc]
    exact emptyAt_holds (Nat.zero_le _)
  error := by simp [hr, Regs.ErrorInv, Regs.reset, Status.reset]
  lapping := by simp [hr, Regs.LappingInv, Regs.reset, Status.reset]
  ranges := by simp [State.RangeInv, hr, Regs.reset]

/-- A memory in which nothing is written is sound. -/
theorem memoryInv_of_empty (h : s.mem = []) : s.MemoryInv := by
  rw [State.MemoryInv, h]
  exact ⟨wf_empty, nofun⟩

/-! Each clause of the invariant, kept by every command. -/

/-- The operands of an advance: the new position fits its register and the stream. -/
theorem State.Inv.advance (hs : s.Inv) {n : Nat} (hn : n ≤ s.rem) :
    s.regs.bitpos.toNat + n ≤ 8 * s.regs.bslen.toNat ∧
    (wordOf (s.regs.bitpos.toNat + n)).toNat = s.regs.bitpos.toNat + n := by
  obtain ⟨-, hbs, -⟩ := hs.params
  obtain ⟨hlen, hpos⟩ := hs.reader
  unfold State.rem at hn
  exact ⟨by omega, toNat_wordOf (by omega)⟩

/-- The reader's clause after an advance by `n ≤ rem` bits. -/
theorem State.Inv.readerInv_advance (hs : s.Inv) {n : Nat} (hn : n ≤ s.rem) (hcfg : t.cfg = s.cfg)
    (hlen : t.regs.bslen = s.regs.bslen) (hpos : t.regs.bitpos = wordOf (s.regs.bitpos.toNat + n)) : t.ReaderInv := by
  obtain ⟨hle, heq⟩ := hs.advance hn
  rw [State.ReaderInv, hcfg, hlen, hpos, heq]
  exact ⟨hs.reader.1, hle⟩

theorem ExecResult.cfg_eq (h : ExecResult s i t) : t.cfg = s.cfg := by cases h <;> rfl

theorem ExecResult.memoryInv (h : ExecResult s i t) (hs : s.Inv) : t.MemoryInv := by
  cases h with
  | imdct bf hv => exact storeWords_memoryInv hs.memory (imdctSamples_inWindow hv bf)
  | ola rs rt hv hch hslot =>
    have hout := storeWords_memoryInv hs.memory (olaSamples_inWindow hv (s.operand rs) hslot)
    exact storeWords_memoryInv hout (olaSaved_inWindow hv hch)
  | _ => exact hs.memory

theorem ExecResult.readerInv (h : ExecResult s i t) (hs : s.Inv) : t.ReaderInv := by
  cases h with
  | sreset => exact ⟨Nat.zero_le _, Nat.zero_le _⟩
  | bsinit rs hlen => exact ⟨by simpa [State.operand, wordOf_toNat] using hlen, Nat.zero_le _⟩
  | rdbool _ hn | rdbits _ _ hn | skipi _ hn | skip _ hn => exact hs.readerInv_advance hn rfl rfl rfl
  | rdcb rd rs hd => exact hs.readerInv_advance (decodeCode_value_le hd) rfl rfl rfl
  | _ => exact hs.reader

/-- The cache's clause after a read of `n ≤ rem` bits into `rd`. -/
theorem State.Inv.cacheInv_read (hs : s.Inv) {n : Nat} (hn : n ≤ s.rem) (rd : Reg) (v : Word) :
    ((s.setReg rd v).consume n).CacheInv := by
  obtain ⟨hle, heq⟩ := hs.advance hn
  have hc := cacheAfterRead_holds (s := s.setReg rd v) hs.cache hle
  rw [State.CacheInv, consume_cache]
  simp only [consume_regs, setReg_regs, heq]
  exact cacheHolds_congr rfl (fun _ => rfl) hc

/-- The cache's clause after a skip of `n ≤ rem` bits. -/
theorem State.Inv.cacheInv_skip (hs : s.Inv) {n : Nat} (hn : n ≤ s.rem) : (s.skipBits n).CacheInv := by
  obtain ⟨hle, heq⟩ := hs.advance hn
  rw [State.CacheInv, skipBits_cache]
  simp only [skipBits_regs, heq]
  exact cacheHolds_congr rfl (fun _ => rfl) (cacheAfterSkip_holds hs.cache hle)

/-- The cache's clause where the reader and the stream are as they were. -/
theorem State.CacheInv.congr (h : s.CacheInv) (hl : t.regs.bslen = s.regs.bslen) (hp : t.regs.bitpos = s.regs.bitpos)
    (hc : t.cache = s.cache) (hb : ∀ k, t.bsByte k = s.bsByte k) : t.CacheInv := by
  rw [State.CacheInv, hp, hc]
  exact cacheHolds_congr hl hb h

theorem ExecResult.cacheInv (h : ExecResult s i t) (hs : s.Inv) : t.CacheInv := by
  cases h with
  | sreset | bsinit => exact emptyAt_holds (Nat.zero_le _)
  | rdbool rd hn | rdbits rd _ hn => exact hs.cacheInv_read hn rd _
  | skipi _ hn | skip _ hn => exact hs.cacheInv_skip hn
  | rdcb rd rs hd => exact hs.cacheInv_read (decodeCode_value_le hd) rd _
  | imdct bf hv =>
    exact hs.cache.congr rfl rfl rfl (bsByte_storeWords (m := .imd) hs.params nofun (imdctSamples_inWindow hv bf))
  | ola rs rt hv hch hslot =>
    have hout := bsByte_storeWords (m := .out) hs.params nofun (olaSamples_inWindow hv (s.operand rs) hslot)
    have hovl := bsByte_storeWords (s := s.storeWords (outSlot (s.operand rt)) (s.olaSamples (s.operand rs)))
      (m := .ovl) hs.params nofun (olaSaved_inWindow hv hch)
    exact hs.cache.congr rfl rfl rfl fun k => (hovl k).trans (hout k)
  | _ => exact hs.cache

theorem ExecResult.errorInv (h : ExecResult s i t) (hs : s.Inv) : t.regs.ErrorInv := by
  cases h with
  | raised hc => exact ⟨nofun, fun _ => hc⟩
  | errclr | sreset => exact ⟨fun _ => ⟨rfl, rfl, rfl, rfl⟩, nofun⟩
  | _ => exact hs.error

theorem ExecResult.lappingInv (h : ExecResult s i t) (hs : s.Inv) : t.regs.LappingInv := by
  cases h with
  | sreset | laprst => exact fun _ => rfl
  | lapupd => exact nofun
  | _ => exact hs.lapping

/-- R131: a page has 27 to 65307 bytes. -/
theorem pageTotal_range (s : State) : 27 ≤ s.pageTotal ∧ s.pageTotal ≤ 65307 := by
  have hseg : s.pageSegments ≤ 255 := by have := (s.pgByte 26).isLt; simp only [State.pageSegments]; omega
  have hbody : s.pageBody ≤ s.pageSegments * 255 := by
    have h := List.sum_le_card_nsmul ((List.range s.pageSegments).map fun k => (s.pgByte (27 + k)).toNat) 255 (by
      intro x hx
      obtain ⟨k, -, rfl⟩ := List.mem_map.1 hx
      have := (s.pgByte (27 + k)).isLt
      omega)
    simpa [State.pageBody] using h
  unfold State.pageTotal
  omega

theorem ExecResult.rangeInv (h : ExecResult s i t) (hs : s.Inv) : t.RangeInv := by
  obtain ⟨hhlen, hout, hpg⟩ := hs.ranges
  cases h with
  | sreset => exact ⟨Nat.zero_le _, Nat.zero_le _, .inl rfl⟩
  | @rdcb rd rs payload n hd =>
    refine ⟨?_, hout, hpg⟩
    have hn := decodeCode_value_le hd
    obtain ⟨-, hbs, -⟩ := hs.params
    obtain ⟨hlen, -⟩ := hs.reader
    unfold State.rem at hn
    show (wordOf n).toNat ≤ 8 * s.cfg.bsBytes
    rw [toNat_wordOf (by omega)]
    omega
  | crcpage rd =>
    obtain ⟨hlo, hhi⟩ := pageTotal_range s
    refine ⟨hhlen, hout, .inr ?_⟩
    show 27 ≤ (wordOf s.pageTotal).toNat ∧ (wordOf s.pageTotal).toNat ≤ 65307
    rw [toNat_wordOf (by omega)]
    exact ⟨hlo, hhi⟩
  | ola rs rt hv =>
    have hle := olaSamples_length_le hv (s.operand rs)
    refine ⟨hhlen, ?_, hpg⟩
    show (wordOf (s.olaSamples (s.operand rs)).length).toNat ≤ 4096
    rw [toNat_wordOf (by omega)]
    exact hle
  | _ => exact ⟨hhlen, hout, hpg⟩

/-- Every command keeps the invariant. -/
theorem ExecResult.inv (h : ExecResult s i t) (hs : s.Inv) : t.Inv where
  params := h.cfg_eq ▸ hs.params
  memory := h.memoryInv hs
  reader := h.readerInv hs
  cache := h.cacheInv hs
  error := h.errorInv hs
  lapping := h.lappingInv hs
  ranges := h.rangeInv hs

/-! Each layer of a step, from the command outwards. -/

/-- A word written to CMD keeps the invariant: dropped, refused as illegal, or run. -/
theorem runCommand_inv {w : Word} (hs : s.Inv) (h : runCommand w s = .next t) : t.Inv := by
  rcases runCommand_cases h with ⟨herr, -, rfl⟩ | ⟨-, ⟨why, -, rfl⟩ | ⟨i, -, h⟩⟩
  · have hdrop : (dropCommand s).regs.ErrorInv := ⟨fun he => absurd (herr.symm.trans he) (by decide), hs.error.2⟩
    exact { hs with error := hdrop }
  · have hraise : (raise .illegalCommand 0 w s).regs.ErrorInv := ⟨nofun, fun _ => nofun⟩
    exact { hs with error := hraise }
  · exact (exec_result h).inv hs

/-- A host write to a register keeps the invariant, which says nothing of the registers the host may write. -/
theorem writePortReg_inv (hs : s.Inv) (r : PortReg) (v : Word) : (s.writePortReg r v).Inv := by
  cases r <;> exact { hs with }

/-- A host write to a memory keeps the invariant: BSMEM's empties the cache, another memory's leaves the stream alone. -/
theorem writeMem_inv (hs : s.Inv) {m : MemName} {a : Nat} (hw : InWindow s.cfg m a 4) (v : Word) :
    (s.writeMem m a v).Inv := by
  have hmem := storeWords_memoryInv (ws := [v]) hs.memory hw
  unfold State.writeMem
  dsimp only
  split
  · exact { hs with memory := hmem, cache := emptyAt_holds hs.reader.2 }
  · rename_i hbs
    have hcache : (s.storeWords a [v]).CacheInv :=
      hs.cache.congr rfl rfl rfl (bsByte_storeWords hs.params hbs hw)
    exact { hs with memory := hmem, cache := hcache }

theorem hostWrite_inv {width : Width} {addr : Addr} {v : Word} (hs : s.Inv) (h : hostWrite width addr v s = .next t) :
    t.Inv := by
  have hok : ({ s with answer := some .ok } : State).Inv := hs.congr rfl rfl rfl rfl rfl
  rcases hostWrite_cases h with ⟨-, rfl⟩ | ⟨-, h⟩ | ⟨r, -, -, rfl⟩ | ⟨m, hm, rfl⟩
  · exact hs.congr rfl rfl rfl rfl rfl
  · exact runCommand_inv hok h
  · exact writePortReg_inv hok r v
  · obtain ⟨-, h4, hholds⟩ := legalTarget_mem hm
    exact writeMem_inv hok (word_inWindow hs.params hholds h4) v

theorem serve_inv {a : HostAction} (hs : s.Inv) (h : serve a s = .next t) : t.Inv := by
  rcases serve_cases h with ⟨width, addr, -, rfl⟩ | ⟨width, addr, v, -, h⟩ | ⟨-, rfl⟩ | ⟨-, rfl⟩
  · exact hs.congr rfl rfl rfl rfl rfl
  · exact hostWrite_inv hs h
  · exact hs.congr rfl rfl rfl rfl rfl
  · exact hs

theorem heldInReset_inv (hs : s.Inv) : (heldInReset s).Inv := by
  rcases heldInReset_cases s with ⟨rest, e⟩ | ⟨rest, e⟩ <;> rw [e]
  · exact inv_of_reset rfl rfl hs.params (memoryInv_of_empty rfl)
  · exact hs.congr rfl rfl rfl rfl rfl

end Invariant

/-- Settles O60: the held reset, the wait and every served action keep the invariant. -/
theorem everyStepKeepsTheInvariant : Obligations.EveryStepKeepsTheInvariant := by
  intro s t hs h
  rcases step_cases h with ⟨-, rfl⟩ | ⟨-, -, rfl⟩ | ⟨-, a, rest, -, h⟩
  · exact heldInReset_inv hs
  · exact hs
  · have hrest : ({ s with pending := rest } : State).Inv := hs.congr rfl rfl rfl rfl rfl
    exact serve_inv hrest h

/-- Settles O59: the reset registers, over a memory in which nothing is written. -/
theorem resetMeetsTheInvariant : Obligations.ResetMeetsTheInvariant :=
  inv_of_reset rfl rfl (by decide) (memoryInv_of_empty rfl)

end Sys2Proof.Machine


/-! SUPPORT and PROOFS. The memory's family: the address map, what a host write to a memory leaves behind, and which host
action a step serves. -/

namespace Sys2Proof.Machine

/-! ### The windows of the memories (20_memory R53) -/

section Windows

variable {p : Params} {m m' : MemName}

/-- Every memory begins above the register window. -/
theorem registerWindow_below (m : MemName) : 0x1000 ≤ m.base := by cases m <;> decide

theorem size_pos (hp : p.Valid) (m : MemName) : 0 < m.size p := by
  obtain ⟨hbs, -, -, hcb, -, hch, -⟩ := hp
  cases m <;> simp only [MemName.size] <;> omega

/-- Every window ends inside the 24-bit space. -/
theorem window_le_addressSpace (hp : p.Valid) (m : MemName) : m.base + m.size p ≤ 2 ^ 24 := by
  by_cases hm : m = .bs
  · obtain ⟨-, hbs, -⟩ := hp
    subst hm
    simp only [MemName.base, MemName.size]
    omega
  · have := window_below_bs hp hm
    omega

/-- Two windows that overlapped would both hold the larger of their bases, which belongs to one memory alone. -/
theorem windows_disjoint (hp : p.Valid) (hne : m ≠ m') : m.base + m.size p ≤ m'.base ∨ m'.base + m'.size p ≤ m.base := by
  by_contra hover
  have hm := size_pos hp m
  have hm' := size_pos hp m'
  have h : m.holds p (max m.base m'.base) = true := (holds_iff ..).2 (by omega)
  have h' : m'.holds p (max m.base m'.base) = true := (holds_iff ..).2 (by omega)
  exact hne (Option.some.inj ((memoryAt_eq hp h).symm.trans (memoryAt_eq hp h')))

end Windows

/-! ### A host write to a memory (20_memory R51, R54, R58, R61) -/

section MemoryWrite

variable {s : State} {m : MemName} {addr : Addr}

/-- A word access at a multiple of 4 inside a memory's window names that memory. -/
theorem legalTarget_eq_mem {p : Params} (hp : p.Valid) (h4 : addr.toNat % 4 = 0) (hm : m.holds p addr.toNat = true) :
    legalTarget p .word addr = .mem m := by
  have hbase := registerWindow_below m
  have hlo := ((holds_iff ..).1 hm).1
  have hreg : ¬ addr.toNat < 0x1000 := by omega
  simp [legalTarget, target, h4, hreg, memoryAt_eq hp hm]

/-- A host read of a memory returns the word at its address. -/
theorem portRead_mem (ht : legalTarget s.cfg .word addr = .mem m) : s.portRead .word addr = .data (s.wordAt addr.toNat) := by
  simp only [State.portRead, ht]

/-- A host write to a memory is answered OK and stores its word. -/
theorem hostWrite_mem (ht : legalTarget s.cfg .word addr = .mem m) (v : Word) :
    hostWrite .word addr v s = .next ({ s with answer := some .ok }.writeMem m addr.toNat v) := by
  simp only [hostWrite, ht]

/-- Which memory is written makes no difference to the bytes stored. -/
theorem byteAt_writeMem (s : State) (m : MemName) (a : Nat) (v : Word) (x : Nat) :
    (s.writeMem m a v).byteAt x = (s.storeWords a [v]).byteAt x := by
  unfold State.writeMem
  dsimp only
  split <;> rfl

/-- Byte `k` of a word, the least significant first. -/
theorem bytesOf_getD (v : Word) {k : Nat} (hk : k < 4) : (bytesOf v).getD k 0 = v.extractLsb' (8 * k) 8 := by
  interval_cases k <;> rfl

/-- The bytes of a written word lie least significant first. -/
theorem byteAt_writeMem_inside (s : State) (m : MemName) (a : Nat) (v : Word) {k : Nat} (hk : k < 4) :
    (s.writeMem m a v).byteAt (a + k) = v.extractLsb' (8 * k) 8 := by
  have h := byteAt_storeWords_inside s a [v] 0 k Nat.one_pos hk
  rw [Nat.mul_zero, Nat.zero_add] at h
  rw [byteAt_writeMem, h]
  exact bytesOf_getD v hk

/-- A write to BSMEM empties the bit cache, a write to another memory leaves it (R61). -/
theorem writeMem_cache (s : State) (m : MemName) (a : Nat) (v : Word) :
    if m = .bs then (s.writeMem m a v).cache.cnt = 0 else (s.writeMem m a v).cache = s.cache := by
  split <;> rename_i hm
  · subst hm
    rfl
  · simp only [State.writeMem, if_neg hm, State.storeWords]

end MemoryWrite

/-- Settles O21: the address names the memory alone, so the write is `writeMem`'s and the read returns its word. -/
theorem hostWriteThenReadReturnsTheWord : Obligations.HostWriteThenReadReturnsTheWord := by
  intro s m addr v hp h4 hlo hhi
  have ht : legalTarget s.cfg .word addr = .mem m := legalTarget_eq_mem hp h4 ((holds_iff ..).2 ⟨hlo, hhi⟩)
  obtain ⟨hframe, hword, hregs, hdraws, hcfg, hrst, hpending, hanswer⟩ :=
    writeMem_frame { s with answer := some .ok } m addr.toNat v
  have hread := portRead_mem (hcfg ▸ ht)
  rw [hword] at hread
  exact ⟨_, hostWrite_mem ht v, hanswer, hread, fun k => byteAt_writeMem_inside _ m addr.toNat v, hframe, hregs, hdraws,
    hcfg, hrst, hpending, writeMem_cache _ m addr.toNat v⟩

/-- Settles O20: the windows by their numbers, their places from the lemmas above, and the two words of a CBMEM entry. -/
theorem addressMapIsThatOfTheRule : Obligations.AddressMapIsThatOfTheRule := by
  refine ⟨fun p => rfl, fun p hp m => ⟨mem_all m, registerWindow_below m, window_le_addressSpace hp m,
    fun m' => windows_disjoint hp⟩, fun s c i => ?_⟩
  have hlow : (s.cbEntry i).extractLsb' 0 32 = s.wordAt (0x400000 + 8 * i) := BitVec.extractLsb'_append_eq_right
  have hhigh : (s.cbEntry i).extractLsb' 32 32 = s.wordAt (0x400000 + 8 * i + 4) := BitVec.extractLsb'_append_eq_left
  exact ⟨rfl, rfl, rfl, rfl, rfl, rfl, rfl, rfl, rfl, rfl, rfl, hlow, hhigh⟩

/-- With `rst` low and no host action waiting, WVK waits (20_memory R50; log 7). -/
theorem step_waits {s : State} (hr : s.rst = false) (hp : s.pending = []) : step s = .next s := by
  simp [step, stepPort, hr, hp]

/-- Settles O22: a step serves the oldest action, and `serve` says what each kind of action does. -/
theorem stepServesTheOldestHostAction : Obligations.StepServesTheOldestHostAction := by
  intro s hr
  exact ⟨fun _ _ _ hp => step_serves hr hp, fun _ _ _ _ hp => step_serves hr hp, fun _ hp => step_serves hr hp,
    fun _ hp => step_serves hr hp, step_waits hr⟩

end Sys2Proof.Machine


/-! SUPPORT and PROOFS. The encoding's family: the words the decoder accepts are the encoder's words of well-formed commands,
each selects its row of R83, and what issuing a command comes to. -/

namespace Sys2Proof

/-! ### The fields of the encoder's words (30_encoding R80) -/

section Fields

variable (rd rs rt : Reg) {op : Nat} (hop : op < 256)
include hop

theorem rdOf_formatI {imm : Nat} (himm : imm < 65536) : rdOf (formatI op rd rs imm) = rd :=
  rdOf_eq (bits_rd_formatI rd rs hop himm)

theorem rsOf_formatI {imm : Nat} (himm : imm < 65536) : rsOf (formatI op rd rs imm) = rs :=
  rsOf_eq (bits_rs_formatI rd rs hop himm)

theorem immOf_formatI (imm : BitVec 16) : immOf (formatI op rd rs imm.toNat) = imm :=
  immOf_eq ((bits_low_formatI rd rs hop imm.isLt (by omega)).trans (by omega))

theorem bits_width_formatI (n : BitVec 6) : bits (formatI op rd rs n.toNat) 0 6 = n.toNat :=
  (bits_low_formatI rd rs hop (by omega) (by omega)).trans (by omega)

theorem rtOf_formatR : rtOf (formatI op rd rs (rt.val * 2 ^ 12)) = rt :=
  rtOf_eq ((bits_low_formatI rd rs hop (by omega) (by omega)).trans (by omega))

end Fields

/-- The decoder's candidate for a command's word is the command: its opcode is the command's own, its operands lie where the
decoder reads them. -/
theorem candidate_encode (i : Instr) : candidate (opcodeOf (encode i)) (encode i) = some i := by
  cases i with
  | imdct bf | lapupd bf => cases bf <;> rfl
  | _ =>
    simp (disch := omega) only [encode, formatR_eq, formatN_eq, opcodeOf_formatI, candidate, rdOf_formatI, rsOf_formatI,
      rtOf_formatR, immOf_formatI, widthOf_eq (bits_width_formatI _ _ _ _)]

/-! ### A word from its fields (30_encoding R80, R84) -/

section Words

variable {w : Word} {op imm : Nat} {rd rs : Reg}

theorem bits_rd (w : Word) : bits w 20 4 = (rdOf w).val := by
  simp only [rdOf, Fin.ofNat, bits]
  omega

theorem bits_rs (w : Word) : bits w 16 4 = (rsOf w).val := by
  simp only [rsOf, Fin.ofNat, bits]
  omega

theorem bits_imm (w : Word) : bits w 0 16 = (immOf w).toNat := by
  simp only [immOf, BitVec.toNat_ofNat, bits]
  omega

/-- The low half is `rt` at the top when the bits below it are zero. -/
theorem bits_imm_of_rt (h : bits w 0 12 = 0) : bits w 0 16 = (rtOf w).val * 2 ^ 12 := by
  simp only [rtOf, Fin.ofNat, bits] at h ⊢
  omega

/-- The low half is the width when the bits above it are zero. -/
theorem bits_imm_of_width (h : bits w 6 10 = 0) : bits w 0 16 = (widthOf w).toNat := by
  simp only [widthOf, BitVec.toNat_ofNat, bits] at h ⊢
  omega

/-- The low half is the block flag when the bits above it are zero. -/
theorem bits_imm_of_flag (h : bits w 1 15 = 0) : bits w 0 16 = (flagOf w).toNat := by
  have hbit : (flagOf w).toNat = bits w 0 1 := by
    have : bits w 0 1 < 2 := Nat.mod_lt _ (by omega)
    unfold flagOf
    interval_cases bits w 0 1 <;> rfl
  simp only [hbit, bits] at h ⊢
  omega

/-- The four fields of format I fill the word. -/
theorem formatI_of_fields (hop : opcodeOf w = op) (hrd : bits w 20 4 = rd.val) (hrs : bits w 16 4 = rs.val)
    (himm : bits w 0 16 = imm) : formatI op rd rs imm = w := by
  apply BitVec.eq_of_toNat_eq
  have hw := w.isLt
  simp only [opcodeOf, bits] at hop hrd hrs himm
  rw [toNat_formatI rd rs (by omega) (by omega)]
  omega

theorem formatN_of_fields (hop : opcodeOf w = op) (h : bits w 0 24 = 0) : formatN op = w := by
  simp only [bits] at h
  rw [formatN_eq]
  exact formatI_of_fields hop (by simp only [bits]; omega) (by simp only [bits]; omega) (by simp only [bits]; omega)

end Words

/-- A word is its candidate's own when the fields the candidate does not use are zero (R84): opcode, operands and zeros leave
no bit of it open. -/
theorem encode_of_candidate {w : Word} {i : Instr} (hc : candidate (opcodeOf w) w = some i)
    (hu : unusedZero i w = true) : encode i = w := by
  generalize hop : opcodeOf w = op at hc
  unfold candidate at hc
  split at hc <;> cases hc <;> simp only [unusedZero, Bool.and_eq_true, beq_iff_eq] at hu
  -- NOP, ERRCLR, SRESET, CRCRST, LAPRST: no operand
  case h_1 | h_4 | h_5 | h_12 | h_19 => exact formatN_of_fields hop hu
  -- LI, LIH: `rd` and `imm16`
  case h_2 | h_3 => exact formatI_of_fields hop (bits_rd w) hu (bits_imm w)
  -- BSINIT, SKIP, CRCCMP: `rs`
  case h_6 | h_10 | h_14 => exact formatI_of_fields hop hu.1 (bits_rs w) hu.2
  -- RDBOOL, CRCPAGE: `rd`
  case h_7 | h_15 => exact formatI_of_fields hop (bits_rd w) hu.1 hu.2
  -- RDBITS: `rd` and the width
  case h_8 => exact formatI_of_fields hop (bits_rd w) hu.1 (bits_imm_of_width hu.2)
  -- SKIPI: `imm16`
  case h_9 => exact formatI_of_fields hop hu.1 hu.2 (bits_imm w)
  -- RDCB: `rd` and `rs`
  case h_11 => exact formatI_of_fields hop (bits_rd w) (bits_rs w) hu
  -- CRCFEED, OLA: `rs` and `rt`
  case h_13 | h_17 => exact formatI_of_fields hop hu.1 (bits_rs w) (bits_imm_of_rt hu.2)
  -- IMDCT, LAPUPD: the block flag
  case h_16 | h_18 => exact formatI_of_fields hop hu.1.1 hu.1.2 (bits_imm_of_flag hu.2)

/-! ### The rows of R83 -/

/-- Bits the mask covers are those of the match. -/
theorem bits_of_masked {w m v : Word} (h : w &&& m = v) {lo n : Nat} (hm : bits m lo n = 2 ^ n - 1) :
    bits w lo n = bits v lo n := by
  subst h
  have hand : bits (w &&& m) lo n = bits w lo n &&& bits m lo n := by
    simp only [bits, BitVec.toNat_and, ← Nat.shiftRight_eq_div_pow, Nat.shiftRight_and_distrib, Nat.and_mod_two_pow]
  rw [hand, hm, Nat.and_two_pow_sub_one_eq_mod, bits, Nat.mod_mod]

theorem mask_covers_opcode : ∀ r ∈ opcodeRows, bits r.mask 24 8 = 2 ^ 8 - 1 := by decide

theorem opcodeOf_of_masked {r : OpcodeRow} (hr : r ∈ opcodeRows) {w : Word} (h : w &&& r.mask = r.matchBits) :
    opcodeOf w = opcodeOf r.matchBits :=
  bits_of_masked h (mask_covers_opcode r hr)

/-- A word that equals a row's match under its mask has that row's command as its candidate, its unused fields zero. -/
theorem candidate_of_masked {r : OpcodeRow} (hr : r ∈ opcodeRows) {w : Word} (h : w &&& r.mask = r.matchBits) :
    ∃ i, candidate (opcodeOf w) w = some i ∧ i.mnemonic = r.mnemonic ∧ unusedZero i w = true := by
  rw [opcodeOf_of_masked hr h]
  simp only [opcodeRows, List.mem_cons, List.not_mem_nil, or_false] at hr
  rcases hr with rfl | rfl | rfl | rfl | rfl | rfl | rfl | rfl | rfl | rfl |
    rfl | rfl | rfl | rfl | rfl | rfl | rfl | rfl | rfl
  all_goals
    refine ⟨_, rfl, rfl, ?_⟩
    simp (disch := decide) only [unusedZero, bits_of_masked h]
    decide

/-- Every command's word, under its row's mask, is its row's match (R83). -/
theorem matchesRow : ∀ i : Instr, Laws.MatchesRow.Statement i
  | .nop => Laws.MatchesRow.nop
  | .li rd imm => Laws.MatchesRow.li rd imm
  | .lih rd imm => Laws.MatchesRow.lih rd imm
  | .errclr => Laws.MatchesRow.errclr
  | .sreset => Laws.MatchesRow.sreset
  | .bsinit rs => Laws.MatchesRow.bsinit rs
  | .rdbool rd => Laws.MatchesRow.rdbool rd
  | .rdbits rd n => Laws.MatchesRow.rdbits rd n
  | .skipi imm => Laws.MatchesRow.skipi imm
  | .skip rs => Laws.MatchesRow.skip rs
  | .rdcb rd rs => Laws.MatchesRow.rdcb rd rs
  | .crcrst => Laws.MatchesRow.crcrst
  | .crcfeed rs rt => Laws.MatchesRow.crcfeed rs rt
  | .crccmp rs => Laws.MatchesRow.crccmp rs
  | .crcpage rd => Laws.MatchesRow.crcpage rd
  | .imdct bf => Laws.MatchesRow.imdct bf
  | .ola rs rt => Laws.MatchesRow.ola rs rt
  | .lapupd bf => Laws.MatchesRow.lapupd bf
  | .laprst => Laws.MatchesRow.laprst

/-- The one range R82 adds to a row is the one the command's well-formedness asks for (R81). -/
theorem wf_eq_width_le (i : Instr) : i.wf = (i.mnemonic != "RDBITS" || bits (encode i) 0 6 ≤ 32) := by
  cases i with
  | rdbits rd n => simp [Instr.wf, Instr.mnemonic, encode, bits_width_formatI rd 0 (show 0x12 < 256 by omega) n]
  | _ => rfl

/-- A command's word selects its row exactly when the command is well formed. -/
theorem selects_encode {r : OpcodeRow} {i : Instr} (hm : r.mnemonic = i.mnemonic)
    (h : encode i &&& r.mask = r.matchBits) : r.selects (encode i) = i.wf := by
  simp [OpcodeRow.selects, h, hm, wf_eq_width_le i]

theorem masked_of_selects {r : OpcodeRow} {w : Word} (h : r.selects w = true) : w &&& r.mask = r.matchBits := by
  simp only [OpcodeRow.selects, Bool.and_eq_true, beq_iff_eq] at h
  exact h.1

theorem opcode_determines_row : ∀ r ∈ opcodeRows, ∀ r' ∈ opcodeRows,
    opcodeOf r.matchBits = opcodeOf r'.matchBits → r = r' := by decide

/-! ### Decoder and encoder -/

/-- The fields a command does not use are zero in its word: its row's mask covers them. -/
theorem unusedZero_encode (i : Instr) : unusedZero i (encode i) = true := by
  obtain ⟨r, hr, -, h⟩ := matchesRow i
  obtain ⟨j, hj, -, hu⟩ := candidate_of_masked hr h
  obtain rfl : i = j := Option.some.inj ((candidate_encode i).symm.trans hj)
  exact hu

/-- A word decodes to a command exactly when it is the word of that command, which is well formed (R84). -/
theorem decode_eq_command_iff {w : Word} {i : Instr} : decode w = .command i ↔ i.wf = true ∧ encode i = w := by
  constructor
  · intro h
    obtain ⟨hc, hu, hw⟩ := decode_command_inv h
    exact ⟨hw, encode_of_candidate hc hu⟩
  · rintro ⟨hw, rfl⟩
    exact decode_of_candidate (candidate_encode i) (unusedZero_encode i) hw

/-- Settles O2: the candidate of a command's word is the command, and the checks pass. -/
theorem encodedCommandDecodesBack : Obligations.EncodedCommandDecodesBack :=
  fun _ hw => decode_eq_command_iff.2 ⟨hw, rfl⟩

/-- Settles O3: the fields the decoder reads and those it requires to be zero fill the word. -/
theorem decodedWordEncodesBack : Obligations.DecodedWordEncodesBack :=
  fun _ _ h => decode_eq_command_iff.1 h

/-- Settles O4: a decoded word is its command's, which selects the command's row; a selected row fixes the candidate, its
zeros and its range; two rows that one word selects agree in their opcode. -/
theorem decoderIsTheOpcodeTable : Obligations.DecoderIsTheOpcodeTable := by
  refine ⟨fun w i h => ?_, fun w r hr hsel => ?_, fun w r hr r' hr' hsel hsel' => ?_⟩
  · obtain ⟨hw, rfl⟩ := decode_eq_command_iff.1 h
    obtain ⟨r, hr, hm, hmask⟩ := matchesRow i
    exact ⟨r, hr, (selects_encode hm hmask).trans hw, hm⟩
  · have hmask := masked_of_selects hsel
    obtain ⟨i, hc, hm, hu⟩ := candidate_of_masked hr hmask
    obtain rfl := encode_of_candidate hc hu
    exact ⟨i, decode_eq_command_iff.2 ⟨(selects_encode hm.symm hmask).symm.trans hsel, rfl⟩, hm⟩
  · exact opcode_determines_row r hr r' hr'
      ((opcodeOf_of_masked hr (masked_of_selects hsel)).symm.trans (opcodeOf_of_masked hr' (masked_of_selects hsel')))

/-- Settles O1: the decoder computes on each word. -/
theorem sampleWordsDecodeToTheirCommands : Obligations.SampleWordsDecodeToTheirCommands := by
  unfold Obligations.SampleWordsDecodeToTheirCommands
  decide

end Sys2Proof

namespace Sys2Proof.Machine

/-! ### Issuing a command (40_sys R105) -/

section Issue

variable {s : State} {rest : List HostAction} {w : Word} {i : Instr}

/-- The step that serves an issued word is the command step of that word, answered OK. -/
theorem step_issue (hrst : s.rst = false) (hp : s.pending = issue w :: rest) :
    step s = runCommand w { s with pending := rest, answer := some .ok } :=
  step_serves hrst hp

/-- With no error latched a word that decodes runs its command. -/
theorem runCommand_ready (hready : s.Ready) (hd : decode w = .command i) : runCommand w s = exec i s := by
  rw [State.Ready] at hready
  simp [runCommand, hready, hd]

/-- With no error latched, issuing a well-formed command's word runs the command. -/
theorem step_issue_encode (hrst : s.rst = false) (hready : s.Ready) (hw : i.wf = true)
    (hp : s.pending = issue (encode i) :: rest) : step s = exec i { s with pending := rest, answer := some .ok } :=
  (step_issue hrst hp).trans (runCommand_ready hready (decode_eq_command_iff.2 ⟨hw, rfl⟩))

/-- Issuing `LI` writes the immediate to its register (R101). -/
theorem step_issue_li {rd : Reg} {imm : BitVec 16} (hrst : s.rst = false) (hready : s.Ready)
    (hp : s.pending = issue (encode (.li rd imm)) :: rest) :
    step s = .next ({ s with pending := rest, answer := some .ok }.setReg rd (wordOf imm.toNat)) :=
  step_issue_encode hrst hready rfl hp

/-- Issuing `LIH` puts the immediate over the register's low half (R102). -/
theorem step_issue_lih {rd : Reg} {imm : BitVec 16} (hrst : s.rst = false) (hready : s.Ready)
    (hp : s.pending = issue (encode (.lih rd imm)) :: rest) :
    step s = .next ({ s with pending := rest, answer := some .ok }.setReg rd
      (wordOf (imm.toNat * 2 ^ 16 + bits (s.reg rd) 0 16))) :=
  step_issue_encode hrst hready rfl hp

end Issue

/-- A word is its high half over its low half. -/
theorem wordOf_halves (v : Word) :
    wordOf ((v.extractLsb' 16 16).toNat * 2 ^ 16 + bits (wordOf (v.extractLsb' 0 16).toNat) 0 16) = v := by
  have hv := v.isLt
  apply BitVec.eq_of_toNat_eq
  simp only [wordOf, bits, BitVec.toNat_ofNat, BitVec.extractLsb'_toNat, Nat.shiftRight_eq_div_pow]
  omega

/-- Settles O5: `LI` leaves the low half, `LIH` puts the high half over it, and each writes its register only. -/
theorem pseudoInstructionsExpand : Obligations.PseudoInstructionsExpand := by
  refine ⟨fun s rd imm rest hrst hready hp => ?_, fun s rd rest hrst hready hp => ?_, fun w => rfl⟩
  · refine ⟨_, _, step_issue_li hrst hready hp, step_issue_lih hrst hready rfl, ?_, fun r hr => ?_, rfl, fun _ => rfl, rfl⟩
    · rw [reg_setReg_same, reg_setReg_same]
      exact wordOf_halves imm
    · exact (reg_setReg_other _ _ _ _ hr).trans (reg_setReg_other _ _ _ _ hr)
  · exact ⟨_, step_issue_li hrst hready hp, reg_setReg_same .., fun r hr => reg_setReg_other _ _ _ _ hr, rfl, fun _ => rfl,
      rfl⟩

end Sys2Proof.Machine


/-! SUPPORT and PROOFS. The system commands' family: what the five system commands come to, the register window after a reset,
and the command step of an accepted word. -/

namespace Sys2Proof.Machine

/-! ### The command step of an accepted word (40_sys R105) -/

section Accepted

variable {s : State} {w : Word} {i : Instr}

/-- The word of a command that is accepted in run state ERROR is one that the gate lets pass. -/
theorem acceptedInError_of_decode (hd : decode w = .command i) (hi : i = .errclr ∨ i = .sreset) :
    acceptedInError w = true := by
  obtain ⟨-, rfl⟩ := decode_eq_command_iff.1 hd
  rcases hi with rfl | rfl <;> rfl

/-- A word that the gate lets pass and that decodes runs its command, whatever error is latched. -/
theorem runCommand_accepted (ha : acceptedInError w = true) (hd : decode w = .command i) :
    runCommand w s = exec i s := by
  simp [runCommand, ha, hd]

end Accepted

/-- Settles O6: without an error the gate is open, and with one it lets the words of `ERRCLR` and `SRESET` pass. -/
theorem stepRunsTheDecodedCommand : Obligations.StepRunsTheDecodedCommand := by
  intro s rest w i hrst hp hd hgate
  rw [step_issue hrst hp]
  rcases hgate with hready | hi
  · exact runCommand_ready hready hd
  · exact runCommand_accepted (acceptedInError_of_decode hd hi) hd

/-! ### What the system commands come to (40_sys R100 to R104) -/

/-- A word put together from a high half and the low half of another word (30_encoding R80). -/
theorem wordOf_over_low_half (imm : BitVec 16) (v : Word) :
    wordOf (imm.toNat * 2 ^ 16 + bits v 0 16) = imm ++ v.extractLsb' 0 16 := by
  have hlow : bits v 0 16 = (v.extractLsb' 0 16).toNat := by simp [bits]
  apply BitVec.eq_of_toNat_eq
  rw [hlow, BitVec.toNat_append, ← Nat.shiftLeft_add_eq_or_of_lt (v.extractLsb' 0 16).isLt, Nat.shiftLeft_eq, wordOf,
    BitVec.toNat_ofNat]
  omega

section Sys

variable (s : State) (rd : Reg) (imm : BitVec 16)

theorem exec_nop : exec .nop s = .next s := rfl

/-- The register gets the immediate with zeros above (R101). -/
theorem exec_li : exec (.li rd imm) s = .next (s.setReg rd (imm.zeroExtend 32)) := by
  have hvalue : wordOf imm.toNat = imm.zeroExtend 32 := BitVec.ofNat_toNat 32 imm
  rw [← hvalue]
  rfl

/-- The register gets the immediate over its own low half (R102). -/
theorem exec_lih : exec (.lih rd imm) s = .next (s.setReg rd (imm ++ (s.reg rd).extractLsb' 0 16)) := by
  rw [← wordOf_over_low_half]
  rfl

theorem exec_errclr : exec .errclr s = .next (errorReturn s) := rfl

theorem exec_sreset : exec .sreset s = .next (softReset s) := rfl

end Sys

/-- With every register at its reset value the host reads 0 everywhere but at ID (10_state R15, R30). -/
theorem readPortReg_of_reset {s : State} (h : s.regs = Regs.reset) (r : PortReg) :
    s.readPortReg r = if r = .id then 0x57564B01 else 0 := by
  cases r with
  | x i => simp [State.readPortReg, State.reg, h, Regs.reset]
  | _ =>
    simp only [State.readPortReg, h]
    rfl

/-- Settles O23: the zero word is the encoder's word of `NOP`, whose rule makes no write. -/
theorem nopDoesNothing : Obligations.NopDoesNothing :=
  ⟨decode_eq_command_iff.2 ⟨rfl, rfl⟩, exec_nop⟩

/-- Settles O24: each word is the encoder's, and each command is one register write. -/
theorem immediateLoads : Obligations.ImmediateLoads := by
  intro s rd imm
  obtain ⟨hli, hotherLi, honlyLi⟩ := setReg_frame s rd (imm.zeroExtend 32)
  obtain ⟨hlih, hotherLih, honlyLih⟩ := setReg_frame s rd (imm ++ (s.reg rd).extractLsb' 0 16)
  exact ⟨decode_eq_command_iff.2 ⟨rfl, (wordI_eq_formatI 0x01 rd 0 imm).symm⟩,
    decode_eq_command_iff.2 ⟨rfl, (wordI_eq_formatI 0x02 rd 0 imm).symm⟩,
    ⟨_, exec_li s rd imm, hli, hotherLi, rfl, honlyLi⟩, _, exec_lih s rd imm, hlih, hotherLih, rfl, honlyLih⟩

/-- Settles O25: `ERRCLR` is the return from an error. -/
theorem errclrClearsTheErrorAndNothingElse : Obligations.ErrclrClearsTheErrorAndNothingElse :=
  ⟨decode_eq_command_iff.2 ⟨rfl, rfl⟩, fun s => ⟨_, exec_errclr s, errorReturn_regs s, onlyRegisters_regs s _⟩⟩

/-- Settles O26: `SRESET` is the soft reset, which leaves the reset values and the empty cache and writes no memory. -/
theorem sresetResetsEveryRegister : Obligations.SresetResetsEveryRegister :=
  ⟨decode_eq_command_iff.2 ⟨rfl, rfl⟩, fun s => ⟨_, exec_sreset s, readPortReg_of_reset (softReset_regs s), rfl, rfl,
    fun _ => rfl, samePort_refl s, rfl⟩⟩

end Sys2Proof.Machine


/-! SUPPORT and PROOFS. The HUF unit's family: the bit reader, one pass of the codebook walk branch by branch, and the walk of a
well-formed table as decoding of its code. -/

namespace Sys2Proof.Machine

/-! ### The bit reader (41_huffman R110 to R116, R120) -/

section Reader

variable (s : State)

/-- A stream bit is a bit of its byte (R110). -/
theorem bit_eq_getLsbD (j : Nat) : s.bit j = ((s.bsByte (j / 8)).getLsbD (j % 8)).toNat := by
  rw [BitVec.getLsbD, Nat.toNat_testBit, State.bit]

/-- The first `n` bits from `p` on, as a word, bit by bit; `n` is at most the word's width (R110). -/
theorem getLsbD_wordOf_take {p n k : Nat} (hn : n ≤ 32) :
    (wordOf (s.take p n)).getLsbD k = (decide (k < n) && (s.bsByte ((p + k) / 8)).getLsbD ((p + k) % 8)) := by
  have hvalue : (wordOf (s.take p n)).toNat = s.take p n :=
    toNat_wordOf (Nat.lt_of_lt_of_le (take_lt s p n) (Nat.pow_le_pow_right (by omega) hn))
  rw [BitVec.getLsbD, hvalue]
  by_cases hk : k < n
  · rw [Nat.testBit_eq_decide_div_mod_eq, State.take, sumBits_bit (bit_lt s) p n k hk, bit_eq_getLsbD]
    simp [hk]
  · have hlt : s.take p n < 2 ^ k := Nat.lt_of_lt_of_le (take_lt s p n) (Nat.pow_le_pow_right (by omega) (by omega))
    simp [hk, Nat.testBit_lt_two_pow hlt]

/-- A read of `n` bits into `rd`: what it writes and what it leaves (R113, R114). -/
theorem read_frame (rd : Reg) (v : Word) (n : Nat) :
    ((s.setReg rd v).consume n).reg rd = v ∧ OtherRegsSame rd s ((s.setReg rd v).consume n) ∧
    ((s.setReg rd v).consume n).regs = { s.regs with
      x := ((s.setReg rd v).consume n).regs.x, bitpos := s.regs.bitpos + BitVec.ofNat 32 n } ∧
    OnlyReader s ((s.setReg rd v).consume n) := by
  obtain ⟨hsame, hother, -⟩ := setReg_frame s rd v
  refine ⟨hsame, hother, ?_, fun _ => rfl, samePort_refl s, rfl⟩
  rw [← wordOf_add]
  rfl

variable {s} {i : Instr} {rd : Reg} {n : Nat}

/-- A command that is a read of `n` bits, at most `rem`, is that read (R113, R114). -/
theorem exec_read_done (hi : exec i s = .next (commit i s (readBits rd n s))) (hn : n ≤ s.rem) :
    exec i s = .next ((s.setReg rd (wordOf (s.take s.regs.bitpos.toNat n))).consume n) := by
  rw [hi, readBits, if_neg (by omega), commit_done]

/-- A command that is a read of more bits than remain raises `EndOfStream` (R113, R114). -/
theorem exec_read_short (hi : exec i s = .next (commit i s (readBits rd n s))) (hn : s.rem < n) :
    exec i s = .next (raise .endOfStream s.rem (encode i) s) := by
  rw [hi, readBits, if_pos hn, commit_raised]

/-- A command that is a skip of `n` bits, at most `rem`, is that skip (R115, R116). -/
theorem exec_skip_done (hi : exec i s = .next (commit i s (ignoreBits n s))) (hn : n ≤ s.rem) :
    exec i s = .next (s.skipBits n) := by
  rw [hi, ignoreBits, if_neg (by omega), commit_done]

/-- A command that is a skip of more bits than remain raises `EndOfStream` (R115, R116). -/
theorem exec_skip_short (hi : exec i s = .next (commit i s (ignoreBits n s))) (hn : s.rem < n) :
    exec i s = .next (raise .endOfStream s.rem (encode i) s) := by
  rw [hi, ignoreBits, if_pos hn, commit_raised]

/-- `BSINIT` within BSMEM binds and rewinds (R112). -/
theorem exec_bsinit_done {rs : Reg} (h : (s.reg rs).toNat ≤ s.cfg.bsBytes) :
    exec (.bsinit rs) s = .next { s with regs.bslen := s.reg rs, regs.bitpos := 0, cache := BitCache.emptyAt 0 } := by
  simp only [exec, execBsinit, State.operand, if_neg (Nat.not_lt.2 h), settle_eq, commit_done, wordOf_toNat]

/-- `BSINIT` beyond BSMEM raises `BadOperand` (R112). -/
theorem exec_bsinit_raised {rs : Reg} (h : s.cfg.bsBytes < (s.reg rs).toNat) :
    exec (.bsinit rs) s = .next (raise .badOperand (s.reg rs).toNat (encode (.bsinit rs)) s) := by
  simp only [exec, execBsinit, State.operand, gt_iff_lt, h, if_true, settle_eq, commit_raised]

end Reader

/-- Settles O27: the one test of `BSINIT`, either way. -/
theorem bsinitBindsTheReader : Obligations.BsinitBindsTheReader := by
  intro s rs
  refine ⟨decode_eq_command_iff.2 ⟨rfl, (wordI_eq_formatI 0x10 0 rs 0).symm⟩, fun h => ?_, fun h => ?_⟩
  · exact ⟨_, exec_bsinit_done h, rfl, rfl, fun _ => rfl, samePort_refl s, rfl⟩
  · have hentered := raise_entered s .badOperand (s.reg rs).toNat (encode (.bsinit rs))
    rw [wordOf_toNat] at hentered
    exact ⟨_, exec_bsinit_raised h, hentered⟩

/-- Settles O28: both commands are the read of `n` bits, whose word is the stream's bits one by one. -/
theorem bitReadsReturnTheStreamBits : Obligations.BitReadsReturnTheStreamBits := by
  refine ⟨fun rd => ⟨decode_eq_command_iff.2 ⟨rfl, (wordI_eq_formatI 0x11 rd 0 0).symm⟩, fun n hn => ?_⟩, ?_⟩
  · obtain ⟨-, -, -, -, -, -, -, -, -, hword, -⟩ := word_of_command
    exact decode_eq_command_iff.2 ⟨by simpa [Instr.wf] using hn, (hword rd n).symm⟩
  intro s rd i n h
  obtain ⟨hi, hn32⟩ : exec i s = .next (commit i s (readBits rd n s)) ∧ n ≤ 32 := by
    rcases h with ⟨rfl, rfl⟩ | ⟨m, rfl, rfl, hm⟩
    · exact ⟨rfl, by omega⟩
    · exact ⟨rfl, hm⟩
  refine ⟨fun hn => ?_, fun hn => ⟨_, exec_read_short hi hn, raise_entered s ..⟩⟩
  obtain ⟨hrd, hother, hregs, honly⟩ := read_frame s rd (wordOf (s.take s.regs.bitpos.toNat n)) n
  refine ⟨_, exec_read_done hi hn, fun k hk => ?_, fun k hk => ?_, hother, hregs, honly⟩
  · rw [hrd, getLsbD_wordOf_take s hn32]
    simp [hk, State.bsByte, MemName.base]
  · rw [hrd, getLsbD_wordOf_take s hn32]
    simp [Nat.not_lt.2 hk]

/-- Settles O29: both commands are the skip of `n` bits. -/
theorem skipsAdvanceThePosition : Obligations.SkipsAdvanceThePosition := by
  refine ⟨fun imm => decode_eq_command_iff.2 ⟨rfl, (wordI_eq_formatI 0x13 0 0 imm).symm⟩,
    fun rs => decode_eq_command_iff.2 ⟨rfl, (wordI_eq_formatI 0x14 0 rs 0).symm⟩, fun s i n h => ?_⟩
  have hi : exec i s = .next (commit i s (ignoreBits n s)) := by
    rcases h with ⟨imm, rfl, rfl⟩ | ⟨rs, rfl, rfl⟩ <;> rfl
  obtain ⟨hmem, hport⟩ := skipBits_frame s n
  refine ⟨fun hn => ⟨_, exec_skip_done hi hn, ?_, hmem, hport, rfl⟩,
    fun hn => ⟨_, exec_skip_short hi hn, raise_entered s ..⟩⟩
  rw [← wordOf_add]
  rfl

/-! ### The laws of the position (41_huffman R120) -/

/-- `t` is left by a command that advances the reader of `s` by `n` bits, or by the `EndOfStream` of a stream too short for it. -/
inductive Advanced (s : State) (n : Nat) (t : State) : Prop where
  | done (hn : n ≤ s.rem) (hcfg : t.cfg = s.cfg) (hbslen : t.regs.bslen = s.regs.bslen)
      (hbitpos : t.regs.bitpos.toNat = s.regs.bitpos.toNat + n) (hstatus : t.regs.status = s.regs.status)
  | short (hn : s.rem < n) (herr : t.regs.status.err = true)

section Position

variable {s t : State} {i : Instr} {rd : Reg} {n : Nat}

/-- The new position fits its register. -/
theorem toNat_bitpos_advance (hp : s.cfg.Valid) (hr : s.ReaderInv) (hn : n ≤ s.rem) :
    (wordOf (s.regs.bitpos.toNat + n)).toNat = s.regs.bitpos.toNat + n := by
  obtain ⟨-, hbs, -⟩ := hp
  obtain ⟨hlen, hpos⟩ := hr
  unfold State.rem at hn
  exact toNat_wordOf (by omega)

theorem advanced_of_read (hp : s.cfg.Valid) (hr : s.ReaderInv) (hi : exec i s = .next (commit i s (readBits rd n s)))
    (h : exec i s = .next t) : Advanced s n t := by
  rcases Nat.lt_or_ge s.rem n with hn | hn
  · cases (exec_read_short hi hn).symm.trans h
    exact .short hn rfl
  · cases (exec_read_done hi hn).symm.trans h
    exact .done hn rfl rfl (toNat_bitpos_advance hp hr hn) rfl

theorem advanced_of_skip (hp : s.cfg.Valid) (hr : s.ReaderInv) (hi : exec i s = .next (commit i s (ignoreBits n s)))
    (h : exec i s = .next t) : Advanced s n t := by
  rcases Nat.lt_or_ge s.rem n with hn | hn
  · cases (exec_skip_short hi hn).symm.trans h
    exact .short hn rfl
  · cases (exec_skip_done hi hn).symm.trans h
    exact .done hn rfl rfl (toNat_bitpos_advance hp hr hn) rfl

/-- An advance succeeds exactly when enough bits remain. -/
theorem Advanced.ready_iff (h : Advanced s n t) (hs : s.Ready) : t.Ready ↔ n ≤ s.rem := by
  cases h with
  | done hn _ _ _ hstatus => exact ⟨fun _ => hn, fun _ => (congrArg Status.err hstatus).trans hs⟩
  | short hn herr => exact ⟨fun ht => absurd (herr.symm.trans ht) (by decide), fun hle => by omega⟩

/-- What a successful advance leaves: the position, the bits that remain, and the premises of the next advance. -/
theorem Advanced.position (h : Advanced s n t) (hr : s.ReaderInv) (hn : n ≤ s.rem) :
    t.regs.bitpos.toNat = s.regs.bitpos.toNat + n ∧ t.rem = s.rem - n ∧ t.cfg = s.cfg ∧ t.ReaderInv := by
  cases h with
  | done _ hcfg hbslen hbitpos _ =>
    obtain ⟨hlen, hpos⟩ := hr
    refine ⟨hbitpos, ?_, hcfg, ?_⟩
    · rw [State.rem, State.rem, hbslen, hbitpos, Nat.sub_sub]
    · unfold State.rem at hn
      rw [State.ReaderInv, hcfg, hbslen, hbitpos]
      exact ⟨hlen, by omega⟩
  | short hlt => omega

/-- No command but `BSINIT` and `SRESET` moves the position back. -/
theorem ExecResult.bitpos_le (h : ExecResult s i t) (hp : s.cfg.Valid) (hr : s.ReaderInv) (hbsinit : ∀ rs, i ≠ .bsinit rs)
    (hsreset : i ≠ .sreset) : s.regs.bitpos.toNat ≤ t.regs.bitpos.toNat := by
  have hle {n : Nat} (hn : n ≤ s.rem) : s.regs.bitpos.toNat ≤ (wordOf (s.regs.bitpos.toNat + n)).toNat := by
    rw [toNat_bitpos_advance hp hr hn]
    omega
  cases h with
  | bsinit rs => exact absurd rfl (hbsinit rs)
  | sreset => exact absurd rfl hsreset
  | rdbool _ hn | rdbits _ _ hn | skipi _ hn | skip _ hn => exact hle hn
  | rdcb _ _ hd => exact hle (decodeCode_value_le hd)
  | _ => exact Nat.le_refl _

/-- A successful read returns the number of its bits. -/
theorem toNat_reg_of_read (hi : exec i s = .next (commit i s (readBits rd n s))) (hn : n ≤ s.rem) (h32 : n ≤ 32)
    (h : exec i s = .next t) : (t.reg rd).toNat = s.take s.regs.bitpos.toNat n := by
  cases (exec_read_done hi hn).symm.trans h
  rw [(read_frame s rd _ n).1]
  exact toNat_wordOf (Nat.lt_of_lt_of_le (take_lt s _ n) (Nat.pow_le_pow_right (by omega) h32))

/-- A read writes no byte of BSMEM. -/
theorem take_of_read (hi : exec i s = .next (commit i s (readBits rd n s))) (hn : n ≤ s.rem) (h : exec i s = .next t)
    (p m : Nat) : t.take p m = s.take p m := by
  cases (exec_read_done hi hn).symm.trans h
  exact take_congr (fun _ => rfl) p m

end Position

/-- Settles O34: each advance by its length, the value of a read as a sum of bits, and the position after each command. -/
theorem readerPositionLaws : Obligations.ReaderPositionLaws := by
  refine ⟨?_, ?_, fun s t i hp hr h => (exec_result h).bitpos_le hp hr⟩
  · intro s t u v k n m rd hp hr hs hkn hm ht hu hv
    have hk : (k.setWidth 16).toNat = k.toNat := by
      rw [BitVec.toNat_setWidth, Nat.mod_eq_of_lt (by omega)]
    have ht' : Advanced s (k.setWidth 16).toNat t := advanced_of_skip hp hr rfl ht
    have hv' : Advanced s m.toNat v := advanced_of_read hp hr rfl hv
    rw [hk] at ht'
    have hsecond (hle : k.toNat ≤ s.rem) : t.regs.bitpos.toNat = s.regs.bitpos.toNat + k.toNat ∧
        t.rem = s.rem - k.toNat ∧ t.ReaderInv ∧ Advanced t n.toNat u := by
      obtain ⟨hpos, hrem, hcfg, hrt⟩ := ht'.position hr hle
      exact ⟨hpos, hrem, hrt, advanced_of_read (hcfg ▸ hp) hrt rfl hu⟩
    refine ⟨⟨fun ⟨hready, hready'⟩ => ?_, fun hle => ?_⟩, hv'.ready_iff hs, fun hle => ⟨?_, (hv'.position hr hle).1⟩⟩
    · have hle := (ht'.ready_iff hs).1 hready
      obtain ⟨-, hrem, -, hu'⟩ := hsecond hle
      have := (hu'.ready_iff hready).1 hready'
      omega
    · obtain ⟨-, hrem, -, hu'⟩ := hsecond (by omega)
      have hready := (ht'.ready_iff hs).2 (by omega)
      exact ⟨hready, (hu'.ready_iff hready).2 (by omega)⟩
    · obtain ⟨hpos, hrem, hrt, hu'⟩ := hsecond (by omega)
      rw [(hu'.position hrt (by omega)).1]
      omega
  · intro s t u v k n m rd hp hr hkn hm hle ht hu hv
    have hk : k.toNat ≤ s.rem := by omega
    obtain ⟨hpos, hrem, -, -⟩ := (advanced_of_read hp hr rfl ht).position hr hk
    rw [toNat_reg_of_read rfl hk (by omega) ht, toNat_reg_of_read rfl (by omega) (by omega) hu,
      toNat_reg_of_read rfl hle (by omega) hv, take_of_read rfl hk ht, hpos, hm, State.take, sumBits_append, Nat.mul_comm]
    rfl

/-! ### One pass of the codebook walk (41_huffman R118) -/

/-- A pass with a block of legal width reads the entry `e` of CBMEM, at the index `a` (R118). -/
structure PassReads (s : State) (base width off consumed a : Nat) (e : Entry) : Prop where
  width_pos : 1 ≤ width
  width_le : width ≤ 32
  index : a = base + off + s.peek (s.regs.bitpos.toNat + consumed) width
  inCbmem : a < s.cfg.cbEntries
  entry : s.cbEntry a = e

section Pass

variable {s : State} {base fuel width off src consumed a : Nat} {e : Entry}

theorem walk_illegal_width (h : width = 0 ∨ 32 < width) :
    walk s base (fuel + 1) width off src consumed = .raised .malformedTable src := by
  rw [walk, if_pos h]

theorem walk_outside_cbmem (hw : 1 ≤ width) (hw' : width ≤ 32)
    (ha : a = base + off + s.peek (s.regs.bitpos.toNat + consumed) width) (hout : s.cfg.cbEntries ≤ a) :
    walk s base (fuel + 1) width off src consumed = .raised .tableBounds a := by
  subst ha
  rw [walk, if_neg (by omega)]
  exact if_pos hout

/-- What a pass does with the entry it reads. -/
theorem PassReads.walk_eq (h : PassReads s base width off consumed a e) :
    walk s base (fuel + 1) width off src consumed =
      if Entry.jump e then
        if s.rem < consumed + width then .raised .endOfStream s.rem
        else walk s base fuel (Entry.len e) (Entry.off e) a (consumed + width)
      else if Entry.len e = 0 then
        if s.rem < consumed + width then .raised .endOfStream s.rem else .raised .decodeError a
      else if s.rem < consumed + Entry.len e then .raised .endOfStream s.rem
      else .value (Entry.off e) (consumed + Entry.len e) := by
  obtain ⟨hw, hw', rfl, hin, rfl⟩ := h
  rw [walk, if_neg (by omega)]
  exact if_neg (by omega)

theorem PassReads.walk_jump (h : PassReads s base width off consumed a e) (hj : Entry.jump e = true)
    (hn : consumed + width ≤ s.rem) : walk s base (fuel + 1) width off src consumed =
      walk s base fuel (Entry.len e) (Entry.off e) a (consumed + width) := by
  rw [h.walk_eq, if_pos hj, if_neg (by omega)]

theorem PassReads.walk_unused (h : PassReads s base width off consumed a e) (hj : Entry.jump e = false)
    (hlen : Entry.len e = 0) (hn : consumed + width ≤ s.rem) :
    walk s base (fuel + 1) width off src consumed = .raised .decodeError a := by
  rw [h.walk_eq, if_neg (by simp [hj]), if_pos hlen, if_neg (by omega)]

theorem PassReads.walk_value (h : PassReads s base width off consumed a e) (hj : Entry.jump e = false)
    (hlen : 1 ≤ Entry.len e) (hn : consumed + Entry.len e ≤ s.rem) :
    walk s base (fuel + 1) width off src consumed = .value (Entry.off e) (consumed + Entry.len e) := by
  rw [h.walk_eq, if_neg (by simp [hj]), if_neg (by omega), if_neg (by omega)]

/-- A jump or an unused slot takes the whole width, which must remain. -/
theorem PassReads.walk_short_width (h : PassReads s base width off consumed a e)
    (he : Entry.jump e = true ∨ Entry.len e = 0) (hn : s.rem < consumed + width) :
    walk s base (fuel + 1) width off src consumed = .raised .endOfStream s.rem := by
  rw [h.walk_eq, if_pos hn, if_pos hn]
  rcases he with hj | hlen
  · exact if_pos hj
  · rw [if_pos hlen, ite_self]

theorem PassReads.walk_short_value (h : PassReads s base width off consumed a e) (hj : Entry.jump e = false)
    (hlen : 1 ≤ Entry.len e) (hn : s.rem < consumed + Entry.len e) :
    walk s base (fuel + 1) width off src consumed = .raised .endOfStream s.rem := by
  rw [h.walk_eq, if_neg (by simp [hj]), if_neg (by omega), if_pos hn]

end Pass

/-- Settles O31: the two tests before the entry is read, then the branches of a pass that reads it. -/
theorem rdcbLoopFollowsThePseudocode : Obligations.RdcbLoopFollowsThePseudocode := by
  intro s base fuel width off src consumed pass a e len field
  refine ⟨walk_illegal_width, fun hw hw' => ⟨walk_outside_cbmem hw hw' rfl, fun hin => ?_, fun hin => ?_, fun hin => ?_⟩⟩
  all_goals
    have hreads : PassReads s base width off consumed a e := ⟨hw, hw', rfl, hin, rfl⟩
    rw [← entry_jump_eq]
    simp only [len, field, ← entry_len_eq, ← entry_off_eq]
  · exact fun hj => ⟨hreads.walk_short_width (.inl hj), hreads.walk_jump hj⟩
  · exact fun hj hlen => ⟨hreads.walk_short_width (.inr hlen), hreads.walk_unused hj hlen⟩
  · exact fun hj hlen => ⟨hreads.walk_short_value hj hlen, hreads.walk_value hj hlen⟩

/-- Settles O32: every jump consumes a bit of the `rem`, so passes beyond `rem + 1` are never run. -/
theorem rdcbEndsWithinRemPlusOnePasses : Obligations.RdcbEndsWithinRemPlusOnePasses :=
  fun _ _ _ _ _ extra => walk_more_fuel extra (Nat.zero_le _) (by omega)

/-! ### What the decode depends on (41_huffman R119) -/

section Tail

variable {s t : State} {base : Nat}

/-- Two streams with the same remaining bits peek the same: past the end both read 0. -/
theorem peek_congr_of_remaining (hrem : t.rem = s.rem)
    (hbits : ∀ j < s.rem, t.bit (t.regs.bitpos.toNat + j) = s.bit (s.regs.bitpos.toNat + j)) (consumed width : Nat) :
    t.peek (t.regs.bitpos.toNat + consumed) width = s.peek (s.regs.bitpos.toNat + consumed) width := by
  refine sumBits_congr _ _ _ fun k _ => ?_
  rw [Nat.add_assoc, Nat.add_assoc]
  generalize consumed + k = j
  have hinside (u : State) : u.regs.bitpos.toNat + j < 8 * u.regs.bslen.toNat ↔ j < u.rem := by
    unfold State.rem
    omega
  simp only [State.bitz, hinside, hrem]
  split
  · exact hbits j ‹_›
  · rfl

theorem walk_congr_of_remaining (hcfg : t.cfg.cbEntries = s.cfg.cbEntries)
    (hcb : ∀ k < s.cfg.cbEntries, t.cbEntry k = s.cbEntry k) (hrem : t.rem = s.rem)
    (hbits : ∀ j < s.rem, t.bit (t.regs.bitpos.toNat + j) = s.bit (s.regs.bitpos.toNat + j)) (fuel : Nat) :
    ∀ width off src consumed, walk t base fuel width off src consumed = walk s base fuel width off src consumed := by
  induction fuel with
  | zero =>
    intro width off src consumed
    rw [walk, walk, hrem]
  | succ fuel ih =>
    intro width off src consumed
    have hpeek := peek_congr_of_remaining hrem hbits consumed width
    by_cases hw : width = 0 ∨ 32 < width
    · rw [walk_illegal_width hw, walk_illegal_width hw]
    rcases Nat.lt_or_ge (base + off + s.peek (s.regs.bitpos.toNat + consumed) width) s.cfg.cbEntries with hin | hout
    · have hs : PassReads s base width off consumed _ _ := ⟨by omega, by omega, rfl, hin, rfl⟩
      have ht : PassReads t base width off consumed _ _ :=
        ⟨by omega, by omega, by rw [hpeek], by rwa [hcfg], hcb _ hin⟩
      rw [hs.walk_eq, ht.walk_eq, hrem, ih]
    · rw [walk_outside_cbmem (by omega) (by omega) rfl hout,
        walk_outside_cbmem (by omega) (by omega) (by rw [hpeek]) (by rwa [hcfg])]

end Tail

/-- Settles O33: the sentinel is the same, and so is every pass of the walk. -/
theorem rdcbDependsOnlyOnTheRemainingBits : Obligations.RdcbDependsOnlyOnTheRemainingBits := by
  intro s t base hcfg hcb hrem hbits
  unfold decodeCode
  rw [hcfg]
  split
  · rfl
  · rename_i hin
    simp only [hcb base (by omega), hrem, walk_congr_of_remaining hcfg hcb hrem hbits]

/-! ### The command `RDCB` (41_huffman R118) -/

section Command

variable {s : State} {rd rs : Reg} {base v n info : Nat} {c : Cause}

theorem decodeCode_outside_cbmem (h : s.cfg.cbEntries ≤ base) : decodeCode s base = .raised .tableBounds base := by
  rw [decodeCode, if_pos h]

theorem decodeCode_not_sentinel (hin : base < s.cfg.cbEntries) (h : Entry.jump (s.cbEntry base) = false) :
    decodeCode s base = .raised .malformedTable base := by
  rw [decodeCode, if_neg (by omega)]
  exact if_neg (by simp [h])

theorem decodeCode_eq_walk (hin : base < s.cfg.cbEntries) (h : Entry.jump (s.cbEntry base) = true) :
    decodeCode s base = walk s base (s.rem + 1) (Entry.len (s.cbEntry base)) (Entry.off (s.cbEntry base)) base 0 := by
  rw [decodeCode, if_neg (by omega)]
  exact if_pos h

/-- `RDCB` whose decode returns a value writes `x[rd]`, `HLEN` and `BITPOS`. -/
theorem rdcb_writes_value (h : decodeCode s (s.reg rs).toNat = .value v n) :
    ∃ t, exec (.rdcb rd rs) s = .next t ∧ t.reg rd = BitVec.ofNat 32 v ∧ OtherRegsSame rd s t ∧
      t.regs = { s.regs with
        x := t.regs.x, hlen := BitVec.ofNat 32 n, bitpos := s.regs.bitpos + BitVec.ofNat 32 n } ∧ OnlyReader s t := by
  obtain ⟨hrd, hother, hregs, honly⟩ := read_frame s rd (wordOf v) n
  exact ⟨_, exec_rdcb_value h, hrd, hother, congrArg (fun r : Regs => { r with hlen := wordOf n }) hregs, honly⟩

/-- `RDCB` whose decode raises enters that error. -/
theorem rdcb_enters_error (h : decodeCode s (s.reg rs).toNat = .raised c info) :
    ∃ t, exec (.rdcb rd rs) s = .next t ∧ ErrorEntered s t c (BitVec.ofNat 32 info) (encode (.rdcb rd rs)) :=
  ⟨_, exec_rdcb_raised h, raise_entered s ..⟩

/-- The same, with the base as the error's detail. -/
theorem rdcb_enters_error_at_base (h : decodeCode s (s.reg rs).toNat = .raised c (s.reg rs).toNat) :
    ∃ t, exec (.rdcb rd rs) s = .next t ∧ ErrorEntered s t c (s.reg rs) (encode (.rdcb rd rs)) := by
  obtain ⟨t, ht, hentered⟩ := rdcb_enters_error (rd := rd) h
  rw [BitVec.ofNat_toNat, BitVec.setWidth_eq] at hentered
  exact ⟨t, ht, hentered⟩

end Command

/-- Settles O30: the sentinel's tests, then the walk's outcome, each through what `RDCB` makes of a decode. -/
theorem rdcbWritesTheDecodedValue : Obligations.RdcbWritesTheDecodedValue := by
  intro s rd rs base sentinel width off
  have hwalk (hin : base < s.cfg.cbEntries) (hj : sentinel.getLsbD 63 = true) :
      decodeCode s base = walk s base (s.rem + 1) width off base 0 := by
    simp only [width, off, ← entry_len_eq, ← entry_off_eq]
    exact decodeCode_eq_walk hin (by rwa [entry_jump_eq])
  refine ⟨decode_eq_command_iff.2 ⟨rfl, (wordI_eq_formatI 0x15 rd rs 0).symm⟩,
    fun hout => rdcb_enters_error_at_base (decodeCode_outside_cbmem hout), fun hin h => rdcb_enters_error_at_base ?_,
    fun hin hj => ⟨fun v n h => rdcb_writes_value ((hwalk hin hj).trans h),
      fun c info h => rdcb_enters_error ((hwalk hin hj).trans h)⟩⟩
  cases hj : sentinel.getLsbD 63 with
  | false => exact decodeCode_not_sentinel hin (by rwa [entry_jump_eq])
  | true => exact (hwalk hin hj).trans (walk_illegal_width (h.resolve_left (by simp [hj])))

/-! ### Slots of a well-formed table (42_codebook_table R146) -/

section Slots

variable {t : Table} {blocks : List Block} {off width idx : Nat}

/-- A used value entry's length is at most its block's width, and the entry stands in every slot with the same low bits (R143). -/
theorem WellFormedTable.slot_value (ht : WellFormedTable t blocks) (hb : ⟨off, width⟩ ∈ blocks) (hidx : idx < 2 ^ width)
    (hj : Entry.jump (tableAt t (off + idx)) = false) (hlen : 1 ≤ Entry.len (tableAt t (off + idx))) :
    Entry.len (tableAt t (off + idx)) ≤ width ∧
    ∀ idx' < 2 ^ width, idx' % 2 ^ Entry.len (tableAt t (off + idx)) = idx % 2 ^ Entry.len (tableAt t (off + idx)) →
      tableAt t (off + idx') = tableAt t (off + idx) := by
  rcases ht.slots _ hb idx hidx with hunused | ⟨-, -, hle, hsame⟩ | ⟨c, -, hjump, -⟩
  · rw [hunused] at hlen
    exact absurd hlen (by decide)
  · exact ⟨hle, hsame⟩
  · exact absurd (hj.symm.trans hjump) (by decide)

/-- A jump leads to a block of the table. -/
theorem WellFormedTable.slot_jump (ht : WellFormedTable t blocks) (hb : ⟨off, width⟩ ∈ blocks) (hidx : idx < 2 ^ width)
    (hj : Entry.jump (tableAt t (off + idx)) = true) :
    ⟨Entry.off (tableAt t (off + idx)), Entry.len (tableAt t (off + idx))⟩ ∈ blocks := by
  rcases ht.slots _ hb idx hidx with hunused | ⟨hvalue, -⟩ | ⟨c, hc, -, hoff, hlen⟩
  · rw [hunused] at hj
    exact absurd hj (by decide)
  · exact absurd (hj.symm.trans hvalue) (by decide)
  · simp only at hoff hlen
    rwa [hoff, hlen]

/-- A slot is in the table. -/
theorem WellFormedTable.slot_lt_length (ht : WellFormedTable t blocks) (hb : ⟨off, width⟩ ∈ blocks) (hidx : idx < 2 ^ width) :
    off + idx < t.length := by
  obtain ⟨-, -, -, hstop⟩ := ht.bounds _ hb
  simp only [Block.stop] at hstop
  omega

/-- The walk's pass in a block of the table reads the slot that the peeked bits name. -/
theorem passReads_slot {s : State} {base consumed : Nat} (ht : WellFormedTable t blocks) (hs : s.holdsTable base t)
    (hb : ⟨off, width⟩ ∈ blocks) (hidx : s.peek (s.regs.bitpos.toNat + consumed) width = idx) :
    PassReads s base width off consumed (base + off + idx) (tableAt t (off + idx)) := by
  obtain ⟨hfit, hentries⟩ := hs
  obtain ⟨hw, hw', -⟩ := ht.bounds _ hb
  have hslot := ht.slot_lt_length hb (hidx ▸ peek_lt s _ _)
  refine ⟨hw, hw', by rw [hidx], by omega, ?_⟩
  rw [Nat.add_assoc]
  exact hentries _ hslot

/-- The decode of a well-formed table is the walk from its root block. -/
theorem decodeCode_eq_walk_root {s : State} {base : Nat} (ht : WellFormedTable t blocks) (hs : s.holdsTable base t) :
    ⟨Entry.off (tableAt t 0), Entry.len (tableAt t 0)⟩ ∈ blocks ∧
    decodeCode s base = walk s base (s.rem + 1) (Entry.len (tableAt t 0)) (Entry.off (tableAt t 0)) base 0 := by
  obtain ⟨r, rest, hblocks, hj, hoff, hlen⟩ := ht.root
  have hr : r ∈ blocks := by simp [hblocks]
  have hpos := ht.slot_lt_length hr (Nat.two_pow_pos _)
  obtain ⟨hfit, hentries⟩ := hs
  have hsentinel : s.cbEntry base = tableAt t 0 := hentries 0 (by omega)
  refine ⟨by rwa [hoff, hlen], ?_⟩
  rw [decodeCode_eq_walk (by omega) (by rwa [hsentinel]), hsentinel]

end Slots

/-! ### Peeked bits and codewords (41_huffman R117, 42_codebook_table R142) -/

section Bits

variable {s : State} {p consumed width k idx : Nat}

theorem lowBits_eq_map_testBit (v n : Nat) : lowBits v n = (List.range n).map v.testBit := by
  refine List.map_congr_left fun i _ => ?_
  rw [Nat.testBit_eq_decide_div_mod_eq]
  rfl

/-- Numbers have the same low bits when they are congruent. -/
theorem lowBits_eq_iff {u v n : Nat} : lowBits u n = lowBits v n ↔ u % 2 ^ n = v % 2 ^ n := by
  simp only [lowBits_eq_map_testBit, List.map_inj_left, List.mem_range]
  refine ⟨fun h => Nat.eq_of_testBit_eq fun i => ?_, fun h i hi => ?_⟩
  · by_cases hi : i < n <;> simp [Nat.testBit_mod_two_pow, hi, h]
  · simpa [Nat.testBit_mod_two_pow, hi] using congrArg (Nat.testBit · i) h

theorem lowBits_take {v n : Nat} (h : k ≤ n) : (lowBits v n).take k = lowBits v k := by
  rw [lowBits, ← List.map_take, List.take_range, Nat.min_eq_left h, lowBits]

/-- The stream's bits are the low bits of a take. -/
theorem streamBits_eq_lowBits : s.streamBits p k = lowBits (s.take p k) k := by
  refine List.map_congr_left fun i hi => ?_
  rw [State.take, sumBits_bit (bit_lt s) p k i (List.mem_range.1 hi)]

theorem streamBits_length : (s.streamBits p k).length = k := by simp [State.streamBits]

theorem streamBits_add (m : Nat) : s.streamBits p (k + m) = s.streamBits p k ++ s.streamBits (p + k) m := by
  simp [State.streamBits, List.range_add, Nat.add_assoc]

/-- The next `k` remaining bits are those of a slot exactly when the peeked index and the slot have the same low `k` bits. -/
theorem streamBits_eq_lowBits_iff_peek (hk : k ≤ width) (hrem : consumed + k ≤ s.rem) :
    s.streamBits (s.regs.bitpos.toNat + consumed) k = lowBits idx k ↔
      s.peek (s.regs.bitpos.toNat + consumed) width % 2 ^ k = idx % 2 ^ k := by
  have hpeek : s.peek (s.regs.bitpos.toNat + consumed) width % 2 ^ k = s.take (s.regs.bitpos.toNat + consumed) k := by
    rw [State.peek, sumBits_mod (bitz_lt s) _ hk]
    refine sumBits_congr _ _ _ fun i hi => if_pos ?_
    unfold State.rem at hrem
    omega
  rw [streamBits_eq_lowBits, lowBits_eq_iff, hpeek, Nat.mod_eq_of_lt (take_lt s _ k)]

/-- A slot whose bits all come next is the slot peeked. -/
theorem peek_eq_of_streamBits (hidx : idx < 2 ^ width) (hrem : consumed + width ≤ s.rem)
    (h : s.streamBits (s.regs.bitpos.toNat + consumed) width = lowBits idx width) :
    s.peek (s.regs.bitpos.toNat + consumed) width = idx := by
  have hmod := (streamBits_eq_lowBits_iff_peek (Nat.le_refl width) hrem).1 h
  rwa [Nat.mod_eq_of_lt (peek_lt s _ _), Nat.mod_eq_of_lt hidx] at hmod

end Bits

/-! ### The walk of a well-formed table decodes the codeword that comes next (41_huffman R121) -/

section WalkOfTable

variable {s : State} {base : Nat} {t : Table} {blocks : List Block}

/-- A codeword that comes next is what the walk from its block returns. -/
theorem walk_of_code (ht : WellFormedTable t blocks) (hs : s.holdsTable base t) {off width : Nat} {code : List Bool} {v : Nat}
    (hc : CodeOf t off width code v) : ∀ {fuel src consumed : Nat}, ⟨off, width⟩ ∈ blocks →
      consumed + code.length ≤ s.rem → s.rem < consumed + fuel →
      s.streamBits (s.regs.bitpos.toNat + consumed) code.length = code →
      walk s base fuel width off src consumed = .value v (consumed + code.length) := by
  induction hc with
  | leaf off width idx hidx hj hlen =>
    intro fuel src consumed hb hle hfuel hbits
    rw [lowBits_length] at hle hbits ⊢
    obtain ⟨fuel, rfl⟩ := Nat.exists_eq_succ_of_ne_zero (show fuel ≠ 0 by omega)
    obtain ⟨hwidth, hsame⟩ := ht.slot_value hb hidx hj hlen
    have hentry := hsame _ (peek_lt s _ _) ((streamBits_eq_lowBits_iff_peek hwidth hle).1 hbits)
    have hreads := passReads_slot (consumed := consumed) ht hs hb rfl
    rw [hentry] at hreads
    exact hreads.walk_value hj hlen hle
  | jump off width idx code v hidx hj _ ih =>
    intro fuel src consumed hb hle hfuel hbits
    rw [List.length_append, lowBits_length] at hle hbits ⊢
    obtain ⟨fuel, rfl⟩ := Nat.exists_eq_succ_of_ne_zero (show fuel ≠ 0 by omega)
    rw [streamBits_add] at hbits
    obtain ⟨hslot, hrest⟩ := List.append_inj hbits (by rw [streamBits_length, lowBits_length])
    have hreads := passReads_slot ht hs hb (peek_eq_of_streamBits hidx (by omega) hslot)
    have hw := hreads.width_pos
    rw [hreads.walk_jump hj (by omega), ← Nat.add_assoc]
    exact ih (ht.slot_jump hb hidx hj) (by omega) (by omega) (by rwa [← Nat.add_assoc])

/-- Where fewer bits remain than the block's width, and they are the first bits of a slot that takes more bits than remain, the
walk runs out of bits: the peeked slot, whichever it is, takes more bits than remain too. -/
theorem walk_short_of_slot (ht : WellFormedTable t blocks) (hs : s.holdsTable base t) {fuel width off src consumed idx : Nat}
    (hb : ⟨off, width⟩ ∈ blocks) (hidx : idx < 2 ^ width) (hle : consumed ≤ s.rem) (hshort : s.rem < consumed + width)
    (hbits : s.streamBits (s.regs.bitpos.toNat + consumed) (s.rem - consumed) = lowBits idx (s.rem - consumed))
    (hslot : Entry.jump (tableAt t (off + idx)) = true ∨ s.rem < consumed + Entry.len (tableAt t (off + idx))) :
    walk s base (fuel + 1) width off src consumed = .raised .endOfStream s.rem := by
  have hreads := passReads_slot (consumed := consumed) ht hs hb rfl
  have hpeek := peek_lt s (s.regs.bitpos.toNat + consumed) width
  have hmod := (streamBits_eq_lowBits_iff_peek (width := width) (by omega) (by omega)).1 hbits
  generalize s.peek (s.regs.bitpos.toNat + consumed) width = idx' at hreads hpeek hmod
  generalize he : tableAt t (off + idx') = e at hreads
  cases hj : Entry.jump e with
  | true => exact hreads.walk_short_width (.inl hj) hshort
  | false =>
    rcases Nat.eq_zero_or_pos (Entry.len e) with hlen | hlen
    · exact hreads.walk_short_width (.inr hlen) hshort
    · refine hreads.walk_short_value hj hlen (Nat.lt_of_not_le fun hfits => ?_)
      subst he
      obtain ⟨-, hsame⟩ := ht.slot_value hb hpeek hj hlen
      have hdvd : 2 ^ Entry.len (tableAt t (off + idx')) ∣ 2 ^ (s.rem - consumed) := Nat.pow_dvd_pow 2 (by omega)
      have hentry := hsame idx hidx (by rw [← Nat.mod_mod_of_dvd idx hdvd, ← hmod, Nat.mod_mod_of_dvd _ hdvd])
      rw [hentry, hj] at hslot
      exact hslot.elim (by decide) (by omega)

/-- Where the stream ends inside a codeword the walk runs out of bits. -/
theorem walk_of_truncated_code (ht : WellFormedTable t blocks) (hs : s.holdsTable base t) {off width : Nat}
    {code : List Bool} {v : Nat} (hc : CodeOf t off width code v) : ∀ {fuel src consumed : Nat}, ⟨off, width⟩ ∈ blocks →
      consumed ≤ s.rem → s.rem < consumed + code.length → s.rem < consumed + fuel →
      s.streamBits (s.regs.bitpos.toNat + consumed) (s.rem - consumed) = code.take (s.rem - consumed) →
      walk s base fuel width off src consumed = .raised .endOfStream s.rem := by
  induction hc with
  | leaf off width idx hidx hj hlen =>
    intro fuel src consumed hb hle hshort hfuel hbits
    rw [lowBits_length] at hshort
    obtain ⟨fuel, rfl⟩ := Nat.exists_eq_succ_of_ne_zero (show fuel ≠ 0 by omega)
    obtain ⟨hwidth, -⟩ := ht.slot_value hb hidx hj hlen
    rw [lowBits_take (by omega)] at hbits
    exact walk_short_of_slot ht hs hb hidx hle (by omega) hbits (.inr hshort)
  | jump off width idx code v hidx hj _ ih =>
    intro fuel src consumed hb hle hshort hfuel hbits
    rw [List.length_append, lowBits_length] at hshort
    obtain ⟨fuel, rfl⟩ := Nat.exists_eq_succ_of_ne_zero (show fuel ≠ 0 by omega)
    rw [List.take_append, lowBits_length] at hbits
    rcases Nat.lt_or_ge s.rem (consumed + width) with hw | hw
    · rw [Nat.sub_eq_zero_of_le (show s.rem - consumed ≤ width by omega), List.take_zero, List.append_nil,
        lowBits_take (by omega)] at hbits
      exact walk_short_of_slot ht hs hb hidx hle hw hbits (.inl hj)
    · obtain ⟨rest, hrest⟩ := Nat.exists_eq_add_of_le hw
      rw [show s.rem - consumed = width + rest by omega, streamBits_add, Nat.add_sub_cancel_left,
        List.take_of_length_le (by rw [lowBits_length]; omega)] at hbits
      obtain ⟨hslot, hnext⟩ := List.append_inj hbits (by rw [streamBits_length, lowBits_length])
      have hreads := passReads_slot ht hs hb (peek_eq_of_streamBits hidx (by omega) hslot)
      have hpos := hreads.width_pos
      rw [hreads.walk_jump hj hw]
      refine ih (ht.slot_jump hb hidx hj) hw (by omega) (by omega) ?_
      rwa [show s.rem - (consumed + width) = rest by omega, ← Nat.add_assoc]

/-- The walk from a block ends in `EndOfStream` or `DecodeError`, or returns the value of a codeword that comes next. -/
theorem walk_value_or_short (ht : WellFormedTable t blocks) (hs : s.holdsTable base t) :
    ∀ (fuel : Nat) {width off : Nat} (src : Nat) {consumed : Nat}, ⟨off, width⟩ ∈ blocks →
      (∃ c info, walk s base fuel width off src consumed = .raised c info ∧ (c = .endOfStream ∨ c = .decodeError)) ∨
      ∃ code v, CodeOf t off width code v ∧ consumed + code.length ≤ s.rem ∧
        s.streamBits (s.regs.bitpos.toNat + consumed) code.length = code := by
  intro fuel
  induction fuel with
  | zero => exact fun _ _ _ => .inl ⟨_, _, rfl, .inl rfl⟩
  | succ fuel ih =>
    intro width off src consumed hb
    have hreads := passReads_slot (consumed := consumed) ht hs hb rfl
    have hpeek := peek_lt s (s.regs.bitpos.toNat + consumed) width
    generalize hidx : s.peek (s.regs.bitpos.toNat + consumed) width = idx at hreads hpeek
    have hnext {k : Nat} (hk : k ≤ width) (hle : consumed + k ≤ s.rem) :
        s.streamBits (s.regs.bitpos.toNat + consumed) k = lowBits idx k :=
      (streamBits_eq_lowBits_iff_peek hk hle).2 (by rw [hidx])
    cases hj : Entry.jump (tableAt t (off + idx)) with
    | true =>
      rcases Nat.lt_or_ge s.rem (consumed + width) with hw | hw
      · exact .inl ⟨_, _, hreads.walk_short_width (.inl hj) hw, .inl rfl⟩
      rw [hreads.walk_jump hj hw]
      refine (ih _ (ht.slot_jump hb hpeek hj)).imp_right ?_
      rintro ⟨code, v, hcode, hle, hbits⟩
      refine ⟨_, v, .jump off width idx code v hpeek hj hcode, ?_, ?_⟩ <;> rw [List.length_append, lowBits_length]
      · omega
      · rw [streamBits_add, hnext (Nat.le_refl _) hw, Nat.add_assoc, hbits]
    | false =>
      rcases Nat.eq_zero_or_pos (Entry.len (tableAt t (off + idx))) with hlen | hlen
      · rcases Nat.lt_or_ge s.rem (consumed + width) with hw | hw
        · exact .inl ⟨_, _, hreads.walk_short_width (.inr hlen) hw, .inl rfl⟩
        · exact .inl ⟨_, _, hreads.walk_unused hj hlen hw, .inr rfl⟩
      rcases Nat.lt_or_ge s.rem (consumed + Entry.len (tableAt t (off + idx))) with hn | hn
      · exact .inl ⟨_, _, hreads.walk_short_value hj hlen hn, .inl rfl⟩
      obtain ⟨hwidth, -⟩ := ht.slot_value hb hpeek hj hlen
      refine .inr ⟨_, _, .leaf off width idx hpeek hj hlen, ?_, ?_⟩ <;> rw [lowBits_length]
      · exact hn
      · exact hnext hwidth hn

end WalkOfTable

/-- Settles O35: the walk from the root block, along a codeword, along one that the end of the stream cuts off, and along any
bits. -/
theorem rdcbIsPrefixDecoding : Obligations.RdcbIsPrefixDecoding := by
  intro s rd rs t blocks ht hs
  obtain ⟨hroot, hdecode⟩ := decodeCode_eq_walk_root ht hs
  have hvalue {code v} (hc : TableCode t code v) (hle : code.length ≤ s.rem)
      (hbits : s.streamBits s.regs.bitpos.toNat code.length = code) :
      decodeCode s (s.reg rs).toNat = .value v code.length := by
    rw [hdecode, walk_of_code ht hs hc hroot (by omega) (by omega) (by rwa [Nat.add_zero]), Nat.zero_add]
  refine ⟨fun code v hc hle hbits => ?_, fun hnone => ?_, fun code v hc hlt hbits => rdcb_enters_error ?_,
    fun entries hfor e he hlen hle hbits => ?_⟩
  · obtain ⟨u, hu, hrd, -, hregs, -⟩ := rdcb_writes_value (rd := rd) (hvalue hc hle hbits)
    exact ⟨u, hu, hrd, hregs⟩
  · rcases walk_value_or_short ht hs (s.rem + 1) (s.reg rs).toNat hroot with
      ⟨c, info, hwalk, hcause⟩ | ⟨code, v, hc, hle, hbits⟩
    · obtain ⟨u, hu, hentered⟩ := rdcb_enters_error (rd := rd) (hdecode.trans hwalk)
      exact ⟨u, c, _, hu, hentered, hcause⟩
    · exact absurd hbits (hnone code v hc (by omega))
  · rw [hdecode]
    exact walk_of_truncated_code ht hs hc hroot (Nat.zero_le _) (by omega) (by omega) (by rwa [Nat.add_zero])
  · have hc : TableCode t (codewordBits e.code e.len) e.value := (hfor.2 _ _).2 ⟨e, he, hlen, rfl, rfl⟩
    obtain ⟨u, hu, hrd, -, hregs, -⟩ := rdcb_writes_value (rd := rd)
      (hvalue hc (by rwa [codewordBits_length]) (by rwa [codewordBits_length]))
    rw [codewordBits_length] at hregs
    exact ⟨u, hu, hrd, congrArg Regs.hlen hregs⟩

end Sys2Proof.Machine


/-! SUPPORT and PROOFS. The codebook tables' family: which codewords of a length an assigned codeword clashes with, what the
search for the lowest free codeword finds, and the assignment cut at any of its entries. -/

namespace Sys2Proof.Machine

/-! ### Clashes as intervals (42_codebook_table R151) -/

/-- The first codeword of length `len` that `a` clashes with. -/
def Codeword.start (a : Codeword) (len : Nat) : Nat :=
  if a.len ≤ len then a.code * 2 ^ (len - a.len) else a.code / 2 ^ (a.len - len)

/-- One past the last codeword of length `len` that `a` clashes with: where the search goes on past `a`. -/
def Codeword.stop (a : Codeword) (len : Nat) : Nat :=
  if a.len ≤ len then (a.code + 1) * 2 ^ (len - a.len) else a.code / 2 ^ (a.len - len) + 1

theorem Codeword.clashes_iff {a : Codeword} {len code : Nat} :
    a.clashes ⟨code, len⟩ = true ↔ a.start len ≤ code ∧ code < a.stop len := by
  unfold Codeword.clashes Codeword.start Codeword.stop
  rcases Nat.lt_or_ge len a.len with h | h
  · simp only [if_neg (Nat.not_le.2 h), beq_iff_eq]
    omega
  · simp only [if_pos h, beq_iff_eq]
    rw [← Nat.le_div_iff_mul_le (Nat.two_pow_pos _), ← Nat.div_lt_iff_lt_mul (Nat.two_pow_pos _)]
    omega

/-- The codeword at which the search goes on after the clashing codeword `a`. -/
theorem Codeword.next_eq_stop {a : Codeword} {len code : Nat} (h : a.clashes ⟨code, len⟩ = true) :
    (if a.len ≤ len then (a.code + 1) * 2 ^ (len - a.len) else code + 1) = a.stop len := by
  rw [Codeword.clashes_iff, Codeword.start, Codeword.stop] at h
  rw [Codeword.stop]
  by_cases hlen : a.len ≤ len
  · rw [if_pos hlen, if_pos hlen]
  · simp only [if_neg hlen] at h ⊢
    omega

/-! ### The search for the lowest free codeword -/

section Search

variable {assigned : List Codeword} {len fuel code : Nat}

/-- What the search finds is a codeword of the length, and free. -/
theorem lowestFree_free {c : Nat} (h : lowestFree assigned len fuel code = some c) :
    c < 2 ^ len ∧ ∀ a ∈ assigned, a.clashes ⟨c, len⟩ = false := by
  fun_induction lowestFree assigned len fuel code with
  | case1 => cases h
  | case2 => cases h
  | case3 fuel code hlt hfree =>
    cases h
    exact ⟨Nat.lt_of_not_le hlt, by simpa using hfree⟩
  | case4 fuel code hlt a hfind ih => exact ih h

/-- Every codeword that the search passes, the whole rest of the length where it finds none, clashes with an assigned one. The
fuel lasts as long as it exceeds the number of those not yet passed, `pending`. -/
theorem lowestFree_passes_clashes {pending : List Codeword}
    (hpending : ∀ a ∈ assigned, code < a.stop len → a ∈ pending) (hfuel : pending.length < fuel) {x : Nat} (hle : code ≤ x)
    (hlt : x < (lowestFree assigned len fuel code).getD (2 ^ len)) : ∃ a ∈ assigned, a.clashes ⟨x, len⟩ = true := by
  fun_induction lowestFree assigned len fuel code generalizing pending with
  | case1 => exact absurd hfuel (Nat.not_lt_zero _)
  | case2 fuel code hend => exact absurd hlt (Nat.not_lt.2 (hend.trans hle))
  | case3 fuel code => exact absurd hlt (Nat.not_lt.2 hle)
  | case4 fuel code _ a hfind ih =>
    have hmem := List.mem_of_find?_eq_some hfind
    have hclash := List.find?_some hfind
    rw [Codeword.next_eq_stop hclash] at ih hlt
    obtain ⟨hstart, hstop⟩ := Codeword.clashes_iff.1 hclash
    rcases Nat.lt_or_ge x (a.stop len) with hx | hx
    · exact ⟨a, hmem, Codeword.clashes_iff.2 ⟨hstart.trans hle, hx⟩⟩
    refine ih (pending := pending.erase a) (fun b hb hlate => ?_) ?_ hx hlt
    · have hne : b ≠ a := by rintro rfl; exact Nat.lt_irrefl _ hlate
      exact (List.mem_erase_of_ne hne).2 (hpending b hb (hstop.trans hlate))
    · have hpos := List.length_pos_of_mem (hpending a hmem hstop)
      rw [List.length_erase_of_mem (hpending a hmem hstop)]
      omega

/-- The search over all the codewords of length `len`, as the assignment makes it. -/
abbrev lowestFreeOf (assigned : List Codeword) (len : Nat) : Option Nat := lowestFree assigned len (assigned.length + 1) 0

theorem clash_of_lt_lowestFreeOf {x : Nat} (hlt : x < (lowestFreeOf assigned len).getD (2 ^ len)) :
    ∃ a ∈ assigned, a.clashes ⟨x, len⟩ = true :=
  lowestFree_passes_clashes (fun _ ha _ => ha) (Nat.lt_succ_self _) (Nat.zero_le _) hlt

theorem lowestFreeOf_eq_none_iff :
    lowestFreeOf assigned len = none ↔ ∀ x < 2 ^ len, ∃ a ∈ assigned, a.clashes ⟨x, len⟩ = true := by
  refine ⟨fun h x hx => clash_of_lt_lowestFreeOf (by rwa [h]), fun h => Option.eq_none_iff_forall_ne_some.2 fun c hc => ?_⟩
  obtain ⟨hlt, hfree⟩ := lowestFree_free hc
  obtain ⟨a, ha, hclash⟩ := h c hlt
  exact absurd hclash (by rw [hfree a ha]; decide)

end Search

/-! ### The assignment from entry to entry -/

section Assignment

variable {assigned : List Codeword} {len : Nat} {lengths rest : List Nat} {cs : List (Option Codeword)}

theorem assignCodewords_cons_unused : assignCodewords assigned (0 :: rest) = (assignCodewords assigned rest).map (none :: ·) := by
  rw [assignCodewords]

theorem assignCodewords_cons_used (h : len ≠ 0) : assignCodewords assigned (len :: rest) =
    (lowestFreeOf assigned len).bind fun code =>
      (assignCodewords (assigned ++ [⟨code, len⟩]) rest).map (some ⟨code, len⟩ :: ·) := by
  rw [assignCodewords, lowestFreeOf]
  · cases lowestFree assigned len (assigned.length + 1) 0 <;> rfl
  · exact h

/-- What an assignment holds for its first entry, and how it goes on. -/
theorem assignCodewords_cons_cases (h : assignCodewords assigned (len :: rest) = some cs) :
    (len = 0 ∧ ∃ tail, assignCodewords assigned rest = some tail ∧ cs = none :: tail) ∨
    (len ≠ 0 ∧ ∃ code tail, lowestFreeOf assigned len = some code ∧
      assignCodewords (assigned ++ [⟨code, len⟩]) rest = some tail ∧ cs = some ⟨code, len⟩ :: tail) := by
  rcases eq_or_ne len 0 with rfl | hlen
  · rw [assignCodewords_cons_unused] at h
    obtain ⟨tail, htail, rfl⟩ := Option.map_eq_some_iff.1 h
    exact .inl ⟨rfl, tail, htail, rfl⟩
  · rw [assignCodewords_cons_used hlen] at h
    obtain ⟨code, hcode, hmap⟩ := Option.bind_eq_some_iff.1 h
    obtain ⟨tail, htail, rfl⟩ := Option.map_eq_some_iff.1 hmap
    exact .inr ⟨hlen, code, tail, hcode, htail, rfl⟩

/-- An assignment goes on after any entry with the codewords assigned up to there. -/
theorem assignCodewords_append (assigned : List Codeword) (front rest : List Nat) :
    assignCodewords assigned (front ++ rest) = (assignCodewords assigned front).bind fun cs =>
      (assignCodewords (assigned ++ cs.reduceOption) rest).map (cs ++ ·) := by
  induction front generalizing assigned with
  | nil => simp [assignCodewords]
  | cons len front ih =>
    rcases eq_or_ne len 0 with rfl | h
    · rw [List.cons_append, assignCodewords_cons_unused, assignCodewords_cons_unused, ih]
      cases assignCodewords assigned front <;> simp [List.reduceOption_cons_of_none, Function.comp_def]
    · rw [List.cons_append, assignCodewords_cons_used h, assignCodewords_cons_used h]
      cases lowestFreeOf assigned len with
      | none => rfl
      | some code =>
        simp only [Option.bind_some, ih]
        cases assignCodewords (assigned ++ [⟨code, len⟩]) front <;>
          simp [List.reduceOption_cons_of_some, Function.comp_def]

theorem assignCodewords_length (h : assignCodewords assigned lengths = some cs) : cs.length = lengths.length := by
  induction lengths generalizing assigned cs with
  | nil => cases h; rfl
  | cons len rest ih =>
    rcases assignCodewords_cons_cases h with ⟨-, tail, htail, rfl⟩ | ⟨-, code, tail, -, htail, rfl⟩
    · exact congrArg (· + 1) (ih htail)
    · exact congrArg (· + 1) (ih htail)

/-- The canonical codewords up to an entry, and from there on those of the rest with them assigned. -/
theorem canonicalCodewords_append (front rest : List Nat) :
    canonicalCodewords (front ++ rest) = (canonicalCodewords front).bind fun cs =>
      (assignCodewords cs.reduceOption rest).map (cs ++ ·) :=
  assignCodewords_append [] front rest

theorem canonicalCodewords_cut {k : Nat} (hk : k < lengths.length) :
    canonicalCodewords lengths = (canonicalCodewords (lengths.take k)).bind fun cs =>
      (assignCodewords cs.reduceOption (lengths[k] :: lengths.drop (k + 1))).map (cs ++ ·) := by
  rw [← canonicalCodewords_append, ← List.drop_eq_getElem_cons hk, List.take_append_drop]

theorem canonicalCodewords_take_succ {k : Nat} (hk : k < lengths.length) :
    canonicalCodewords (lengths.take (k + 1)) = (canonicalCodewords (lengths.take k)).bind fun cs =>
      (assignCodewords cs.reduceOption [lengths[k]]).map (cs ++ ·) := by
  rw [← canonicalCodewords_append, List.take_append_getElem]

/-- An entry fails only where it is used and the search finds nothing. -/
theorem lowestFreeOf_eq_none_of_singleton (h : assignCodewords assigned [len] = none) :
    len ≠ 0 ∧ lowestFreeOf assigned len = none := by
  rcases eq_or_ne len 0 with rfl | hlen
  · simp [assignCodewords] at h
  · refine ⟨hlen, ?_⟩
    rw [assignCodewords_cons_used hlen] at h
    cases hfree : lowestFreeOf assigned len with
    | none => rfl
    | some code => simp [hfree, assignCodewords] at h

/-- The assignment fails at the first used entry for which the search finds nothing. -/
theorem canonicalCodewords_eq_none_iff : canonicalCodewords lengths = none ↔
    ∃ k, ∃ hk : k < lengths.length, ∃ cs, canonicalCodewords (lengths.take k) = some cs ∧ lengths[k] ≠ 0 ∧
      lowestFreeOf cs.reduceOption lengths[k] = none := by
  refine ⟨fun h => ?_, fun ⟨k, hk, cs, hcs, hlen, hfree⟩ => ?_⟩
  · obtain ⟨k, hbefore, hafter⟩ := Nat.exists_not_and_succ_of_not_zero_of_exists
      (p := fun k => canonicalCodewords (lengths.take k) = none) nofun ⟨lengths.length, by rwa [List.take_length]⟩
    obtain ⟨cs, hcs⟩ := Option.ne_none_iff_exists'.1 hbefore
    have hk : k < lengths.length := by
      refine Nat.lt_of_not_le fun hle => hbefore ?_
      rwa [List.take_of_length_le hle]
    rw [canonicalCodewords_take_succ hk, hcs] at hafter
    exact ⟨k, hk, cs, hcs, lowestFreeOf_eq_none_of_singleton (Option.map_eq_none_iff.1 hafter)⟩
  · rw [canonicalCodewords_cut hk, hcs, Option.bind_some, assignCodewords_cons_used hlen, hfree]
    rfl

/-- The canonical codewords around an entry. -/
theorem canonicalCodewords_split {k : Nat} (hk : k < lengths.length) (h : canonicalCodewords lengths = some cs) :
    ∃ before after, before.length = k ∧ cs = before ++ after ∧
      assignCodewords before.reduceOption (lengths[k] :: lengths.drop (k + 1)) = some after := by
  rw [canonicalCodewords_cut hk] at h
  obtain ⟨before, hbefore, hmap⟩ := Option.bind_eq_some_iff.1 h
  obtain ⟨after, hafter, rfl⟩ := Option.map_eq_some_iff.1 hmap
  refine ⟨before, after, ?_, rfl, hafter⟩
  rw [assignCodewords_length hbefore, List.length_take_of_le hk.le]

end Assignment

/-- The codewords assigned before an entry, by their places in the whole list. -/
theorem mem_reduceOption_iff_getElem? {α : Type} {before after : List (Option α)} {d : α} :
    d ∈ before.reduceOption ↔ ∃ j < before.length, (before ++ after)[j]? = some (some d) := by
  rw [List.reduceOption_mem_iff, List.mem_iff_getElem?]
  refine exists_congr fun j => ⟨fun h => ?_, fun ⟨hj, h⟩ => by rwa [List.getElem?_append_left hj] at h⟩
  have hj := (List.getElem?_eq_some_iff.1 h).1
  exact ⟨hj, by rwa [List.getElem?_append_left hj]⟩

/-- Settles O36: the list is cut at the entry, where the search over the codewords before it decides. -/
theorem canonicalCodewordsAreTheLowestFree : Obligations.CanonicalCodewordsAreTheLowestFree := by
  refine ⟨fun lengths cs h => ⟨assignCodewords_length h, fun k hk => ?_⟩, fun lengths => ?_⟩
  · obtain ⟨before, after, rfl, rfl, hafter⟩ := canonicalCodewords_split hk h
    rcases assignCodewords_cons_cases hafter with ⟨h0, tail, -, rfl⟩ | ⟨hlen, code, tail, hcode, -, rfl⟩
    · exact ⟨fun _ => by simp, fun hlen => absurd h0 hlen⟩
    · obtain ⟨hlt, hfree⟩ := lowestFree_free hcode
      refine ⟨fun h0 => absurd h0 hlen, fun _ => ⟨⟨code, lengths[before.length]⟩, by simp, rfl, hlt,
        fun j hj d hd => hfree d (mem_reduceOption_iff_getElem?.2 ⟨j, hj, hd⟩), fun lower hlower => ?_⟩⟩
      obtain ⟨d, hd, hclash⟩ := clash_of_lt_lowestFreeOf (by rwa [hcode] : lower < (lowestFreeOf _ _).getD _)
      obtain ⟨j, hj, hget⟩ := mem_reduceOption_iff_getElem?.1 hd
      exact ⟨j, hj, d, hget, hclash⟩
  · simp only [canonicalCodewords_eq_none_iff, lowestFreeOf_eq_none_iff, List.reduceOption_mem_iff]

end Sys2Proof.Machine


/-! SUPPORT and PROOFS. The CRC unit's family: the shift of the checksum is linear, so a string's checksum is; a step is a table
look-up by the top byte; and what the four commands come to under each of their tests. -/

namespace Sys2Proof.Machine

/-! ### The checksum is linear (43_crc R170, R171, R177) -/

theorem crcShift_xor (c d : Word) : crcShift (c ^^^ d) = crcShift c ^^^ crcShift d := by
  unfold crcShift
  rw [BitVec.msb_xor, BitVec.shiftLeft_xor_distrib]
  generalize c <<< 1 = x, d <<< 1 = y, (0x04C11DB7 : Word) = p
  cases c.msb <;> cases d.msb
  · rfl
  · exact BitVec.xor_assoc ..
  · show x ^^^ y ^^^ p = x ^^^ p ^^^ y
    ac_rfl
  · show x ^^^ y = x ^^^ p ^^^ (y ^^^ p)
    rw [show x ^^^ p ^^^ (y ^^^ p) = x ^^^ y ^^^ (p ^^^ p) by ac_rfl, BitVec.xor_self, BitVec.xor_zero]

theorem crcShifts_xor (n : Nat) (c d : Word) : crcShifts n (c ^^^ d) = crcShifts n c ^^^ crcShifts n d := by
  induction n generalizing c d with
  | zero => rfl
  | succ n ih => rw [crcShifts, crcShift_xor, ih, crcShifts, crcShifts]

theorem crcStep_xor (c d : Word) (a b : Byte) : crcStep (c ^^^ d) (a ^^^ b) = crcStep c a ^^^ crcStep d b := by
  have harg (x y : Word) : c ^^^ d ^^^ (x ^^^ y) = c ^^^ x ^^^ (d ^^^ y) := by ac_rfl
  rw [crcStep, BitVec.setWidth_xor, BitVec.shiftLeft_xor_distrib, harg, crcShifts_xor, crcStep, crcStep]

/-- The checksum is linear in the initial value and the bytes together. -/
theorem crc_zipWith_xor {u v : List Byte} (h : u.length = v.length) (c d : Word) :
    crc (c ^^^ d) (List.zipWith (· ^^^ ·) u v) = crc c u ^^^ crc d v := by
  induction u generalizing v c d with
  | nil =>
    cases List.eq_nil_of_length_eq_zero h.symm
    rfl
  | cons a u ih =>
    cases v with
    | nil => simp at h
    | cons b v =>
      show crc (crcStep (c ^^^ d) (a ^^^ b)) (List.zipWith (· ^^^ ·) u v) = crc (crcStep c a) u ^^^ crc (crcStep d b) v
      rw [crcStep_xor, ih (Nat.succ.inj h)]

theorem crcStep_zero_zero : crcStep 0 0 = 0 := by decide

theorem crc_zero_replicate (k : Nat) : crc 0 (List.replicate k 0) = 0 := by
  induction k with
  | zero => rfl
  | succ k ih => exact (congrArg (crc · (List.replicate k 0)) crcStep_zero_zero).trans ih

/-! ### A step as a table look-up by the top byte (R177 part 5) -/

/-- Shifts that push out only zeros add no polynomial. -/
theorem crcShifts_eq_shiftLeft {n : Nat} {c : Word} (h : c.toNat * 2 ^ n < 2 ^ 32) : crcShifts n c = c <<< n := by
  induction n generalizing c with
  | zero => simp [crcShifts]
  | succ n ih =>
    have hlt : c.toNat * 2 * 2 ^ n < 2 ^ 32 := by rwa [Nat.mul_assoc, ← Nat.pow_succ']
    have hle : c.toNat * 2 ≤ c.toNat * 2 * 2 ^ n := Nat.le_mul_of_pos_right _ (Nat.two_pow_pos n)
    have hmsb : c.msb = false := by rw [BitVec.msb_eq_false_iff_two_mul_lt]; omega
    have hshift : (c <<< 1).toNat = c.toNat * 2 := by
      rw [BitVec.toNat_shiftLeft, Nat.shiftLeft_eq, Nat.mod_eq_of_lt (by omega)]
    rw [crcShifts, crcShift, hmsb, if_neg (by decide), ih (by rwa [hshift]), ← BitVec.shiftLeft_add, Nat.add_comm]

/-- The low three bytes of a word, its top byte cleared. -/
def lowBytes (c : Word) : Word := (c.extractLsb' 0 24).setWidth 32

theorem lowBytes_lt (c : Word) : (lowBytes c).toNat < 2 ^ 24 := by
  rw [lowBytes, BitVec.toNat_setWidth_of_le (by decide)]
  exact (c.extractLsb' 0 24).isLt

theorem lowBytes_shiftLeft (c : Word) : lowBytes c <<< 8 = c <<< 8 := by
  refine BitVec.eq_of_getLsbD_eq fun i hi => ?_
  have hlow : i - 8 < 24 := by omega
  have hword : i - 8 < 32 := by omega
  simp [lowBytes, hlow, hword]

/-- A byte meets the accumulator in its top byte only (R170). -/
theorem xor_shifted_byte (c : Word) (b : Byte) :
    c ^^^ (b.setWidth 32 <<< 24) = lowBytes c ^^^ ((c.extractLsb' 24 8 ^^^ b).setWidth 32 <<< 24) := by
  refine BitVec.eq_of_getLsbD_eq fun i hi => ?_
  by_cases h : i < 24
  · simp [lowBytes, hi, h]
  · have htop : 24 + (i - 24) = i := by omega
    have hbyte : i - 24 < 8 := by omega
    simp [lowBytes, hi, h, htop, hbyte]

/-- A step shifts the word by a byte and adds the table's entry for the byte that leaves (R177 part 5). -/
theorem crcStep_table (c : Word) (b : Byte) : crcStep c b = (c <<< 8) ^^^ crcStep 0 (c.extractLsb' 24 8 ^^^ b) := by
  have hlow : crcShifts 8 (lowBytes c) = c <<< 8 := by
    rw [crcShifts_eq_shiftLeft (by have := lowBytes_lt c; omega), lowBytes_shiftLeft]
  rw [crcStep, xor_shifted_byte, crcShifts_xor, hlow, crcStep]
  simp

/-- A step fed the accumulator's own top byte shifts it out. -/
theorem crcStep_top_byte (c : Word) : crcStep c (c.extractLsb' 24 8) = c <<< 8 := by
  rw [crcStep_table, BitVec.xor_self]
  exact (congrArg (c <<< 8 ^^^ ·) crcStep_zero_zero).trans BitVec.xor_zero

theorem extractLsb'_shiftLeft_byte (c : Word) {n : Nat} (hn : n ≤ 16) :
    (c <<< 8).extractLsb' (n + 8) 8 = c.extractLsb' n 8 := by
  refine BitVec.eq_of_getLsbD_eq fun i hi => ?_
  have hin : n + 8 + i < 32 := by omega
  have hout : ¬ n + 8 + i < 8 := by omega
  have hpos : n + 8 + i - 8 = n + i := by omega
  simp only [BitVec.getLsbD_extractLsb', BitVec.getLsbD_shiftLeft, hin, hout, hpos, decide_true, decide_false, Bool.not_false,
    Bool.true_and]

/-- The accumulator's own bytes, most significant first, shift all of it out. -/
theorem crc_own_bytes (c : Word) : crc c (bytesOf c).reverse = 0 := by
  have hsecond : c.extractLsb' 16 8 = (c <<< 8).extractLsb' 24 8 := by
    rw [extractLsb'_shiftLeft_byte c (n := 16) (by decide)]
  have hthird : c.extractLsb' 8 8 = (c <<< 8 <<< 8).extractLsb' 24 8 := by
    rw [extractLsb'_shiftLeft_byte _ (n := 16) (by decide), extractLsb'_shiftLeft_byte c (n := 8) (by decide)]
  have hfourth : c.extractLsb' 0 8 = (c <<< 8 <<< 8 <<< 8).extractLsb' 24 8 := by
    rw [extractLsb'_shiftLeft_byte _ (n := 16) (by decide), extractLsb'_shiftLeft_byte _ (n := 8) (by decide),
      extractLsb'_shiftLeft_byte c (n := 0) (by decide)]
  calc crc c (bytesOf c).reverse
      = crcStep (crcStep (crcStep (crcStep c (c.extractLsb' 24 8)) (c.extractLsb' 16 8)) (c.extractLsb' 8 8))
          (c.extractLsb' 0 8) := rfl
    _ = c <<< 8 <<< 8 <<< 8 <<< 8 := by
        rw [crcStep_top_byte, hsecond, crcStep_top_byte, hthird, crcStep_top_byte, hfourth, crcStep_top_byte]
    _ = c <<< 32 := by rw [← BitVec.shiftLeft_add, ← BitVec.shiftLeft_add, ← BitVec.shiftLeft_add]
    _ = 0 := BitVec.shiftLeft_eq_zero (Nat.le_refl 32)

/-- Settles O37: chaining is a fold in two parts; linearity gives the rest through the table form of a step. -/
theorem crcLaws : Obligations.CrcLaws :=
  ⟨fun c u v => (crc_append c u v).symm, fun _ _ h => crc_zipWith_xor h 0 0,
    fun k u => by rw [crc_append, crc_zero_replicate],
    fun u => by rw [crc_append, crc_own_bytes], crcStep_table, by decide, by decide, by decide⟩

/-! ### What the four commands come to (43_crc R172 to R176) -/

section Commands

variable {s : State} {rd rs rt : Reg}

/-- A command that raises with a word as its detail enters that error. -/
theorem enters_error_with_word {i : Instr} {c : Cause} {v : Word}
    (h : exec i s = .next (raise c v.toNat (encode i) s)) :
    ∃ t, exec i s = .next t ∧ ErrorEntered s t c v (encode i) := by
  have hentered := raise_entered s c v.toNat (encode i)
  rw [wordOf_toNat] at hentered
  exact ⟨_, h, hentered⟩

/-- `CRCFEED` with its range in PGMEM feeds it (R173). -/
theorem exec_crcfeed_done (ha : (s.reg rs).toNat ≤ 65536) (hl : (s.reg rt).toNat ≤ 65536 - (s.reg rs).toNat) :
    exec (.crcfeed rs rt) s =
      .next { s with regs.crcAcc := crc s.regs.crcAcc (s.pgBytes (s.reg rs).toNat (s.reg rt).toNat) } := by
  simp only [exec, execCrcfeed, State.operand, gt_iff_lt, if_neg (Nat.not_lt.2 ha), if_neg (Nat.not_lt.2 hl), settle_eq,
    commit_done]

/-- `CRCFEED` with its start beyond PGMEM raises `BadOperand` with the start (R173). -/
theorem exec_crcfeed_bad_start (ha : 65536 < (s.reg rs).toNat) :
    exec (.crcfeed rs rt) s = .next (raise .badOperand (s.reg rs).toNat (encode (.crcfeed rs rt)) s) := by
  simp only [exec, execCrcfeed, State.operand, gt_iff_lt, if_pos ha, settle_eq, commit_raised]

/-- `CRCFEED` with too long a range raises `BadOperand` with the length (R173). -/
theorem exec_crcfeed_bad_length (ha : (s.reg rs).toNat ≤ 65536) (hl : 65536 - (s.reg rs).toNat < (s.reg rt).toNat) :
    exec (.crcfeed rs rt) s = .next (raise .badOperand (s.reg rt).toNat (encode (.crcfeed rs rt)) s) := by
  simp only [exec, execCrcfeed, State.operand, gt_iff_lt, if_neg (Nat.not_lt.2 ha), if_pos hl, settle_eq, commit_raised]

theorem exec_crcrst (s : State) : exec .crcrst s = .next { s with regs.crcAcc := 0 } := rfl

theorem exec_crccmp_equal (h : s.regs.crcAcc = s.reg rs) : exec (.crccmp rs) s = .next s := by
  simp only [exec, execCrccmp, if_neg (not_not.2 h), settle_eq, commit_done]

theorem exec_crccmp_different (h : s.regs.crcAcc ≠ s.reg rs) :
    exec (.crccmp rs) s = .next (raise .crcMismatch s.regs.crcAcc.toNat (encode (.crccmp rs)) s) := by
  simp only [exec, execCrccmp, if_pos h, settle_eq, commit_raised]

/-- `CRCPAGE` on a page whose checksum is the stored one (R176). -/
theorem exec_crcpage_match (h : s.pageCrc = s.pageStored) : exec (.crcpage rd) s =
    .next { s.setReg rd (wordOf s.pageTotal) with
      regs.crcAcc := s.pageCrc
      regs.crcStored := s.pageStored
      regs.pgLen := wordOf s.pageTotal } := by
  simp only [exec, execCrcpage, if_neg (not_not.2 h), settle_eq, commit_done]

theorem exec_crcpage_mismatch (h : s.pageCrc ≠ s.pageStored) :
    exec (.crcpage rd) s = .next (raise .crcMismatch s.pageCrc.toNat (encode (.crcpage rd)) s) := by
  simp only [exec, execCrcpage, if_pos h, settle_eq, commit_raised]

/-- What `CRCPAGE` writes on a match and what it leaves (R176). -/
theorem crcpage_writes_page (h : s.pageCrc = s.pageStored) :
    ∃ t, exec (.crcpage rd) s = .next t ∧ t.reg rd = wordOf s.pageTotal ∧ OtherRegsSame rd s t ∧
      t.regs = { s.regs with
        x := t.regs.x, crcAcc := s.pageCrc, crcStored := s.pageStored, pgLen := wordOf s.pageTotal } ∧
      OnlyRegisters s t := by
  obtain ⟨hrd, hother, -⟩ := setReg_frame s rd (wordOf s.pageTotal)
  exact ⟨_, exec_crcpage_match h, hrd, hother, rfl, onlyRegisters_regs s _⟩

end Commands

/-- Settles O38: the test of the start, then that of the length. -/
theorem crcfeedFeedsTheRange : Obligations.CrcfeedFeedsTheRange := by
  intro s rs rt a l
  exact ⟨decode_eq_command_iff.2 ⟨rfl, (wordR_eq_formatR 0x21 0 rs rt).symm⟩,
    fun ha hl => ⟨_, exec_crcfeed_done ha hl, rfl, onlyRegisters_regs s _⟩,
    fun ha => enters_error_with_word (exec_crcfeed_bad_start ha),
    fun ha hl => enters_error_with_word (exec_crcfeed_bad_length ha hl)⟩

/-- Settles O39: one register write, and one comparison either way. -/
theorem crcrstClearsAndCrccmpCompares : Obligations.CrcrstClearsAndCrccmpCompares := by
  refine ⟨decode_eq_command_iff.2 ⟨rfl, rfl⟩, fun s rs => ?_⟩
  exact ⟨decode_eq_command_iff.2 ⟨rfl, (wordI_eq_formatI 0x22 0 rs 0).symm⟩,
    ⟨_, exec_crcrst s, rfl, onlyRegisters_regs s _⟩, exec_crccmp_equal,
    fun h => enters_error_with_word (exec_crccmp_different h)⟩

/-- Settles O40: the statement's length, stored word and checksum are the model's by definition, and the one test goes
either way. -/
theorem crcpageChecksThePage : Obligations.CrcpageChecksThePage := by
  intro s rd pg nseg total stored c
  obtain ⟨hlo, hhi⟩ := pageTotal_range s
  exact ⟨decode_eq_command_iff.2 ⟨rfl, (wordI_eq_formatI 0x23 rd 0 0).symm⟩, hlo, hhi, crcpage_writes_page,
    fun h => enters_error_with_word (exec_crcpage_mismatch h)⟩

end Sys2Proof.Machine


/-! SUPPORT and PROOFS. The IMDCT unit's family, numbers: the fields of a packed encoding, the values of the magnitudes, and
rounding to nearest even by the halfway points between neighbours (44_imdct R190). -/

namespace Sys2Proof.Machine

/-! ### The fields of an encoding (20_memory R55) -/

section Encoding

variable (a b : Word)

theorem fSign_eq_getLsbD : fSign a = a.getLsbD 31 := by
  have hlt : a.toNat / 2 ^ 31 < 2 := by omega
  rw [BitVec.getLsbD, Nat.testBit_eq_decide_div_mod_eq, Nat.mod_eq_of_lt hlt]
  rfl

theorem fMag_eq_setWidth : fMag a = (a.setWidth 31).toNat := (BitVec.toNat_setWidth 31 a).symm

/-- The bits of a negated encoding (R190). -/
theorem getLsbD_fneg :
    (∀ k < 31, (fneg a).getLsbD k = a.getLsbD k) ∧ (fneg a).getLsbD 31 = !a.getLsbD 31 := by
  have hmask : ∀ k < 31, (0x80000000#32).getLsbD k = false := by decide
  exact ⟨fun k hk => by simp [fneg, hmask k hk], by simp [fneg]⟩

@[simp] theorem fSign_fneg : fSign (fneg a) = !fSign a := by
  simp only [fSign_eq_getLsbD, (getLsbD_fneg a).2]

@[simp] theorem fMag_fneg : fMag (fneg a) = fMag a := by
  have hmask : (0x80000000#32).setWidth 31 = 0 := by decide
  simp [fMag_eq_setWidth, fneg, BitVec.setWidth_xor, hmask]

@[simp] theorem fIsNan_fneg : fIsNan (fneg a) = fIsNan a := by simp [fIsNan]

@[simp] theorem fIsInf_fneg : fIsInf (fneg a) = fIsInf a := by simp [fIsInf]

@[simp] theorem fIsFinite_fneg : fIsFinite (fneg a) = fIsFinite a := by simp [fIsFinite]

/-- An encoding with a given magnitude is one of two. -/
theorem fMag_eq_iff {mag : Nat} (h : mag < 2 ^ 31) : fMag a = mag ↔ a.toNat = mag ∨ a.toNat = mag + 2 ^ 31 := by
  have hlt := a.isLt
  simp only [fMag]
  omega

variable {a b}

theorem fSign_fPack {neg : Bool} {mag : Nat} (h : mag < 2 ^ 31) : fSign (fPack neg mag) = neg := by
  cases neg <;> simp [fSign, fPack, wordOf] <;> omega

theorem fMag_fPack {neg : Bool} {mag : Nat} (h : mag < 2 ^ 31) : fMag (fPack neg mag) = mag := by
  cases neg <;> simp [fMag, fPack, wordOf] <;> omega

theorem not_nan_of_inf (h : fIsInf a = true) : fIsNan a = false := by
  simp only [fIsInf, beq_iff_eq] at h
  simp [fIsNan, h]

theorem fIsFinite_iff : fIsFinite a = true ↔ fIsNan a = false ∧ fIsInf a = false := by
  simp only [fIsFinite, fIsNan, fIsInf, decide_eq_true_eq, decide_eq_false_iff_not, beq_eq_false_iff_ne]
  omega

end Encoding

/-! ### NaN results and operands that are not finite -/

section Special

variable {a b : Word}

theorem fIsNan_nanResult (op : FloatOp) : fIsNan (nanResult op a b) = true := by
  have hpayload : (Config.nanBits op a b).toNat % 2 ^ 23 < 2 ^ 23 := Nat.mod_lt _ (by decide)
  unfold nanResult
  extract_lets free payload
  have hrange : 0 < (if payload = 0 then 2 ^ 22 else payload) ∧ (if payload = 0 then 2 ^ 22 else payload) < 2 ^ 23 := by
    split <;> omega
  simp only [fIsNan, decide_eq_true_eq]
  rw [fMag_fPack (by simp only [fInfMag]; omega)]
  omega

/-- A sum with a NaN operand. -/
theorem addWith_nan {op : FloatOp} {b' : Word} (h : fIsNan a = true ∨ fIsNan b = true) :
    addWith op a b b' = nanResult op a b' := by
  rw [addWith, if_pos (by simpa using h)]

/-- A sum of two infinities: the invalid one, and the other. -/
theorem addWith_inf_inf {op : FloatOp} {b' : Word} (ha : fIsInf a = true) (hb : fIsInf b = true) :
    addWith op a b b' = if fSign a = fSign b then a else nanResult op a b' := by
  simp [addWith, ha, hb, not_nan_of_inf ha, not_nan_of_inf hb]

theorem addWith_inf_finite {op : FloatOp} {b' : Word} (ha : fIsInf a = true) (hb : fIsFinite b = true) :
    addWith op a b b' = a := by
  obtain ⟨hnan, hinf⟩ := fIsFinite_iff.1 hb
  simp [addWith, ha, hnan, hinf, not_nan_of_inf ha]

theorem addWith_finite_inf {op : FloatOp} {b' : Word} (ha : fIsFinite a = true) (hb : fIsInf b = true) :
    addWith op a b b' = b := by
  obtain ⟨hnan, hinf⟩ := fIsFinite_iff.1 ha
  simp [addWith, hb, hnan, hinf, not_nan_of_inf hb]

theorem addWith_finite {op : FloatOp} {b' : Word} (ha : fIsFinite a = true) (hb : fIsFinite b = true) :
    addWith op a b b' = addFinite a b := by
  obtain ⟨hnan, hinf⟩ := fIsFinite_iff.1 ha
  obtain ⟨hnan', hinf'⟩ := fIsFinite_iff.1 hb
  simp [addWith, hnan, hinf, hnan', hinf']

theorem fmul_nan (h : fIsNan a = true ∨ fIsNan b = true) : fmul a b = nanResult .mul a b := by
  rw [fmul, if_pos (by simpa using h)]

/-- A product with an infinite operand and no NaN: invalid with a zero, else an infinity. -/
theorem fmul_inf (ha : fIsNan a = false) (hb : fIsNan b = false) (h : fIsInf a = true ∨ fIsInf b = true) :
    fmul a b = if fMag a = 0 ∨ fMag b = 0 then nanResult .mul a b else fPack (fSign a != fSign b) fInfMag := by
  rw [fmul, if_neg (by simp [ha, hb]), if_pos (by simpa using h)]

theorem fmul_finite (ha : fIsFinite a = true) (hb : fIsFinite b = true) : fmul a b = mulFinite a b := by
  obtain ⟨hnan, hinf⟩ := fIsFinite_iff.1 ha
  obtain ⟨hnan', hinf'⟩ := fIsFinite_iff.1 hb
  simp [fmul, hnan, hinf, hnan', hinf']

end Special

/-- Settles O42: the first tests of the three operations, and the bits of the mask of `fneg`. -/
theorem nansAndNegation : Obligations.NansAndNegation := by
  refine ⟨fun a b h => ?_, fun a b ha hb hs => ?_, fun a b ha hb hs => ?_, fun a b h => ?_, fun a => ⟨?_, ?_⟩, getLsbD_fneg⟩
  · have hsub : fIsNan a = true ∨ fIsNan (fneg b) = true := by rwa [fIsNan_fneg]
    rw [fadd, fsub, addWith_nan h, addWith_nan hsub, fmul_nan h]
    exact ⟨fIsNan_nanResult _, fIsNan_nanResult _, fIsNan_nanResult _⟩
  · rw [fadd, addWith_inf_inf ha hb, if_neg hs]
    exact fIsNan_nanResult _
  · rw [fsub, addWith_inf_inf ha (by rwa [fIsInf_fneg]), if_neg (by simp [hs])]
    exact fIsNan_nanResult _
  · have hzero {c : Word} (hc : fMag c = 0) : fIsNan c = false := by simp [fIsNan, hc]
    rcases h with ⟨hinf, h0⟩ | ⟨h0, hinf⟩
    · rw [fmul_inf (not_nan_of_inf hinf) (hzero h0) (.inl hinf), if_pos (.inr h0)]
      exact fIsNan_nanResult _
    · rw [fmul_inf (hzero h0) (not_nan_of_inf hinf) (.inr hinf), if_pos (.inl h0)]
      exact fIsNan_nanResult _
  · rw [fIsInf, beq_iff_eq, fMag_eq_iff a (by decide), BitVec.toNat_eq, BitVec.toNat_eq]
    rfl
  · rw [fMag_eq_iff a (by decide), BitVec.toNat_eq, BitVec.toNat_eq]
    rfl

/-! ### The values of the magnitudes (44_imdct R190) -/

/-- The value of a finite encoding of magnitude `mag`, in units of `2^(−149)`; the infinity has the value of the number that
would come next, which is what decides on overflow. -/
def magValue (mag : Nat) : Nat :=
  (if mag / 2 ^ 23 = 0 then mag % 2 ^ 23 else 2 ^ 23 + mag % 2 ^ 23) * 2 ^ (mag / 2 ^ 23 - 1)

theorem fSig_mul_two_pow_fPos (a : Word) : fSig a * 2 ^ fPos a = magValue (fMag a) := rfl

/-- A significand and the place of its last bit, packed; a significand of `2^24` carries into the exponent. -/
theorem magValue_pack {pos sig : Nat} (hle : sig ≤ 2 ^ 24) (hnormal : pos = 0 ∨ 2 ^ 23 ≤ sig) :
    magValue (pos * 2 ^ 23 + sig) = sig * 2 ^ pos := by
  unfold magValue
  rcases (by omega : sig < 2 ^ 23 ∨ (2 ^ 23 ≤ sig ∧ sig < 2 ^ 24) ∨ sig = 2 ^ 24) with h | ⟨hlo, hhi⟩ | rfl
  · have hpos : pos = 0 := by omega
    have hexp : (pos * 2 ^ 23 + sig) / 2 ^ 23 = 0 := by omega
    have hfrac : (pos * 2 ^ 23 + sig) % 2 ^ 23 = sig := by omega
    rw [hexp, hfrac, if_pos rfl, hpos]
  · have hexp : (pos * 2 ^ 23 + sig) / 2 ^ 23 = pos + 1 := by omega
    have hfrac : 2 ^ 23 + (pos * 2 ^ 23 + sig) % 2 ^ 23 = sig := by omega
    rw [hexp, hfrac, if_neg (Nat.succ_ne_zero pos), Nat.add_sub_cancel]
  · have hexp : (pos * 2 ^ 23 + 2 ^ 24) / 2 ^ 23 = pos + 1 + 1 := by omega
    have hfrac : (pos * 2 ^ 23 + 2 ^ 24) % 2 ^ 23 = 0 := by omega
    rw [hexp, hfrac, if_neg (Nat.succ_ne_zero _), Nat.add_sub_cancel, Nat.pow_succ]
    omega

/-- Every magnitude is packed from a significand below `2^24`. -/
theorem exists_pack (mag : Nat) : ∃ pos sig, mag = pos * 2 ^ 23 + sig ∧ sig < 2 ^ 24 ∧ (pos = 0 ∨ 2 ^ 23 ≤ sig) := by
  by_cases h : mag < 2 ^ 23
  · exact ⟨0, mag, by omega, by omega, .inl rfl⟩
  · exact ⟨mag / 2 ^ 23 - 1, 2 ^ 23 + mag % 2 ^ 23, by omega, by omega, .inr (by omega)⟩

theorem magValue_strictMono : StrictMono magValue := by
  refine strictMono_nat_of_lt_succ fun mag => ?_
  obtain ⟨pos, sig, rfl, hlt, hnormal⟩ := exists_pack mag
  rw [Nat.add_assoc, magValue_pack hlt.le hnormal, magValue_pack hlt (by omega)]
  exact Nat.mul_lt_mul_of_pos_right (Nat.lt_succ_self sig) (Nat.two_pow_pos pos)

/-- Twice the number halfway between a magnitude and the next. -/
def magMidpoint (mag : Nat) : Nat := magValue mag + magValue (mag + 1)

theorem magMidpoint_strictMono : StrictMono magMidpoint := fun _ _ h =>
  Nat.add_lt_add (magValue_strictMono h) (magValue_strictMono (Nat.succ_lt_succ h))

/-- Halfway between the largest finite magnitude and the next is half a unit above it. -/
theorem magMidpoint_last : magMidpoint (fInfMag - 1) = (2 ^ 25 - 1) * 2 ^ 253 := by decide +kernel

/-! ### Rounding to nearest even

Both bounds below are strict for an odd result, which is how a tie goes to the even one: over the naturals `a + q % 2 ≤ b`. -/

/-- `q` is `x / d` rounded to the nearest natural, ties to even. -/
structure NearestEven (x d q : Nat) : Prop where
  lower : 2 * (q * d) + q % 2 ≤ 2 * x + d
  upper : 2 * x + q % 2 ≤ 2 * (q * d) + d

theorem roundShift_nearestEven (m d : Nat) : NearestEven m (2 ^ d) (roundShift m d) := by
  have hdiv := Nat.div_add_mod' m (2 ^ d)
  have hmod := Nat.mod_lt m (Nat.two_pow_pos d)
  unfold roundShift
  split
  · constructor <;> rw [Nat.add_mul, Nat.one_mul] <;> omega
  · constructor <;> omega

/-- An exact quotient rounds to itself. -/
theorem nearestEven_mul (q : Nat) {d : Nat} (hd : 0 < d) : NearestEven (q * d) d q := by
  constructor <;> omega

theorem NearestEven.scale {x d q c : Nat} (h : NearestEven x d q) (hc : 0 < c) : NearestEven (x * c) (d * c) q := by
  have hodd : q % 2 ≤ q % 2 * c := Nat.le_mul_of_pos_right _ hc
  have hlower := Nat.mul_le_mul_right c h.lower
  have hupper := Nat.mul_le_mul_right c h.upper
  simp only [Nat.add_mul, Nat.mul_assoc] at hlower hupper
  constructor <;> omega

/-- `x` rounds to magnitude `mag`: it lies between the points halfway to the two neighbours. Here `x` is in units of `2^(−298)`,
in which every product is a natural number. -/
structure RoundsTo (x mag : Nat) : Prop where
  lower : ∀ below, below + 1 = mag → magMidpoint below * 2 ^ 149 + mag % 2 ≤ 2 * x
  upper : 2 * x + mag % 2 ≤ magMidpoint mag * 2 ^ 149

section Pack

variable {x pos sig : Nat} (hnear : NearestEven x (2 ^ (pos + 149)) sig) (hlt : x < 2 ^ 24 * 2 ^ (pos + 149))
  (hnormal : pos = 0 ∨ 2 ^ 23 * 2 ^ (pos + 149) ≤ x)

include hnear hlt in
theorem NearestEven.sig_le : sig ≤ 2 ^ 24 := by
  have hmul : 2 * sig * 2 ^ (pos + 149) < (2 ^ 25 + 1) * 2 ^ (pos + 149) := by
    have := hnear.lower
    rw [Nat.mul_assoc]
    omega
  have := Nat.lt_of_mul_lt_mul_right hmul
  omega

include hnear hnormal in
theorem NearestEven.le_sig : pos = 0 ∨ 2 ^ 23 ≤ sig := by
  refine hnormal.imp_right fun hle => ?_
  have hmul : 2 ^ 24 * 2 ^ (pos + 149) ≤ (2 * sig + 1) * 2 ^ (pos + 149) := by
    have := hnear.upper
    rw [Nat.add_mul, Nat.mul_assoc 2 sig]
    omega
  have := Nat.le_of_mul_le_mul_right hmul (Nat.two_pow_pos _)
  omega

include hnear hlt hnormal

/-- A number rounded to the place that its size asks for rounds to the packed magnitude (R190). Next to a power of two the
neighbours lie at different distances; there the size alone decides. -/
theorem NearestEven.roundsTo_pack : RoundsTo x (pos * 2 ^ 23 + sig) := by
  have hle := hnear.sig_le hlt
  have hge := hnear.le_sig hnormal
  have hself : magValue (pos * 2 ^ 23 + sig) * 2 ^ 149 = sig * 2 ^ (pos + 149) := by
    rw [magValue_pack hle hge, Nat.mul_assoc, ← Nat.pow_add]
  obtain ⟨hlower, hupper⟩ := hnear
  constructor
  · intro below hbelow
    rw [magMidpoint, Nat.add_mul, hbelow, hself]
    by_cases hpower : pos ≠ 0 ∧ sig = 2 ^ 23
    · have hmono := magValue_strictMono (Nat.lt_of_succ_le hbelow.le)
      have hx := hnormal.resolve_left hpower.1
      rw [← hpower.2] at hx
      omega
    · have hpack : below = pos * 2 ^ 23 + (sig - 1) := by omega
      have hprev : magValue below * 2 ^ 149 = (sig - 1) * 2 ^ (pos + 149) := by
        rw [hpack, magValue_pack (by omega) (by omega), Nat.mul_assoc, ← Nat.pow_add]
      have hstep : (sig - 1) * 2 ^ (pos + 149) + 2 ^ (pos + 149) = sig * 2 ^ (pos + 149) := by
        rw [← Nat.succ_mul, Nat.succ_eq_add_one, Nat.sub_add_cancel (by omega)]
      omega
  · rw [magMidpoint, Nat.add_mul, hself]
    by_cases hpower : sig = 2 ^ 24
    · have hmono := magValue_strictMono (Nat.lt_add_one (pos * 2 ^ 23 + sig))
      rw [← hpower] at hlt
      omega
    · have hnext : magValue (pos * 2 ^ 23 + sig + 1) * 2 ^ 149 = sig * 2 ^ (pos + 149) + 2 ^ (pos + 149) := by
        rw [Nat.add_assoc, magValue_pack (by omega) (by omega), Nat.mul_assoc, ← Nat.pow_add, Nat.succ_mul]
      omega

end Pack

/-- The model's rounding is that one, cut off at the infinity (R190). -/
theorem exists_roundsTo_roundMag (m k : Nat) : ∃ mag, roundMag m k = min fInfMag mag ∧ RoundsTo (m * 2 ^ k) mag := by
  by_cases hm : m = 0
  · subst hm
    exact ⟨0, by simp [roundMag], ⟨by simp, by simp⟩⟩
  unfold roundMag
  extract_lets pos sig
  refine ⟨_, if_neg hm, NearestEven.roundsTo_pack ?_ ?_ ?_⟩
  · have hcancel {u v : Nat} (h : v ≤ u) : (2 ^ (u - v)) * 2 ^ v = 2 ^ u := by rw [← Nat.pow_add, Nat.sub_add_cancel h]
    by_cases hexact : pos + 149 ≤ k
    · have hsig : sig = m * 2 ^ (k - (pos + 149)) := if_pos hexact
      rw [← hcancel hexact, ← Nat.mul_assoc, hsig]
      exact nearestEven_mul _ (Nat.two_pow_pos _)
    · have hsig : sig = roundShift m (pos + 149 - k) := if_neg hexact
      rw [hsig, ← hcancel (by omega : k ≤ pos + 149)]
      exact (roundShift_nearestEven m _).scale (Nat.two_pow_pos k)
  · calc m * 2 ^ k < 2 ^ (m.log2 + 1) * 2 ^ k := Nat.mul_lt_mul_of_pos_right Nat.lt_log2_self (Nat.two_pow_pos k)
      _ = 2 ^ (m.log2 + 1 + k) := (Nat.pow_add ..).symm
      _ ≤ 2 ^ (24 + (pos + 149)) := Nat.pow_le_pow_right (by decide) (by omega)
      _ = 2 ^ 24 * 2 ^ (pos + 149) := Nat.pow_add ..
  · refine Nat.eq_zero_or_pos pos |>.imp_right fun hpos => ?_
    calc 2 ^ 23 * 2 ^ (pos + 149) = 2 ^ (m.log2 + k) := by rw [← Nat.pow_add]; congr 1; omega
      _ = 2 ^ m.log2 * 2 ^ k := Nat.pow_add ..
      _ ≤ m * 2 ^ k := Nat.mul_le_mul_right _ (Nat.log2_self_le hm)

section Rounded

variable {x mag : Nat} (h : RoundsTo x mag)

include h

/-- No magnitude is nearer than the one rounded to, which is even if another one is equally near (R190). -/
theorem RoundsTo.nearest (v : Nat) :
    |(magValue mag * 2 ^ 149 - x : Int)| ≤ |(magValue v * 2 ^ 149 - x : Int)| ∧
      (|(magValue mag * 2 ^ 149 - x : Int)| = |(magValue v * 2 ^ 149 - x : Int)| → v ≠ mag → mag % 2 = 0) := by
  obtain ⟨hlower, hupper⟩ := h
  simp only [abs_eq_max_neg]
  rcases Nat.lt_trichotomy v mag with hlt | rfl | hgt
  · obtain ⟨below, rfl⟩ : ∃ below, mag = below + 1 := ⟨mag - 1, by omega⟩
    have hv := magValue_strictMono.monotone (Nat.le_of_lt_succ hlt)
    have hmono := magValue_strictMono (Nat.lt_add_one below)
    have hmid := hlower below rfl
    rw [magMidpoint] at hmid
    omega
  · simp
  · have hv : magValue (mag + 1) ≤ magValue v := magValue_strictMono.monotone hgt
    have hmono := magValue_strictMono (Nat.lt_add_one mag)
    rw [magMidpoint] at hupper
    omega

/-- The result exceeds an odd magnitude from the point halfway to the next one on. -/
theorem RoundsTo.lt_iff {last : Nat} (hodd : last % 2 = 1) : last < mag ↔ magMidpoint last * 2 ^ 149 ≤ 2 * x := by
  obtain ⟨hlower, hupper⟩ := h
  constructor
  · intro hlt
    obtain ⟨below, rfl⟩ : ∃ below, mag = below + 1 := ⟨mag - 1, by omega⟩
    have hmono := magMidpoint_strictMono.monotone (Nat.le_of_lt_succ hlt)
    exact (Nat.mul_le_mul_right _ hmono).trans (Nat.le_of_add_right_le (hlower below rfl))
  · intro hle
    by_contra hnot
    rcases (by omega : mag < last ∨ mag = last) with hlt | rfl
    · have hmono := magMidpoint_strictMono hlt
      omega
    · omega

/-- The overflow threshold: half a unit above the largest finite number (R190). -/
theorem RoundsTo.overflow_iff : fInfMag ≤ mag ↔ (2 ^ 25 - 1) * 2 ^ 253 * 2 ^ 149 ≤ 2 * x := by
  rw [← magMidpoint_last, ← h.lt_iff (last := fInfMag - 1) (by decide)]
  exact Nat.succ_le_iff

end Rounded

/-! ### The operations round once (44_imdct R190) -/

/-- The integer of a sign and a magnitude. -/
def signed (neg : Bool) (x : Nat) : Int := if neg then -(x : Int) else x

theorem fValue_eq_signed (a : Word) : fValue a = signed (fSign a) (magValue (fMag a)) := rfl

@[simp] theorem abs_signed (neg : Bool) (x : Nat) : |signed neg x| = x := by cases neg <;> simp [signed]

theorem signed_mul (neg neg' : Bool) (x y : Nat) :
    signed neg x * signed neg' y = signed (neg != neg') (x * y) := by
  cases neg <;> cases neg' <;> simp [signed]

theorem signed_mul_natCast (neg : Bool) (x c : Nat) : signed neg (x * c) = signed neg x * c := by
  cases neg <;> simp [signed]

theorem fValue_fneg (a : Word) : fValue (fneg a) = -fValue a := by
  rw [fValue_eq_signed, fValue_eq_signed, fSign_fneg, fMag_fneg]
  cases fSign a <;> simp [signed]

/-- What R190 asks of the result `r` of an operation whose exact value is `exact`, in units of `2^(−149) / scale`. -/
def RoundedOnce (r : Word) (exact scale : Int) : Prop :=
  (fIsInf r = true ↔ (2 ^ 25 - 1) * 2 ^ 253 * scale ≤ 2 * |exact|) ∧
  (fIsInf r = true → (fSign r = true ↔ exact < 0)) ∧
  fIsNan r = false ∧
  (fIsFinite r = true → ∀ v : Word, fIsFinite v = true →
    |fValue r * scale - exact| ≤ |fValue v * scale - exact| ∧
    (|fValue r * scale - exact| = |fValue v * scale - exact| → fValue v ≠ fValue r → fMag r % 2 = 0))

section Signed

variable {x mag : Nat} (h : RoundsTo x mag) (neg : Bool)

include h

/-- No number of either sign is nearer: to one on the other side of zero, zero itself is preferable. -/
theorem RoundsTo.nearest_signed (s : Bool) (v : Nat) :
    |signed neg (magValue mag) * 2 ^ 149 - signed neg x| ≤ |signed s (magValue v) * 2 ^ 149 - signed neg x| ∧
      (|signed neg (magValue mag) * 2 ^ 149 - signed neg x| = |signed s (magValue v) * 2 ^ 149 - signed neg x| →
        signed s (magValue v) ≠ signed neg (magValue mag) → mag % 2 = 0) := by
  have same (u : Nat) :
      |signed neg (magValue u) * 2 ^ 149 - signed neg x| = |(magValue u * 2 ^ 149 - x : Int)| := by
    cases neg
    · rfl
    · rw [← abs_neg]
      congr 1
      simp only [signed, if_true]
      ring
  obtain ⟨hle, htie⟩ := h.nearest v
  by_cases hs : s = neg
  · subst hs
    rw [same, same]
    exact ⟨hle, fun he hne => htie he fun hv => hne (by rw [hv])⟩
  · obtain rfl := Bool.eq_not_of_ne hs
    have opposite : |signed (!neg) (magValue v) * 2 ^ 149 - signed neg x| = (magValue v * 2 ^ 149 + x : Int) := by
      have hpos : (0 : Int) ≤ magValue v * 2 ^ 149 + x := by positivity
      rw [← abs_of_nonneg hpos]
      cases neg
      · rw [← abs_neg]
        congr 1
        simp only [signed, Bool.not_false, if_true, Bool.false_eq_true, if_false]
        ring
      · congr 1
        simp only [signed, Bool.not_true, if_true, Bool.false_eq_true, if_false]
        ring
    have hzero : |(magValue 0 * 2 ^ 149 - x : Int)| = x := by simp [magValue]
    obtain ⟨hle0, htie0⟩ := h.nearest 0
    rw [hzero] at hle0 htie0
    rw [same, opposite]
    refine ⟨by omega, fun he _ => ?_⟩
    by_cases h0 : mag = 0
    · rw [h0]
    · exact htie0 (by omega) (Ne.symm h0)

/-- A packed rounding is what R190 asks for. -/
theorem RoundsTo.roundedOnce {exact scale c : Int} (hc : 0 < c) (hexact : exact * c = signed neg x)
    (hscale : scale * c = 2 ^ 149) : RoundedOnce (fPack neg (min fInfMag mag)) exact scale := by
  have hlt : min fInfMag mag < 2 ^ 31 := Nat.lt_of_le_of_lt (Nat.min_le_left ..) (by decide)
  have habs : |exact| * c = x := by rw [← abs_signed neg x, ← hexact, abs_mul, abs_of_pos hc]
  have hinf : fIsInf (fPack neg (min fInfMag mag)) = true ↔ fInfMag ≤ mag := by
    rw [fIsInf, beq_iff_eq, fMag_fPack hlt, min_eq_left_iff]
  refine ⟨?_, fun hi => ?_, ?_, fun hfin v _ => ?_⟩
  · have hthreshold : (2 ^ 25 - 1) * 2 ^ 253 * scale * c = (2 ^ 25 - 1) * 2 ^ 253 * 2 ^ 149 := by rw [mul_assoc, hscale]
    have hexact' : 2 * |exact| * c = 2 * x := by rw [mul_assoc, habs]
    rw [hinf, h.overflow_iff, ← mul_le_mul_iff_left₀ hc, hthreshold, hexact']
    omega
  · have hpos : 0 < x := by
      have := h.overflow_iff.1 (hinf.1 hi)
      omega
    rw [fSign_fPack hlt, ← mul_lt_mul_iff_left₀ hc, zero_mul, hexact]
    cases neg <;> simp [signed, hpos]
  · simp only [fIsNan, fMag_fPack hlt, decide_eq_false_iff_not, Nat.not_lt, Nat.min_le_left]
  · have hmag : fMag (fPack neg (min fInfMag mag)) = mag := by
      simp only [fIsFinite, decide_eq_true_eq] at hfin
      rw [fMag_fPack hlt] at hfin ⊢
      omega
    have hscaled (y : Int) : |y * scale - exact| * c = |y * 2 ^ 149 - signed neg x| := by
      rw [← hscale, ← hexact, ← mul_assoc, ← sub_mul, abs_mul, abs_of_pos hc]
    rw [← mul_le_mul_iff_left₀ hc, ← mul_left_inj' hc.ne', hscaled, hscaled, fValue_eq_signed, fValue_eq_signed v,
      fSign_fPack hlt, hmag]
    exact h.nearest_signed neg (fSign v) (fMag v)

end Signed

section Finite

variable (a b : Word)

theorem mulFinite_roundedOnce : RoundedOnce (mulFinite a b) (fValue a * fValue b) (2 ^ 149) := by
  obtain ⟨mag, hmag, hround⟩ := exists_roundsTo_roundMag (fSig a * fSig b) (fPos a + fPos b)
  rw [mulFinite, hmag]
  refine hround.roundedOnce _ (c := 1) one_pos ?_ (mul_one _)
  rw [mul_one, fValue_eq_signed, fValue_eq_signed, signed_mul, ← fSig_mul_two_pow_fPos, ← fSig_mul_two_pow_fPos, Nat.pow_add]
  congr 1
  ring

theorem addFinite_roundedOnce : RoundedOnce (addFinite a b) (fValue a + fValue b) 1 := by
  unfold addFinite
  extract_lets v
  obtain ⟨mag, hmag, hround⟩ := exists_roundsTo_roundMag v.natAbs 149
  rw [hmag]
  refine hround.roundedOnce _ (c := 2 ^ 149) (by decide) ?_ (one_mul _)
  have hv : v = signed (if v = 0 then fSign a && fSign b else decide (v < 0)) v.natAbs := by
    by_cases h0 : v = 0
    · simp [h0, signed]
    · by_cases hneg : v < 0
      · simp [h0, hneg, signed, abs_of_neg hneg]
      · simp [h0, hneg, signed, abs_of_nonneg (not_lt.1 hneg)]
  rw [show fValue a + fValue b = v from rfl]
  conv_lhs => rw [hv]
  rw [signed_mul_natCast]
  norm_cast

variable {a b}

theorem fmul_roundedOnce (ha : fIsFinite a = true) (hb : fIsFinite b = true) :
    RoundedOnce (fmul a b) (fValue a * fValue b) (2 ^ 149) := by
  rw [fmul_finite ha hb]
  exact mulFinite_roundedOnce a b

theorem fadd_roundedOnce (ha : fIsFinite a = true) (hb : fIsFinite b = true) :
    RoundedOnce (fadd a b) (fValue a + fValue b) 1 := by
  rw [fadd, addWith_finite ha hb]
  exact addFinite_roundedOnce a b

theorem fsub_roundedOnce (ha : fIsFinite a = true) (hb : fIsFinite b = true) :
    RoundedOnce (fsub a b) (fValue a - fValue b) 1 := by
  rw [fsub, addWith_finite ha (by rwa [fIsFinite_fneg]), sub_eq_add_neg, ← fValue_fneg]
  exact addFinite_roundedOnce a (fneg b)

/-- A product with an infinite operand that is not invalid is the infinity of the signs' product (R190, log 11). -/
theorem fmul_inf_valid (ha : fIsNan a = false) (hb : fIsNan b = false) (h : fIsInf a = true ∨ fIsInf b = true)
    (hmag : fMag a ≠ 0) (hmag' : fMag b ≠ 0) :
    fIsInf (fmul a b) = true ∧ fSign (fmul a b) = (fSign a != fSign b) := by
  rw [fmul_inf ha hb h, if_neg (by simp [hmag, hmag']), fIsInf, fMag_fPack (by decide), fSign_fPack (by decide)]
  exact ⟨rfl, rfl⟩

theorem fMag_ne_zero_of_inf (h : fIsInf a = true) : fMag a ≠ 0 := by
  rw [fIsInf, beq_iff_eq] at h
  rw [h]
  decide

end Finite

/-- Settles O41: each operation on finite operands is one rounding of its exact value, and the tests before it give the
infinities. -/
theorem roundingIsToNearestEven : Obligations.RoundingIsToNearestEven := by
  refine ⟨fun a b ha hb r exact scale h => ?_, fun a b ha hb => ?_, fun a b ha hb => ?_⟩
  · rcases h with ⟨rfl, rfl, rfl⟩ | ⟨rfl, rfl, rfl⟩ | ⟨rfl, rfl, rfl⟩
    · exact fmul_roundedOnce ha hb
    · exact fadd_roundedOnce ha hb
    · exact fsub_roundedOnce ha hb
  · have hb' := (fIsFinite_iff.1 hb).1
    refine ⟨addWith_inf_finite ha hb, addWith_finite_inf hb ha, addWith_inf_finite ha (by rwa [fIsFinite_fneg]),
      addWith_finite_inf hb (by rwa [fIsInf_fneg]), fun hmag r h => ?_⟩
    rcases h with rfl | rfl
    · exact fmul_inf_valid (not_nan_of_inf ha) hb' (.inl ha) (fMag_ne_zero_of_inf ha) hmag
    · rw [bne_comm]
      exact fmul_inf_valid hb' (not_nan_of_inf ha) (.inr ha) hmag (fMag_ne_zero_of_inf ha)
  · refine ⟨fun hs => ?_, fun hs => ?_, fmul_inf_valid (not_nan_of_inf ha) (not_nan_of_inf hb) (.inl ha)
      (fMag_ne_zero_of_inf ha) (fMag_ne_zero_of_inf hb)⟩
    · rw [fadd, addWith_inf_inf ha hb, if_pos hs]
    · have hs' : fSign a = fSign (fneg b) := by
        rw [fSign_fneg]
        exact Bool.eq_not_of_ne hs
      rw [fsub, addWith_inf_inf ha (by rwa [fIsInf_fneg]), if_pos hs']

end Sys2Proof.Machine


/-! SUPPORT and PROOFS. The IMDCT unit's family, the transform: where the command stores its samples, each sample by the two loops
of step 3, the stages of the network, and what the three steps compute with exact numbers (44_imdct R195 to R201). -/

namespace Sys2Proof.Machine

/-! ### Elements of tabulated lists -/

/-- An element of a list that tabulates a function. -/
theorem getD_map_range {β : Type} (f : Nat → β) (d : β) {n i : Nat} (h : i < n) :
    ((List.range n).map f).getD i d = f i := by
  simp [List.getD_eq_getElem?_getD, h]

/-! ### The command (44_imdct R200) -/

section Command

variable {s : State} {bf : Bool}

theorem blockSize_eq_two_pow (s : State) (bf : Bool) : s.blockSize bf = 2 ^ s.blockExp bf := by
  cases bf <;> rfl

/-- The valid pairs of BSEXP leave at least 16 points to the transform (R194). -/
theorem six_le_blockExp (hv : s.configValid) (bf : Bool) : 6 ≤ s.blockExp bf := by
  obtain ⟨h0, h1, -⟩ := hv
  cases bf
  · exact h0
  · exact h0.trans h1

theorem exec_imdct_bad_config (hv : ¬ s.configValid) :
    exec (.imdct bf) s = .next (raise .badConfig s.regs.bsexp.toNat (encode (.imdct bf)) s) := by
  simp only [exec, execImdct, if_pos hv, settle_eq, commit_raised]

/-- The block holds the samples of the three steps (R200). -/
theorem element_imd_after_imdct {t : State} (hv : s.configValid) (h : exec (.imdct bf) s = .next t) {j : Nat}
    (hj : j < s.blockSize bf) (d : Word) : t.element .imd j = (s.imdctSamples bf).getD j d := by
  rw [exec_imdct_next hv] at h
  cases h
  rw [← imdctSamples_length hv] at hj
  rw [List.getD_eq_getElem _ _ hj]
  exact wordAt_storeWords_inside s MemName.imd.base (s.imdctSamples bf) j hj

end Command

/-- Settles O44: the two sides of the one test; the samples are stored words, and outside them the store changes nothing. -/
theorem imdctWritesOneBlock : Obligations.ImdctWritesOneBlock := by
  intro s bf e
  have he : s.blockSize bf = 2 ^ e := blockSize_eq_two_pow s bf
  refine ⟨?_, fun hv => ⟨_, exec_imdct_next hv, fun j hj => ?_, ?_, rfl, rfl, samePort_refl s, rfl⟩, fun hv => ?_, fun hn => ?_⟩
  · obtain ⟨-, -, -, -, -, -, -, -, -, -, -, -, -, -, -, -, hword, -⟩ := word_of_command
    exact decode_eq_command_iff.2 ⟨rfl, (hword bf).symm⟩
  · exact element_imd_after_imdct hv (exec_imdct_next hv) (he ▸ hj) 0
  · rw [← he, ← imdctSamples_length hv]
    exact fun a ha => storeWords_frame s _ _ a ha
  · have hinfo : s.regs.bsexp.toNat = (s.regs.bsexp.setWidth 32).toNat :=
      (BitVec.toNat_setWidth_of_le (by decide)).symm
    exact enters_error_with_word (hinfo ▸ exec_imdct_bad_config hv)
  · rw [numerics_default hn]
    exact ⟨rfl, rfl, rfl, rfl, rfl⟩

/-! ### Step 3: the scatter (44_imdct R198, R201) -/

/-- View and place of a sample, from its number. -/
theorem view_div_mod {m k : Nat} (hk : k < m) :
    (k / m = 0 ∧ (m + k) / m = 1 ∧ (2 * m + k) / m = 2 ∧ (2 * m + m + k) / m = 3) ∧
    k % m = k ∧ (m + k) % m = k ∧ (2 * m + k) % m = k ∧ (2 * m + m + k) % m = k := by
  have hdiv (c : Nat) : (c * m + k) / m = c := by
    rw [Nat.add_comm, Nat.add_mul_div_right _ _ (by omega), Nat.div_eq_of_lt hk, Nat.zero_add]
  have hmod (c : Nat) : (c * m + k) % m = k := by
    rw [Nat.add_comm, Nat.add_mul_mod_self_right, Nat.mod_eq_of_lt hk]
  have h1 : m + k = 1 * m + k := by omega
  have h3 : 2 * m + m + k = 3 * m + k := by omega
  exact ⟨⟨Nat.div_eq_of_lt hk, h1 ▸ hdiv 1, hdiv 2, h3 ▸ hdiv 3⟩, Nat.mod_eq_of_lt hk, h1 ▸ hmod 1, hmod 2, h3 ▸ hmod 3⟩

section Scatter

variable {α : Type} [Inhabited α]

/-- The even places of the four views, for `i` below half their length (R198). -/
theorem scatterSample_even (num : Arithmetic α) (val : List (Cplx α)) {m i : Nat} (hi : i < m / 2) :
    scatterSample num m val (2 * i) = num.neg (val.getD (m / 2 + i) default).re ∧
    scatterSample num m val (m + 2 * i) = (val.getD i default).im ∧
    scatterSample num m val (2 * m + 2 * i) = (val.getD (m / 2 + i) default).im ∧
    scatterSample num m val (2 * m + m + 2 * i) = (val.getD i default).re := by
  obtain ⟨⟨hv0, hv1, hv2, hv3⟩, hk0, hk1, hk2, hk3⟩ := view_div_mod (m := m) (k := 2 * i) (by omega)
  simp [scatterSample, hv0, hv1, hv2, hv3, hk0, hk1, hk2, hk3]

/-- The odd places of the four views, counted from their ends (R198). -/
theorem scatterSample_odd (num : Arithmetic α) (val : List (Cplx α)) {m i : Nat} (hm : m % 2 = 0) (hi : i < m / 2) :
    scatterSample num m val (m - 1 - 2 * i) = num.neg (val.getD i default).im ∧
    scatterSample num m val (m + (m - 1 - 2 * i)) = (val.getD (m / 2 + i) default).re ∧
    scatterSample num m val (2 * m + (m - 1 - 2 * i)) = (val.getD i default).re ∧
    scatterSample num m val (2 * m + m + (m - 1 - 2 * i)) = (val.getD (m / 2 + i) default).im := by
  obtain ⟨⟨hv0, hv1, hv2, hv3⟩, hk0, hk1, hk2, hk3⟩ := view_div_mod (m := m) (k := m - 1 - 2 * i) (by omega)
  have hodd : (m - 1 - 2 * i) % 2 = 1 := by omega
  have hdown : (m - 1 - (m - 1 - 2 * i)) / 2 = i := by omega
  simp [scatterSample, hv0, hv1, hv2, hv3, hk0, hk1, hk2, hk3, hodd, hdown]

variable (num : Numerics α) (lg : Nat) (spec : Nat → α) (tw fw : Nat → Cplx α)

/-- The products of step 3, of the kernel's transform of what step 1 packs. -/
def imdctProducts : List (Cplx α) :=
  postTwiddle num.toArithmetic (2 ^ lg) tw (num.fft fw lg (preTwiddle num.toArithmetic (2 ^ lg) spec tw))

theorem imdctProducts_getD {k : Nat} (hk : k < 2 ^ lg) :
    (imdctProducts num lg spec tw fw).getD k default = postProduct num.toArithmetic (tw k)
      ((num.fft fw lg (preTwiddle num.toArithmetic (2 ^ lg) spec tw)).getD k default) :=
  getD_map_range _ _ hk

/-- Each output sample is one of the scatter's (R198, R200). -/
theorem imdct_getD {j : Nat} (hj : j < 4 * 2 ^ lg) (d : α) : (imdct num lg spec tw fw).getD j d =
    scatterSample num.toArithmetic (2 ^ lg) (imdctProducts num lg spec tw fw) j :=
  getD_map_range _ _ hj

end Scatter

theorem two_pow_mod_two {lg : Nat} (hlg : 1 ≤ lg) : 2 ^ lg % 2 = 0 :=
  Nat.mod_eq_zero_of_dvd (dvd_pow_self 2 (Nat.pos_iff_ne_zero.1 hlg))

/-- Settles O46: each line is a place of a view, even or counted from the view's end. -/
theorem scatterFollowsTheTwoLoops : Obligations.ScatterFollowsTheTwoLoops := by
  intro α _ num lg spec tw fw i hlg m q n y val out fi ri hi
  have hm : m % 2 = 0 := two_pow_mod_two hlg
  have hval {k : Nat} (hk : k < m) : (imdctProducts num lg spec tw fw).getD k default = val k :=
    imdctProducts_getD num lg spec tw fw hk
  obtain ⟨e0, e1, e2, e3⟩ := scatterSample_even num.toArithmetic (imdctProducts num lg spec tw fw) hi
  obtain ⟨o0, o1, o2, o3⟩ := scatterSample_odd num.toArithmetic (imdctProducts num lg spec tw fw) hm hi
  have hout {j : Nat} (hj : j < 4 * m) := imdct_getD num lg spec tw fw hj default
  rw [hval (by omega)] at e0 e1 e2 e3 o0 o1 o2 o3
  refine ⟨(hout ?_).trans o0, (hout ?_).trans e1, (hout ?_).trans o2, (hout ?_).trans e3, (hout ?_).trans e0,
    (hout ?_).trans o1, (hout ?_).trans e2, (hout ?_).trans o3⟩ <;> omega

/-- Every place of a view is written by one of the two lines that write the view (R198). -/
theorem exists_loop_index {m j : Nat} (hm : m % 2 = 0) (hj : j < m) :
    ∃ i < m / 2, j = 2 * i ∨ j = m - 1 - 2 * i := by
  rcases Nat.mod_two_eq_zero_or_one j with h | h
  · exact ⟨j / 2, by omega, .inl (by omega)⟩
  · exact ⟨(m - 1 - j) / 2, by omega, .inr (by omega)⟩

/-- The two halves of the output mirror about their middles, whatever the arithmetic (R201). -/
theorem imdct_symmetric {α : Type} [Inhabited α] (num : Numerics α) {lg : Nat} (hlg : 1 ≤ lg) (spec : Nat → α)
    (tw fw : Nat → Cplx α) {j : Nat} (hj : j < 2 ^ lg) :
    (imdct num lg spec tw fw).getD (2 ^ lg - 1 - j) default = num.neg ((imdct num lg spec tw fw).getD (2 ^ lg + j) default) ∧
    (imdct num lg spec tw fw).getD (2 * 2 ^ lg + 2 ^ lg + j) default =
      (imdct num lg spec tw fw).getD (2 * 2 ^ lg + 2 ^ lg - 1 - j) default := by
  obtain ⟨i, hi, h⟩ := exists_loop_index (two_pow_mod_two hlg) hj
  obtain ⟨ri0, fi1, ri2, fi3, fi0, ri1, fi2, ri3⟩ := scatterFollowsTheTwoLoops α _ num lg spec tw fw i hlg hi
  rcases h with rfl | rfl
  · have hmirror : 2 * 2 ^ lg + 2 ^ lg - 1 - 2 * i = 2 * 2 ^ lg + (2 ^ lg - 1 - 2 * i) := by omega
    rw [hmirror]
    exact ⟨ri0.trans (congrArg num.neg fi1.symm), fi3.trans ri2.symm⟩
  · have hplace : 2 ^ lg - 1 - (2 ^ lg - 1 - 2 * i) = 2 * i := by omega
    have hmirror : 2 * 2 ^ lg + 2 ^ lg - 1 - (2 ^ lg - 1 - 2 * i) = 2 * 2 ^ lg + 2 * i := by omega
    rw [hplace, hmirror]
    exact ⟨fi0.trans (congrArg num.neg ri1.symm), ri3.trans fi2.symm⟩

/-- Settles O47: the block holds the samples of the three steps, and those mirror. -/
theorem imdctOutputIsSymmetric : Obligations.ImdctOutputIsSymmetric := by
  intro s t bf hv h m j hj
  have hexp := six_le_blockExp hv bf
  have hsize : s.blockSize bf = 4 * 2 ^ (s.blockExp bf - 2) := by
    rw [blockSize_eq_two_pow, ← Nat.pow_add 2 2, Nat.add_sub_cancel' (by omega)]
  have hm : m = 2 ^ (s.blockExp bf - 2) := by
    show s.blockSize bf / 4 = _
    rw [hsize, Nat.mul_div_cancel_left _ (by decide)]
  have helement {k : Nat} (hk : k < 4 * m) : t.element .imd k = (s.imdctSamples bf).getD k default :=
    element_imd_after_imdct hv h (by rw [hsize, ← hm]; exact hk) default
  obtain ⟨hodd, heven⟩ := imdct_symmetric s.numerics (lg := s.blockExp bf - 2) (by omega) (s.element .spec)
    (s.complexElement (twiddleMem bf)) (s.complexElement .fftw) (hm ▸ hj)
  rw [← hm] at hodd heven
  have hfirst : t.element .imd (m - 1 - j) = s.numerics.neg (t.element .imd (m + j)) := by
    rw [helement (by omega), helement (by omega)]
    exact hodd
  refine ⟨hfirst, fun hn => ?_, ?_⟩
  · rw [hfirst, numerics_default hn]
    rfl
  · rw [helement (by omega), helement (by omega)]
    exact heven

/-! ### Bit reversal (00_scope R5) -/

theorem rev_lt (w v : Nat) : rev w v < 2 ^ w := by
  induction w generalizing v with
  | zero => exact Nat.one_pos
  | succ w ih =>
    have hrest := ih (v / 2)
    rw [rev, Nat.pow_succ]
    rcases Nat.mod_two_eq_zero_or_one v with h | h <;> rw [h] <;> omega

/-- Bit `b` of the reversal is the bit as far from the other end (R5). -/
theorem testBit_rev {w b : Nat} (v : Nat) (hb : b < w) : (rev w v).testBit b = v.testBit (w - 1 - b) := by
  induction w generalizing v b with
  | zero => exact absurd hb (Nat.not_lt_zero b)
  | succ w ih =>
    rw [rev, Nat.mul_comm, Nat.testBit_two_pow_mul_add _ (rev_lt w _)]
    by_cases h : b < w
    · have hplace : w + 1 - 1 - b = w - 1 - b + 1 := by omega
      rw [if_pos h, ih _ h, hplace, Nat.testBit_succ]
    · obtain rfl : b = w := by omega
      simp

/-- Reversing twice gives back a number of `w` bits. -/
theorem rev_rev {w i : Nat} (hi : i < 2 ^ w) : rev w (rev w i) = i := by
  refine Nat.eq_of_testBit_eq fun b => ?_
  by_cases hb : b < w
  · have hback : w - 1 - (w - 1 - b) = b := by omega
    rw [testBit_rev _ hb, testBit_rev _ (by omega), hback]
  · have hle : 2 ^ w ≤ 2 ^ b := Nat.pow_le_pow_right (by decide) (by omega)
    rw [Nat.testBit_lt_two_pow ((rev_lt w _).trans_le hle), Nat.testBit_lt_two_pow (hi.trans_le hle)]

theorem rev_succ_even (w i : Nat) : rev (w + 1) (2 * i) = rev w i := by simp [rev]

theorem rev_succ_odd (w i : Nat) : rev (w + 1) (2 * i + 1) = 2 ^ w + rev w i := by
  have hmod : (2 * i + 1) % 2 = 1 := by omega
  have hdiv : (2 * i + 1) / 2 = i := by omega
  rw [rev, hmod, hdiv, Nat.one_mul]

/-! ### The network's stages (44_imdct R197) -/

/-- The groups of a stage lie whole within the array (R197). -/
theorem group_add_le {s lg g : Nat} (hs : s ≤ lg) (hg : g % 2 ^ s = 0) (hlt : g < 2 ^ lg) : g + 2 ^ s ≤ 2 ^ lg := by
  obtain ⟨c, rfl⟩ := Nat.dvd_of_mod_eq_zero hg
  obtain ⟨d, hd⟩ := Nat.pow_dvd_pow 2 hs
  rw [hd] at hlt ⊢
  rw [← Nat.mul_succ]
  exact Nat.mul_le_mul_left _ (Nat.lt_of_mul_lt_mul_left hlt)

section Network

variable {α : Type} [Inhabited α] (num : Arithmetic α) (fw : Nat → Cplx α)

/-- The element that a butterfly leaves at the lower of its two places (R197). -/
theorem butterfly_lower {half g j : Nat} (a : List (Cplx α)) (hg : g % (2 * half) = 0) (hj : j < half) :
    butterfly num fw half a (g + j) =
      let t := butterflyProduct num (a.getD (g + j + half) default) (fw (j * (2048 / (2 * half))))
      ⟨num.add (a.getD (g + j) default).re t.re, num.add (a.getD (g + j) default).im t.im⟩ := by
  have hplace : (g + j) % (2 * half) = j := by rw [Nat.add_mod, hg, Nat.zero_add, Nat.mod_mod, Nat.mod_eq_of_lt (by omega)]
  simp only [butterfly, hplace, if_pos hj]

/-- The element that a butterfly leaves at the upper of its two places (R197). -/
theorem butterfly_upper {half g j : Nat} (a : List (Cplx α)) (hg : g % (2 * half) = 0) (hj : j < half) :
    butterfly num fw half a (g + j + half) =
      let t := butterflyProduct num (a.getD (g + j + half) default) (fw (j * (2048 / (2 * half))))
      ⟨num.sub (a.getD (g + j) default).re t.re, num.sub (a.getD (g + j) default).im t.im⟩ := by
  have hplace : (g + j + half) % (2 * half) = j + half := by
    rw [Nat.add_assoc, Nat.add_mod, hg, Nat.zero_add, Nat.mod_mod, Nat.mod_eq_of_lt (by omega)]
  simp only [butterfly, hplace, if_neg (by omega : ¬ j + half < half), Nat.add_sub_cancel]

variable (lg : Nat) (input : List (Cplx α))

/-- The array `A` of R197 after the bit reversal and the first `s` stages. -/
def networkArray (s i : Nat) : Cplx α :=
  (fftStages num fw (2 ^ lg) s ((List.range (2 ^ lg)).map fun i => input.getD (rev lg i) default)).getD i default

/-- The bit reversal is its own inverse, so each input goes to its reversed place (R197). -/
theorem networkArray_zero {i : Nat} (hi : i < 2 ^ lg) : networkArray num fw lg input 0 (rev lg i) = input.getD i default := by
  rw [networkArray, fftStages, getD_map_range _ _ (rev_lt lg i), rev_rev hi]

/-- A stage is its butterflies (R197). -/
theorem networkArray_succ {s i : Nat} (hi : i < 2 ^ lg) : networkArray num fw lg input (s + 1) i =
    butterfly num fw (2 ^ s)
      (fftStages num fw (2 ^ lg) s ((List.range (2 ^ lg)).map fun i => input.getD (rev lg i) default)) i :=
  getD_map_range _ _ hi

theorem fft_getD (k : Nat) : (fft num fw lg input).getD k default = networkArray num fw lg input lg k := rfl

theorem fftStages_length (m s : Nat) {a : List (Cplx α)} (ha : a.length = m) : (fftStages num fw m s a).length = m := by
  cases s with
  | zero => exact ha
  | succ s => simp [fftStages]

theorem fft_length : (fft num fw lg input).length = 2 ^ lg := fftStages_length _ _ _ _ (by simp)

/-- A stage takes each pair of places through its butterfly (R197). -/
theorem networkArray_butterfly {s g j : Nat} (hs : s + 1 ≤ lg) (hg : g % 2 ^ (s + 1) = 0) (hlt : g < 2 ^ lg)
    (hj : j < 2 ^ s) :
    let u := networkArray num fw lg input s (g + j)
    let t := butterflyProduct num (networkArray num fw lg input s (g + j + 2 ^ s)) (fw (j * (2048 / 2 ^ (s + 1))))
    networkArray num fw lg input (s + 1) (g + j) = ⟨num.add u.re t.re, num.add u.im t.im⟩ ∧
    networkArray num fw lg input (s + 1) (g + j + 2 ^ s) = ⟨num.sub u.re t.re, num.sub u.im t.im⟩ := by
  have hgroup := group_add_le hs hg hlt
  rw [Nat.pow_succ'] at hg hgroup ⊢
  rw [networkArray_succ num fw lg input (by omega), networkArray_succ num fw lg input (by omega),
    butterfly_lower num fw _ hg hj, butterfly_upper num fw _ hg hj]
  exact ⟨rfl, rfl⟩

end Network

/-- The table of roots is read below its 1024 elements (R193, R197). -/
theorem stride_lt {s j : Nat} (hs : s < 11) (hj : j < 2 ^ s) : j * (2048 / 2 ^ (s + 1)) < 1024 := by
  have hsplit : 2 ^ s * 2 ^ (10 - s) = 1024 := by rw [← Nat.pow_add, Nat.add_sub_cancel' (by omega)]
  have hstride : 2048 / 2 ^ (s + 1) = 2 ^ (10 - s) := by
    refine Nat.div_eq_of_eq_mul_right (Nat.two_pow_pos _) ?_
    rw [Nat.pow_succ, Nat.mul_right_comm, hsplit]
  rw [hstride, ← hsplit]
  exact Nat.mul_lt_mul_of_pos_right hj (Nat.two_pow_pos _)

/-- Settles O45: step 1 tabulates its line; the arrays are those of the stages, and each stage tabulates its butterflies. -/
theorem packingAndNetworkFollowThePseudocode : Obligations.PackingAndNetworkFollowThePseudocode := by
  intro α _ num lg spec tw fw input hlg m n
  refine ⟨⟨by simp [preTwiddle], fun i hi => ?_⟩, fun i _ => ⟨rev_lt lg i, fun b hb => testBit_rev i hb⟩,
    fft_length num fw lg input, networkArray num fw lg input, fun i hi => networkArray_zero num fw lg input hi, ?_,
    fun k _ => fft_getD num fw lg input k⟩
  · rw [preTwiddle, getD_map_range _ _ hi]
    exact ⟨rfl, rfl⟩
  · intro s hs hle g j len half stride hg hgm hj
    obtain ⟨s, rfl⟩ : ∃ r, s = r + 1 := ⟨s - 1, by omega⟩
    have hhalf : half = 2 ^ s := Nat.div_eq_of_eq_mul_left (by decide) (Nat.pow_succ ..)
    rw [hhalf] at hj ⊢
    exact ⟨stride_lt (by omega) hj, networkArray_butterfly num fw lg input hle hg hgm hj⟩

/-! ### The forward transform, over the complex numbers (44_imdct R196) -/

/-- The complex number of a pair of reals. -/
def toComplex (c : Cplx ℝ) : ℂ := ⟨c.re, c.im⟩

/-- The root of unity of stage `s`, `e^(−2π√−1/2^s)`. -/
noncomputable def stageRoot (s : Nat) : ℂ := Complex.exp ((-(2 * Real.pi / 2 ^ s) : ℝ) * Complex.I)

theorem stageRoot_pow (s k : Nat) :
    stageRoot s ^ k = Complex.exp ((-(2 * Real.pi * k / 2 ^ s) : ℝ) * Complex.I) := by
  rw [stageRoot, ← Complex.exp_nat_mul]
  congr 1
  push_cast
  ring

/-- The next stage's root is a square root of this one's. -/
theorem stageRoot_succ_sq (s : Nat) : stageRoot (s + 1) ^ 2 = stageRoot s := by
  rw [stageRoot_pow, stageRoot, pow_succ]
  congr 3
  push_cast
  field_simp

theorem stageRoot_succ_pow_half (s : Nat) : stageRoot (s + 1) ^ 2 ^ s = -1 := by
  have hangle : -(2 * Real.pi * (2 ^ s : Nat) / 2 ^ (s + 1)) = -Real.pi := by
    push_cast
    rw [pow_succ]
    field_simp
  rw [stageRoot_pow, hangle]
  push_cast
  rw [neg_mul, Complex.exp_neg, Complex.exp_pi_mul_I]
  norm_num

theorem stageRoot_pow_period (s : Nat) : stageRoot s ^ 2 ^ s = 1 := by
  rw [← stageRoot_succ_sq, ← pow_mul, mul_comm, pow_mul, stageRoot_succ_pow_half]
  norm_num

/-- The transform of `2^s` numbers that lie in bit-reversed order (R196). -/
noncomputable def reversedDft (a : Nat → ℂ) (s j : Nat) : ℂ :=
  ∑ i ∈ Finset.range (2 ^ s), a (rev s i) * stageRoot s ^ (i * j)

/-- A sum split by the parity of its index. -/
theorem sum_range_two_mul {β : Type} [AddCommMonoid β] (f : Nat → β) (n : Nat) :
    ∑ i ∈ Finset.range (2 * n), f i = ∑ i ∈ Finset.range n, f (2 * i) + ∑ i ∈ Finset.range n, f (2 * i + 1) := by
  rw [← Finset.sum_add_distrib]
  induction n with
  | zero => rfl
  | succ n ih => rw [Nat.mul_succ, Finset.sum_range_succ, Finset.sum_range_succ, ih, Finset.sum_range_succ, add_assoc]

/-- The decimation in time: a transform from those of the two halves. -/
theorem reversedDft_succ (a : Nat → ℂ) (s j : Nat) : reversedDft a (s + 1) j =
    reversedDft a s j + stageRoot (s + 1) ^ j * reversedDft (fun p => a (2 ^ s + p)) s j := by
  have heven (i : Nat) : stageRoot (s + 1) ^ (2 * i * j) = stageRoot s ^ (i * j) := by
    rw [mul_assoc, pow_mul, stageRoot_succ_sq]
  have hodd (i : Nat) : stageRoot (s + 1) ^ ((2 * i + 1) * j) = stageRoot (s + 1) ^ j * stageRoot s ^ (i * j) := by
    rw [← heven, ← pow_add]
    congr 1
    ring
  simp only [reversedDft, pow_succ' 2 s, sum_range_two_mul, rev_succ_even, rev_succ_odd, heven, hodd, Finset.mul_sum]
  congr 1
  exact Finset.sum_congr rfl fun i _ => by ring

theorem reversedDft_periodic (a : Nat → ℂ) (s j : Nat) : reversedDft a s (j + 2 ^ s) = reversedDft a s j := by
  have hperiod (i : Nat) : stageRoot s ^ (i * (j + 2 ^ s)) = stageRoot s ^ (i * j) := by
    rw [mul_add, pow_add, mul_comm i (2 ^ s), pow_mul _ (2 ^ s), stageRoot_pow_period, one_pow, mul_one]
  simp only [reversedDft, hperiod]

/-- The upper half of a transform: the second half of the input counts with the other sign. -/
theorem reversedDft_succ_upper (a : Nat → ℂ) (s j : Nat) : reversedDft a (s + 1) (j + 2 ^ s) =
    reversedDft a s j - stageRoot (s + 1) ^ j * reversedDft (fun p => a (2 ^ s + p)) s j := by
  rw [reversedDft_succ, reversedDft_periodic, reversedDft_periodic, pow_add, stageRoot_succ_pow_half]
  ring

/-! ### The network with exact numbers (44_imdct R196, R197) -/

/-- The exact operations. -/
structure IsExact (num : Arithmetic ℝ) : Prop where
  add : ∀ a b, num.add a b = a + b
  sub : ∀ a b, num.sub a b = a - b
  mul : ∀ a b, num.mul a b = a * b

/-- The exact table of R193. -/
def ExactRoots (fw : Nat → Cplx ℝ) : Prop :=
  ∀ k < 1024, fw k = ⟨Real.cos (2 * Real.pi * k / 2048), -Real.sin (2 * Real.pi * k / 2048)⟩

section ExactNetwork

variable {num : Arithmetic ℝ} (hnum : IsExact num) {fw : Nat → Cplx ℝ} (hfw : ExactRoots fw) {lg : Nat} (hlg : lg ≤ 11)
  (input : List (Cplx ℝ))

include hnum in
theorem toComplex_butterflyProduct (v w : Cplx ℝ) :
    toComplex (butterflyProduct num v w) = toComplex w * toComplex v := by
  refine Complex.ext ?_ ?_
  · simp [butterflyProduct, toComplex, hnum.sub, hnum.mul]
    ring
  · simp [butterflyProduct, toComplex, hnum.add, hnum.mul]
    ring

include hnum in
theorem toComplex_add (u t : Cplx ℝ) : toComplex ⟨num.add u.re t.re, num.add u.im t.im⟩ = toComplex u + toComplex t := by
  simp only [toComplex, hnum.add]
  rfl

include hnum in
theorem toComplex_sub (u t : Cplx ℝ) : toComplex ⟨num.sub u.re t.re, num.sub u.im t.im⟩ = toComplex u - toComplex t := by
  simp only [toComplex, hnum.sub]
  rfl

include hfw in
/-- The table read with the stride of a stage holds the powers of the stage's root (R193, R197). -/
theorem toComplex_root {s j : Nat} (hs : s < 11) (hj : j < 2 ^ s) :
    toComplex (fw (j * (2048 / 2 ^ (s + 1)))) = stageRoot (s + 1) ^ j := by
  have hangle : 2 * Real.pi * (j * (2048 / 2 ^ (s + 1)) : Nat) / 2048 = 2 * Real.pi * j / 2 ^ (s + 1) := by
    have hdvd : 2 ^ (s + 1) ∣ 2048 := Nat.pow_dvd_pow 2 (by omega : s + 1 ≤ 11)
    push_cast [hdvd]
    ring
  rw [hfw _ (stride_lt hs hj), stageRoot_pow, hangle]
  refine Complex.ext ?_ ?_
  · rw [Complex.exp_ofReal_mul_I_re, Real.cos_neg]
    rfl
  · rw [Complex.exp_ofReal_mul_I_im, Real.sin_neg]
    rfl

include hnum hfw hlg

/-- After `s` stages each group of `2^s` places holds the transform of what the bit reversal put there (R196, R197). -/
theorem toComplex_networkArray {s : Nat} (hs : s ≤ lg) {g j : Nat} (hg : g % 2 ^ s = 0) (hlt : g < 2 ^ lg) (hj : j < 2 ^ s) :
    toComplex (networkArray num fw lg input s (g + j)) =
      reversedDft (fun p => toComplex (networkArray num fw lg input 0 (g + p))) s j := by
  induction s generalizing g j with
  | zero =>
    obtain rfl : j = 0 := by simpa using hj
    simp [reversedDft, rev]
  | succ s ih =>
    have hgroup := group_add_le hs hg hlt
    have hlow : g % 2 ^ s = 0 :=
      Nat.mod_eq_zero_of_dvd ((Nat.pow_dvd_pow 2 (Nat.le_succ s)).trans (Nat.dvd_of_mod_eq_zero hg))
    have hhigh : (g + 2 ^ s) % 2 ^ s = 0 := by rw [Nat.add_mod_right, hlow]
    rw [Nat.pow_succ'] at hj hgroup
    have halves {i : Nat} (hi : i < 2 ^ s) := networkArray_butterfly num fw lg input hs hg hlt hi
    have product {i : Nat} (hi : i < 2 ^ s) :
        toComplex (butterflyProduct num (networkArray num fw lg input s (g + i + 2 ^ s)) (fw (i * (2048 / 2 ^ (s + 1))))) =
          stageRoot (s + 1) ^ i *
            reversedDft (fun p => toComplex (networkArray num fw lg input 0 (g + (2 ^ s + p)))) s i := by
      rw [toComplex_butterflyProduct hnum, toComplex_root hfw (by omega) hi, Nat.add_right_comm,
        ih (by omega) hhigh (by omega) hi]
      simp only [Nat.add_assoc]
    rcases Nat.lt_or_ge j (2 ^ s) with hi | hge
    · rw [(halves hi).1, toComplex_add hnum, product hi, ih (by omega) hlow hlt hi, reversedDft_succ]
    · obtain ⟨i, rfl⟩ := Nat.exists_eq_add_of_le' hge
      have hi : i < 2 ^ s := by omega
      rw [← Nat.add_assoc, (halves hi).2, toComplex_sub hnum, product hi, ih (by omega) hlow hlt hi, reversedDft_succ_upper]

/-- The network computes the forward transform (R196, R197). -/
theorem toComplex_fft {k : Nat} (hk : k < 2 ^ lg) : toComplex ((fft num fw lg input).getD k default) =
    ∑ i ∈ Finset.range (2 ^ lg), toComplex (input.getD i default) * stageRoot lg ^ (i * k) := by
  have harray := toComplex_networkArray hnum hfw hlg input (le_refl lg) (g := 0) (Nat.zero_mod _) (Nat.two_pow_pos lg) hk
  rw [Nat.zero_add] at harray
  rw [fft_getD, harray, reversedDft]
  refine Finset.sum_congr rfl fun i hi => ?_
  rw [Nat.zero_add, networkArray_zero num fw lg input (Finset.mem_range.1 hi)]

end ExactNetwork

/-- A term of the transform, in its real and imaginary parts. -/
theorem toComplex_mul_stageRoot_pow (c : Cplx ℝ) (lg i k : Nat) :
    toComplex c * stageRoot lg ^ (i * k) =
      ⟨c.re * Real.cos (2 * Real.pi * i * k / 2 ^ lg) + c.im * Real.sin (2 * Real.pi * i * k / 2 ^ lg),
        c.im * Real.cos (2 * Real.pi * i * k / 2 ^ lg) - c.re * Real.sin (2 * Real.pi * i * k / 2 ^ lg)⟩ := by
  have hangle : 2 * Real.pi * (i * k : Nat) / 2 ^ lg = 2 * Real.pi * i * k / 2 ^ lg := by
    push_cast
    ring
  rw [stageRoot_pow, hangle]
  refine Complex.ext ?_ ?_
  · rw [Complex.mul_re, Complex.exp_ofReal_mul_I_re, Complex.exp_ofReal_mul_I_im, Real.cos_neg, Real.sin_neg]
    simp only [toComplex]
    ring
  · rw [Complex.mul_im, Complex.exp_ofReal_mul_I_re, Complex.exp_ofReal_mul_I_im, Real.cos_neg, Real.sin_neg]
    simp only [toComplex]
    ring

/-- Settles O48: the parts of the complex transform. -/
theorem networkComputesTheForwardTransform : Obligations.NetworkComputesTheForwardTransform := by
  intro num fw lg input hadd hsub hmul hfw hlg _
  refine ⟨fft_length num fw lg input, fun k hk => ?_⟩
  have hfft := toComplex_fft ⟨hadd, hsub, hmul⟩ hfw hlg input hk
  simp only [toComplex_mul_stageRoot_pow] at hfft
  have hre := congrArg Complex.re hfft
  have him := congrArg Complex.im hfft
  rw [Complex.re_sum] at hre
  rw [Complex.im_sum] at him
  exact ⟨hre, him⟩

/-! ### The cosine sum of the inverse MDCT (44_imdct R199) -/

/-- The sum of R199 at `u = j + 1/2 + n/2`, without the scale. -/
noncomputable def cosineSum (n : Nat) (spec : Nat → ℝ) (u : ℝ) : ℝ :=
  ∑ k ∈ Finset.range n, spec k * Real.cos (Real.pi / n * u * (k + 1 / 2))

/-- Sample `j` of the inverse MDCT of `2·m` spectrum elements (R199). -/
noncomputable def inverseMdct (m : Nat) (scale : ℝ) (spec : Nat → ℝ) (j : Nat) : ℝ :=
  scale * cosineSum (2 * m) spec (j + 1 / 2 + (2 * m : Nat) / 2)

section CosineSum

variable {n m : Nat} (spec : Nat → ℝ) (u : ℝ)

theorem cosineSum_two_mul_sub (hn : 0 < n) : cosineSum n spec (2 * n - u) = -cosineSum n spec u := by
  have hn' : (n : ℝ) ≠ 0 := Nat.cast_ne_zero.2 hn.ne'
  have hterm (k : Nat) : Real.cos (Real.pi / n * (2 * n - u) * (k + 1 / 2)) = -Real.cos (Real.pi / n * u * (k + 1 / 2)) := by
    have hangle : Real.pi / n * (2 * n - u) * (k + 1 / 2) =
        Real.pi - Real.pi / n * u * (k + 1 / 2) + k * (2 * Real.pi) := by
      field_simp
      ring
    rw [hangle, Real.cos_add_nat_mul_two_pi, Real.cos_pi_sub]
  simp only [cosineSum, hterm, mul_neg, Finset.sum_neg_distrib]

theorem cosineSum_neg : cosineSum n spec (-u) = cosineSum n spec u := by
  have hterm (k : Nat) : Real.pi / n * -u * (k + 1 / 2) = -(Real.pi / n * u * (k + 1 / 2)) := by ring
  simp only [cosineSum, hterm, Real.cos_neg]

theorem cosineSum_two_mul_add (hn : 0 < n) : cosineSum n spec (2 * n + u) = -cosineSum n spec u := by
  rw [← cosineSum_neg spec u, ← cosineSum_two_mul_sub spec (-u) hn, sub_neg_eq_add]

theorem cosineSum_four_mul_sub (hn : 0 < n) : cosineSum n spec (4 * n - u) = cosineSum n spec u := by
  have hsplit : (4 * n - u : ℝ) = 2 * n + (2 * n - u) := by ring
  rw [hsplit, cosineSum_two_mul_add spec _ hn, cosineSum_two_mul_sub spec _ hn, neg_neg]

/-- The even elements of the spectrum and, from its end, the odd ones, paired as step 1 packs them (R195). -/
theorem cosineSum_pairs (hm : 0 < m) : cosineSum (2 * m) spec u =
    ∑ i ∈ Finset.range m,
      (spec (2 * i) * Real.cos (Real.pi / (2 * m : Nat) * u * (2 * i + 1 / 2)) +
        spec (2 * m - 1 - 2 * i) * Real.cos (Real.pi * u - Real.pi / (2 * m : Nat) * u * (2 * i + 1 / 2))) := by
  have hm' : (m : ℝ) ≠ 0 := Nat.cast_ne_zero.2 hm.ne'
  rw [cosineSum, sum_range_two_mul, ← Finset.sum_range_reflect (fun i => spec (2 * i + 1) * _), ← Finset.sum_add_distrib]
  refine Finset.sum_congr rfl fun i hi => ?_
  have hi' := Finset.mem_range.1 hi
  have hplace : 2 * (m - 1 - i) + 1 = 2 * m - 1 - 2 * i := by omega
  have hcast : ((2 * m - 1 - 2 * i : Nat) : ℝ) = 2 * m - 1 - 2 * i := by
    rw [Nat.cast_sub (by omega), Nat.cast_sub (by omega)]
    push_cast
    ring
  rw [hplace, hcast]
  congr 3
  · push_cast
    ring
  · push_cast
    field_simp
    ring

/-- The phase between packed element `i` and product `k` of the transform. -/
noncomputable def phase (m i k : Nat) : ℝ := Real.pi / (2 * m : Nat) * (2 * k + 1 / 2) * (2 * i + 1 / 2)

/-- The sum at `2k + 1/2`, by the phases of product `k`. -/
theorem cosineSum_at_place (hm : 0 < m) (k : Nat) : cosineSum (2 * m) spec (2 * k + 1 / 2) =
    ∑ i ∈ Finset.range m,
      (spec (2 * i) * Real.cos (phase m i k) + spec (2 * m - 1 - 2 * i) * Real.sin (phase m i k)) := by
  rw [cosineSum_pairs spec _ hm]
  refine Finset.sum_congr rfl fun i _ => ?_
  have hangle : Real.pi * (2 * k + 1 / 2) - phase m i k = Real.pi / 2 - phase m i k + k * (2 * Real.pi) := by ring
  rw [← phase, hangle, Real.cos_add_nat_mul_two_pi, Real.cos_pi_div_two_sub]

/-- The sum half a period further on, by the same phases. -/
theorem cosineSum_at_half_period (hm : 0 < m) (k : Nat) :
    cosineSum (2 * m) spec ((2 * m : Nat) + (2 * k + 1 / 2)) =
      ∑ i ∈ Finset.range m,
        (spec (2 * m - 1 - 2 * i) * Real.cos (phase m i k) - spec (2 * i) * Real.sin (phase m i k)) := by
  have hm' : (m : ℝ) ≠ 0 := Nat.cast_ne_zero.2 hm.ne'
  rw [cosineSum_pairs spec _ hm]
  refine Finset.sum_congr rfl fun i _ => ?_
  have heven : Real.pi / (2 * m : Nat) * ((2 * m : Nat) + (2 * k + 1 / 2)) * (2 * i + 1 / 2) =
      phase m i k + Real.pi / 2 + i * (2 * Real.pi) := by
    rw [phase]
    push_cast
    field_simp
    ring
  have hodd : Real.pi * ((2 * m : Nat) + (2 * k + 1 / 2)) - (phase m i k + Real.pi / 2 + i * (2 * Real.pi)) =
      -phase m i k + ((m + k : Nat) * (2 * Real.pi) - i * (2 * Real.pi)) := by
    push_cast
    ring
  rw [heven, hodd, Real.cos_add_nat_mul_two_pi, Real.cos_add_pi_div_two, ← add_sub_assoc, Real.cos_sub_nat_mul_two_pi,
    Real.cos_add_nat_mul_two_pi, Real.cos_neg]
  ring

end CosineSum

/-! ### The three steps with exact numbers (44_imdct R192, R195, R198, R199) -/

/-- The exact table of R192 for `m` points. -/
def ExactTwiddles (m : Nat) (scale : ℝ) (tw : Nat → Cplx ℝ) : Prop :=
  ∀ k < m, tw k = ⟨Real.sqrt scale * Real.cos (Real.pi / (2 * m : Nat) * (k + 1 / 8)),
    Real.sqrt scale * Real.sin (Real.pi / (2 * m : Nat) * (k + 1 / 8))⟩

section ExactSteps

variable {num : Arithmetic ℝ} (hnum : IsExact num) (hneg : ∀ a, num.neg a = -a)

include hnum in
theorem toComplex_postProduct (w x : Cplx ℝ) :
    toComplex (postProduct num w x) = toComplex w * (starRingEnd ℂ) (toComplex x) := by
  refine Complex.ext ?_ ?_
  · simp [postProduct, toComplex, hnum.add, hnum.mul]
  · simp [postProduct, toComplex, hnum.sub, hnum.mul]
    ring

include hnum hneg in
/-- The packed element is the negated conjugate of a twiddled pair of the spectrum (R195). -/
theorem toComplex_preTwiddle (m : Nat) (spec : Nat → ℝ) (tw : Nat → Cplx ℝ) {i : Nat} (hi : i < m) :
    toComplex ((preTwiddle num m spec tw).getD i default) =
      -(starRingEnd ℂ) (⟨spec (2 * i), -spec (2 * m - 1 - 2 * i)⟩ * toComplex (tw i)) := by
  rw [preTwiddle, getD_map_range _ _ hi]
  refine Complex.ext ?_ ?_
  · simp [toComplex, hnum.sub, hnum.mul, hneg]
    ring
  · simp [toComplex, hnum.add, hnum.mul, hneg]

/-- A twiddle in polar form (R192). -/
theorem toComplex_twiddle {m k : Nat} {scale : ℝ} {tw : Nat → Cplx ℝ} (htw : ExactTwiddles m scale tw) (hk : k < m) :
    toComplex (tw k) = Real.sqrt scale * Complex.exp ((Real.pi / (2 * m : Nat) * (k + 1 / 8) : ℝ) * Complex.I) := by
  rw [htw k hk]
  refine Complex.ext ?_ ?_
  · rw [Complex.re_ofReal_mul, Complex.exp_ofReal_mul_I_re]
    rfl
  · rw [Complex.im_ofReal_mul, Complex.exp_ofReal_mul_I_im]
    rfl

/-- The two twiddles and the root between packed element `i` and product `k` make up one phase. -/
theorem twiddles_mul_root {lg i k : Nat} {scale : ℝ} (hscale : 0 ≤ scale) {tw : Nat → Cplx ℝ}
    (htw : ExactTwiddles (2 ^ lg) scale tw) (hi : i < 2 ^ lg) (hk : k < 2 ^ lg) :
    toComplex (tw i) * toComplex (tw k) * (starRingEnd ℂ) (stageRoot lg ^ (i * k)) =
      scale * Complex.exp (phase (2 ^ lg) i k * Complex.I) := by
  have hconj : (starRingEnd ℂ) (stageRoot lg ^ (i * k)) =
      Complex.exp ((2 * Real.pi * (i * k : Nat) / 2 ^ lg : ℝ) * Complex.I) := by
    rw [stageRoot_pow, ← Complex.exp_conj, map_mul, Complex.conj_ofReal, Complex.conj_I]
    push_cast
    ring_nf
  have hsqrt : (Real.sqrt scale : ℂ) * Real.sqrt scale = scale := by
    rw [← Complex.ofReal_mul, Real.mul_self_sqrt hscale]
  have hphase : phase (2 ^ lg) i k = Real.pi / (2 * 2 ^ lg : Nat) * (i + 1 / 8) + Real.pi / (2 * 2 ^ lg : Nat) * (k + 1 / 8) +
      2 * Real.pi * (i * k : Nat) / 2 ^ lg := by
    rw [phase]
    push_cast
    field_simp
    ring
  rw [toComplex_twiddle htw hi, toComplex_twiddle htw hk, hconj, hphase, ← hsqrt, Complex.ofReal_add, Complex.ofReal_add,
    add_mul, add_mul, Complex.exp_add, Complex.exp_add]
  ring

variable {fw : Nat → Cplx ℝ} (hfw : ExactRoots fw) {lg : Nat} (hlg : lg ≤ 11) {scale : ℝ} (hscale : 0 ≤ scale)
  {tw : Nat → Cplx ℝ} (htw : ExactTwiddles (2 ^ lg) scale tw) (spec : Nat → ℝ)

include hnum hneg hfw hlg hscale htw

/-- What the three steps make of the spectrum before the scatter, over the complex numbers (R195 to R198). -/
theorem toComplex_imdctProducts {k : Nat} (hk : k < 2 ^ lg) :
    toComplex ((imdctProducts (referenceNumerics num) lg spec tw fw).getD k default) =
      -(scale * ∑ i ∈ Finset.range (2 ^ lg),
        ⟨spec (2 * i), -spec (2 * 2 ^ lg - 1 - 2 * i)⟩ * Complex.exp (phase (2 ^ lg) i k * Complex.I)) := by
  rw [imdctProducts_getD _ _ _ _ _ hk, referenceNumerics_toArithmetic, referenceNumerics_fft, toComplex_postProduct hnum,
    toComplex_fft hnum hfw hlg _ hk, map_sum, Finset.mul_sum, Finset.mul_sum, ← Finset.sum_neg_distrib]
  refine Finset.sum_congr rfl fun i hi => ?_
  have hi' := Finset.mem_range.1 hi
  rw [mul_left_comm, ← twiddles_mul_root hscale htw hi' hk, map_mul, toComplex_preTwiddle hnum hneg _ _ _ hi', map_neg,
    Complex.conj_conj]
  ring

/-- The real part of a product is a sum of R199 in the first half of a period. -/
theorem imdctProducts_re {k : Nat} (hk : k < 2 ^ lg) :
    ((imdctProducts (referenceNumerics num) lg spec tw fw).getD k default).re =
      -(scale * cosineSum (2 * 2 ^ lg) spec (2 * k + 1 / 2)) := by
  have hre := congrArg Complex.re (toComplex_imdctProducts hnum hneg hfw hlg hscale htw spec hk)
  rw [Complex.neg_re, Complex.re_ofReal_mul, Complex.re_sum] at hre
  rw [cosineSum_at_place spec (Nat.two_pow_pos lg)]
  refine hre.trans ?_
  simp only [Complex.mul_re, Complex.exp_ofReal_mul_I_re, Complex.exp_ofReal_mul_I_im, neg_mul, sub_neg_eq_add]

/-- The imaginary part of a product is a sum of R199 half a period further on. -/
theorem imdctProducts_im {k : Nat} (hk : k < 2 ^ lg) :
    ((imdctProducts (referenceNumerics num) lg spec tw fw).getD k default).im =
      scale * cosineSum (2 * 2 ^ lg) spec ((2 * 2 ^ lg : Nat) + (2 * k + 1 / 2)) := by
  have him := congrArg Complex.im (toComplex_imdctProducts hnum hneg hfw hlg hscale htw spec hk)
  rw [Complex.neg_im, Complex.im_ofReal_mul, Complex.im_sum, ← mul_neg, ← Finset.sum_neg_distrib] at him
  rw [cosineSum_at_half_period spec (Nat.two_pow_pos lg)]
  refine him.trans ?_
  congr 1
  refine Finset.sum_congr rfl fun i _ => ?_
  rw [Complex.mul_im, Complex.exp_ofReal_mul_I_re, Complex.exp_ofReal_mul_I_im]
  ring

/-- The even places of the four views hold the samples of R199. -/
theorem scatterSample_even_exact (hm : 2 ^ lg % 2 = 0) {i : Nat} (hi : i < 2 ^ lg / 2) :
    let sample := scatterSample num (2 ^ lg) (imdctProducts (referenceNumerics num) lg spec tw fw)
    sample (2 * i) = inverseMdct (2 ^ lg) scale spec (2 * i) ∧
    sample (2 ^ lg + 2 * i) = inverseMdct (2 ^ lg) scale spec (2 ^ lg + 2 * i) ∧
    sample (2 * 2 ^ lg + 2 * i) = inverseMdct (2 ^ lg) scale spec (2 * 2 ^ lg + 2 * i) ∧
    sample (2 * 2 ^ lg + 2 ^ lg + 2 * i) = inverseMdct (2 ^ lg) scale spec (2 * 2 ^ lg + 2 ^ lg + 2 * i) := by
  have hn : 0 < 2 * 2 ^ lg := by omega
  have hq := Nat.cast_div_charZero (K := ℝ) (Nat.dvd_of_mod_eq_zero hm)
  have hre {k : Nat} (hk : k < 2 ^ lg) := imdctProducts_re hnum hneg hfw hlg hscale htw spec hk
  have him {k : Nat} (hk : k < 2 ^ lg) := imdctProducts_im hnum hneg hfw hlg hscale htw spec hk
  obtain ⟨view0, view1, view2, view3⟩ := scatterSample_even num (imdctProducts (referenceNumerics num) lg spec tw fw) hi
  refine ⟨?_, ?_, ?_, ?_⟩
  · rw [view0, hneg, hre (by omega), neg_neg, inverseMdct]
    congr 2
    push_cast [hq]
    ring
  · rw [view1, him (by omega), inverseMdct]
    congr 2
    push_cast
    ring
  · rw [view2, him (by omega), inverseMdct]
    congr 2
    push_cast [hq]
    ring
  · rw [view3, hre (by omega), ← mul_neg, ← cosineSum_two_mul_add spec _ hn, inverseMdct]
    congr 2
    push_cast
    ring

/-- The odd places of the four views hold the samples of R199. -/
theorem scatterSample_odd_exact (hm : 2 ^ lg % 2 = 0) {i : Nat} (hi : i < 2 ^ lg / 2) :
    let sample := scatterSample num (2 ^ lg) (imdctProducts (referenceNumerics num) lg spec tw fw)
    let place := 2 ^ lg - 1 - 2 * i
    sample place = inverseMdct (2 ^ lg) scale spec place ∧
    sample (2 ^ lg + place) = inverseMdct (2 ^ lg) scale spec (2 ^ lg + place) ∧
    sample (2 * 2 ^ lg + place) = inverseMdct (2 ^ lg) scale spec (2 * 2 ^ lg + place) ∧
    sample (2 * 2 ^ lg + 2 ^ lg + place) = inverseMdct (2 ^ lg) scale spec (2 * 2 ^ lg + 2 ^ lg + place) := by
  intro sample place
  have hn : 0 < 2 * 2 ^ lg := by omega
  have hq := Nat.cast_div_charZero (K := ℝ) (Nat.dvd_of_mod_eq_zero hm)
  have hplace : (place : ℝ) = 2 ^ lg - 1 - 2 * i := by
    rw [Nat.cast_sub (by omega), Nat.cast_sub (by omega)]
    push_cast
    ring
  have hre {k : Nat} (hk : k < 2 ^ lg) := imdctProducts_re hnum hneg hfw hlg hscale htw spec hk
  have him {k : Nat} (hk : k < 2 ^ lg) := imdctProducts_im hnum hneg hfw hlg hscale htw spec hk
  obtain ⟨view0, view1, view2, view3⟩ := scatterSample_odd num (imdctProducts (referenceNumerics num) lg spec tw fw) hm hi
  refine ⟨view0.trans ?_, view1.trans ?_, view2.trans ?_, view3.trans ?_⟩
  · rw [hneg, him (by omega), ← mul_neg, ← cosineSum_two_mul_sub spec _ hn, inverseMdct, hplace]
    congr 2
    push_cast
    ring
  · rw [hre (by omega), ← mul_neg, ← cosineSum_two_mul_sub spec _ hn, inverseMdct, Nat.cast_add _ place, hplace]
    congr 2
    push_cast [hq]
    ring
  · rw [hre (by omega), ← mul_neg, ← cosineSum_two_mul_sub spec _ hn, inverseMdct, Nat.cast_add _ place, hplace]
    congr 2
    push_cast
    ring
  · rw [him (by omega), ← cosineSum_four_mul_sub spec _ hn, inverseMdct, Nat.cast_add _ place, hplace]
    congr 2
    push_cast [hq]
    ring

/-- Every output sample is that of R199. -/
theorem imdct_getD_exact (hpos : 1 ≤ lg) {j : Nat} (hj : j < 4 * 2 ^ lg) (d : ℝ) :
    (imdct (referenceNumerics num) lg spec tw fw).getD j d = inverseMdct (2 ^ lg) scale spec j := by
  have hm := two_pow_mod_two hpos
  have hviews : ∃ k < 2 ^ lg, j = k ∨ j = 2 ^ lg + k ∨ j = 2 * 2 ^ lg + k ∨ j = 2 * 2 ^ lg + 2 ^ lg + k := by
    have hlt : j / 2 ^ lg < 4 := Nat.div_lt_of_lt_mul (by omega)
    have hdiv := Nat.div_add_mod' j (2 ^ lg)
    refine ⟨j % 2 ^ lg, Nat.mod_lt _ (Nat.two_pow_pos lg), ?_⟩
    generalize j / 2 ^ lg = c at hlt hdiv
    interval_cases c <;> omega
  rw [imdct_getD (referenceNumerics num) lg spec tw fw hj d]
  obtain ⟨k, hk, hview⟩ := hviews
  obtain ⟨i, hi, rfl | rfl⟩ := exists_loop_index hm hk
  · obtain ⟨view0, view1, view2, view3⟩ := scatterSample_even_exact hnum hneg hfw hlg hscale htw spec hm hi
    rcases hview with rfl | rfl | rfl | rfl
    exacts [view0, view1, view2, view3]
  · obtain ⟨view0, view1, view2, view3⟩ := scatterSample_odd_exact hnum hneg hfw hlg hscale htw spec hm hi
    rcases hview with rfl | rfl | rfl | rfl
    exacts [view0, view1, view2, view3]

end ExactSteps

/-- Settles O49: every sample stands at a place of a view, even or odd, and each of these holds the cosine sum. -/
theorem threeStepsComputeTheInverseMdct : Obligations.ThreeStepsComputeTheInverseMdct := by
  intro num spec tw fw lg scale hadd hsub hmul hneg hfw hscale hlo hhi n htw
  have hlength : (imdct (referenceNumerics num) lg spec tw fw).length = 2 * n := by
    rw [imdct_length, ← Nat.mul_assoc]
  refine ⟨hlength, fun j hj => ?_⟩
  exact imdct_getD_exact ⟨hadd, hsub, hmul⟩ hneg hfw hhi hscale.le htw spec (by omega) (by omega) 0

end Sys2Proof.Machine


/-! SUPPORT and PROOFS. The OLA unit's family: the order of encodings is that of their values, which is what the clamp compares;
the state after an `OLA` that passes its tests, read back word by word; and the samples of its three cases (45_overlap_add R220
to R231). -/

namespace Sys2Proof.Machine

/-! ### The clamp by value (45_overlap_add R226) -/

section Clamp

theorem fOrder_eq_signed (a : Word) : fOrder a = signed (fSign a) (fMag a) := rfl

/-- A strictly increasing change of magnitude that keeps 0 keeps the order of signed numbers. -/
theorem signed_lt_signed_iff {f : Nat → Nat} (hf : StrictMono f) (h0 : f 0 = 0) {neg neg' : Bool} {x y : Nat} :
    signed neg (f x) < signed neg' (f y) ↔ signed neg x < signed neg' y := by
  have hxy : f x < f y ↔ x < y := hf.lt_iff_lt
  have hyx : f y < f x ↔ y < x := hf.lt_iff_lt
  have hx : 0 < f x ↔ 0 < x := by simpa only [h0] using hf.lt_iff_lt (a := 0) (b := x)
  have hy : 0 < f y ↔ 0 < y := by simpa only [h0] using hf.lt_iff_lt (a := 0) (b := y)
  cases neg <;> cases neg' <;> simp only [signed, if_true, Bool.false_eq_true, if_false] <;> omega

variable {a b v : Word}

/-- Encodings are ordered as their values are, the infinities outside all finite ones. -/
theorem fOrder_lt_iff : fOrder a < fOrder b ↔ fValue a < fValue b := by
  simp only [fOrder_eq_signed, fValue_eq_signed, signed_lt_signed_iff magValue_strictMono rfl]

/-- The IEEE comparison of two encodings that are no NaN compares their values. -/
theorem fLess_iff (ha : fIsNan a = false) (hb : fIsNan b = false) : fLess a b = true ↔ fValue a < fValue b := by
  simp only [fLess, ha, hb, Bool.not_false, Bool.true_and, decide_eq_true_eq, fOrder_lt_iff]

theorem fValue_fOne : fValue fOne = 2 ^ 149 := by decide +kernel

theorem fValue_fMinusOne : fValue fMinusOne = -2 ^ 149 := by decide +kernel

/-- The first test of the clamp. -/
theorem fOne_less_iff (hv : fIsNan v = false) : fLess fOne v = true ↔ 2 ^ 149 < fValue v := by
  rw [fLess_iff (by decide) hv, fValue_fOne]

/-- The second test of the clamp. -/
theorem less_fMinusOne_iff (hv : fIsNan v = false) : fLess v fMinusOne = true ↔ fValue v < -2 ^ 149 := by
  rw [fLess_iff hv (by decide), fValue_fMinusOne]

theorem clamp_above (hv : fIsNan v = false) (h : 2 ^ 149 < fValue v) : clamp v = fOne :=
  if_pos ((fOne_less_iff hv).2 h)

theorem clamp_below (hv : fIsNan v = false) (h : fValue v < -2 ^ 149) : clamp v = fMinusOne := by
  have habove : ¬ fLess fOne v = true := mt (fOne_less_iff hv).1 (by omega)
  exact (if_neg habove).trans (if_pos ((less_fMinusOne_iff hv).2 h))

theorem clamp_between (hv : fIsNan v = false) (hlo : -2 ^ 149 ≤ fValue v) (hhi : fValue v ≤ 2 ^ 149) : clamp v = v := by
  have habove : ¬ fLess fOne v = true := mt (fOne_less_iff hv).1 (by omega)
  have hbelow : ¬ fLess v fMinusOne = true := mt (less_fMinusOne_iff hv).1 (by omega)
  exact (if_neg habove).trans (if_neg hbelow)

/-- A NaN fails both tests. -/
theorem clamp_nan (hv : fIsNan v = true) : clamp v = v := by
  simp [clamp, fLess, hv]

end Clamp

/-- Settles O43: the two tests compare values, since encodings are ordered as their values are; a NaN fails both. -/
theorem clampBoundsEverySample : Obligations.ClampBoundsEverySample := by
  refine ⟨fun v hv => ?_, by decide, by decide, by decide, fun v hv => clamp_nan hv⟩
  obtain ⟨hnan, -⟩ := fIsFinite_iff.1 hv
  exact ⟨clamp_above hnan, clamp_below hnan, clamp_between hnan⟩

/-! ### The state after `OLA` (45_overlap_add R228, R229, R232) -/

/-- The state that an `OLA` with channel `ch` and slot `slot` leaves behind when its four tests pass. -/
def State.afterOla (s : State) (ch slot : Nat) : State :=
  { ((s.storeWords (outSlot slot) (s.olaSamples ch)).storeWords (ovlBank ch) s.olaSaved).consumeImdResult with
    regs.outLen := wordOf (s.olaSamples ch).length }

section AfterOla

variable {s : State} {ch slot : Nat}

theorem exec_ola_afterOla {rs rt : Reg} (hc : s.configValid) (hi : s.regs.status.imdValid = true)
    (hch : (s.reg rs).toNat < s.cfg.maxCh) (hslot : (s.reg rt).toNat < s.cfg.maxCh) :
    exec (.ola rs rt) s = .next (s.afterOla (s.reg rs).toNat (s.reg rt).toNat) :=
  exec_ola_next hc hi hch hslot

/-- The saved overlap reads back, unclamped (R228). -/
theorem ovl_afterOla {k : Nat} (hk : k < s.blockSize s.regs.status.curBf / 2) :
    (s.afterOla ch slot).ovl ch k = s.element .imd (s.blockSize s.regs.status.curBf / 2 + k) := by
  have hlen : k < s.olaSaved.length := by rwa [olaSaved_length]
  calc (s.afterOla ch slot).ovl ch k
      = s.olaSaved[k] := wordAt_storeWords_inside (s.storeWords (outSlot slot) (s.olaSamples ch)) (ovlBank ch) s.olaSaved k hlen
    _ = s.element .imd (s.blockSize s.regs.status.curBf / 2 + k) := by
      simp only [State.olaSaved, List.getElem_map, List.getElem_range]

/-- The overlap banks end where the output slots begin, or below (R53). -/
theorem ovlBank_below_outSlot (hp : s.cfg.Valid) (hc : s.configValid) (hch : ch < s.cfg.maxCh) :
    ovlBank ch + 4 * s.olaSaved.length ≤ outSlot slot := by
  obtain ⟨-, -, -, -, -, -, hmax⟩ := hp
  obtain ⟨-, hend⟩ := olaSaved_inWindow hc hch
  simp only [MemName.base, MemName.size] at hend
  simp only [outSlot, MemName.base]
  omega

/-- The samples read back: the overlap, stored after them, lies below them. -/
theorem out_afterOla (hp : s.cfg.Valid) (hc : s.configValid) (hch : ch < s.cfg.maxCh) {k : Nat}
    (hk : k < (s.olaSamples ch).length) : (s.afterOla ch slot).out slot k = (s.olaSamples ch).getD k 0 := by
  have hbelow := ovlBank_below_outSlot (slot := slot) hp hc hch
  calc (s.afterOla ch slot).out slot k
      = (s.storeWords (outSlot slot) (s.olaSamples ch)).wordAt (outSlot slot + 4 * k) :=
        wordAt_storeWords_outside _ (ovlBank ch) s.olaSaved _ (.inr (by omega))
    _ = (s.olaSamples ch)[k] := wordAt_storeWords_inside s (outSlot slot) (s.olaSamples ch) k hk
    _ = (s.olaSamples ch).getD k 0 := (List.getD_eq_getElem _ _ hk).symm

/-- Outside the half-bank and the samples every byte reads as before. -/
theorem byteAt_afterOla {a : Nat}
    (hbank : a < ovlBank ch ∨ ovlBank ch + 4 * (s.blockSize s.regs.status.curBf / 2) ≤ a)
    (hout : a < outSlot slot ∨ outSlot slot + 4 * (s.olaSamples ch).length ≤ a) :
    (s.afterOla ch slot).byteAt a = s.byteAt a := by
  rw [← olaSaved_length] at hbank
  exact (byteAt_storeWords_outside _ (ovlBank ch) s.olaSaved a hbank).trans
    (byteAt_storeWords_outside s (outSlot slot) (s.olaSamples ch) a hout)

end AfterOla

/-- Settles O54: one store of the samples and one of the overlap, and two register fields. -/
theorem olaSavesTheOverlapAndKeepsTheRest : Obligations.OlaSavesTheOverlapAndKeepsTheRest := by
  intro s rs rt hp hc hi hch hslot ch slot half frames
  have hframes : (s.olaSamples ch).length = frames := olaSamples_length hc ch
  refine ⟨_, exec_ola_afterOla hc hi hch hslot, fun k hk => ovl_afterOla hk, fun a hbank hout => ?_, ?_, sameHidden_refl s,
    samePort_refl s⟩
  · rw [← hframes] at hout
    exact byteAt_afterOla hbank hout
  · rw [← hframes]
    rfl

/-- Settles O50: with no samples the store to the slot changes no byte. -/
theorem firstPacketYieldsNoFrames : Obligations.FirstPacketYieldsNoFrames := by
  intro s rs rt hc hi hprev hch hslot ch half
  have hnone : (s.olaSamples (s.reg rs).toNat).length = 0 := by simp [olaSamples_length hc, hprev]
  refine ⟨_, exec_ola_afterOla hc hi hch hslot, congrArg wordOf hnone, fun k hk => ovl_afterOla hk, fun a hbank => ?_⟩
  exact byteAt_afterOla hbank (by omega)

/-! ### The samples of the three cases (45_overlap_add R223 to R225) -/

section Samples

variable {s : State} {ch : Nat}

theorem olaSamples_equal (hprev : s.regs.status.prevValid = true)
    (h : s.blockSize s.regs.status.prevBf = s.blockSize s.regs.status.curBf) : s.olaSamples ch = s.olaEqual ch := by
  simp only [State.olaSamples, hprev, Bool.true_eq_false, if_false, if_pos h]

theorem olaSamples_longShort (hprev : s.regs.status.prevValid = true)
    (h : s.blockSize s.regs.status.curBf < s.blockSize s.regs.status.prevBf) : s.olaSamples ch = s.olaLongShort ch := by
  simp only [State.olaSamples, hprev, Bool.true_eq_false, if_false, if_neg h.ne', if_pos h]

theorem olaSamples_shortLong (hprev : s.regs.status.prevValid = true)
    (h : s.blockSize s.regs.status.prevBf < s.blockSize s.regs.status.curBf) : s.olaSamples ch = s.olaShortLong ch := by
  simp only [State.olaSamples, hprev, Bool.true_eq_false, if_false, if_neg h.ne, if_neg h.not_gt]

/-- A sample in the first of two tabulated parts. -/
theorem getD_append_map_range_left (f g : Nat → Word) {m n k : Nat} (hk : k < m) :
    ((List.range m).map f ++ (List.range n).map g).getD k 0 = f k := by
  rw [List.getD_append _ _ _ _ (by simpa using hk), getD_map_range f 0 hk]

/-- A sample in the second of two tabulated parts. -/
theorem getD_append_map_range_right (f g : Nat → Word) {m n k : Nat} (hk : k < n) :
    ((List.range m).map f ++ (List.range n).map g).getD (m + k) 0 = g k := by
  rw [List.getD_append_right _ _ _ _ (by simp), List.length_map, List.length_range, Nat.add_sub_cancel_left,
    getD_map_range g 0 hk]

/-- `OLA` writes the samples of the case that applies to its slot, and their number to `OUTLEN`. -/
theorem exec_ola_writes {rs rt : Reg} (hp : s.cfg.Valid) (hc : s.configValid) (hi : s.regs.status.imdValid = true)
    (hch : (s.reg rs).toNat < s.cfg.maxCh) (hslot : (s.reg rt).toNat < s.cfg.maxCh) {samples : List Word}
    (hsamples : s.olaSamples (s.reg rs).toNat = samples) :
    ∃ t, exec (.ola rs rt) s = .next t ∧ t.regs.outLen = BitVec.ofNat 32 samples.length ∧
      ∀ k < samples.length, t.out (s.reg rt).toNat k = samples.getD k 0 := by
  subst hsamples
  exact ⟨_, exec_ola_afterOla hc hi hch hslot, rfl, fun k hk => out_afterOla hp hc hch hk⟩

/-- The operations of the default `Numerics` that the kernel uses (R4). -/
theorem numerics_default_kernel (h : s.cfg.numerics = .binary32) : s.numerics.add = fadd ∧ s.numerics.mul = fmul := by
  rw [numerics_default h]
  exact ⟨rfl, rfl⟩

end Samples

/-- Settles O51: the case of equal sizes tabulates the kernel over the half-block. -/
theorem equalBlocksOverlapWhole : Obligations.EqualBlocksOverlapWhole := by
  intro s rs rt hp hc hi hprev hch hslot hsizes num ch len w
  obtain ⟨t, ht, hlen, hout⟩ := exec_ola_writes hp hc hi hch hslot (olaSamples_equal hprev hsizes)
  rw [olaEqual_length] at hlen hout
  exact ⟨numerics_default_kernel, t, ht, hlen, fun k hk => (hout k hk).trans (getD_map_range _ 0 hk)⟩

/-- Settles O52: the samples are the tabulated pass-through followed by the tabulated kernel. -/
theorem longThenShortOverlap : Obligations.LongThenShortOverlap := by
  intro s rs rt hp hc hi hprev hch hslot hsizes num ch slot start len w
  obtain ⟨t, ht, hlen, hout⟩ := exec_ola_writes hp hc hi hch hslot (olaSamples_longShort hprev hsizes)
  rw [olaLongShort_length] at hlen hout
  exact ⟨numerics_default_kernel, t, ht, hlen,
    fun k hk => (hout k (by omega)).trans (getD_append_map_range_left _ _ hk),
    fun k hk => (hout (start + k) (by omega)).trans (getD_append_map_range_right _ _ hk)⟩

/-- Settles O53: the samples are the tabulated kernel followed by the tabulated tail. -/
theorem shortThenLongOverlap : Obligations.ShortThenLongOverlap := by
  intro s rs rt hp hc hi hprev hch hslot hsizes num ch slot start len stop w
  obtain ⟨t, ht, hlen, hout⟩ := exec_ola_writes hp hc hi hch hslot (olaSamples_shortLong hprev hsizes)
  rw [olaShortLong_length] at hlen hout
  exact ⟨numerics_default_kernel, t, ht, hlen,
    fun k hk => (hout k (by omega)).trans (getD_append_map_range_left _ _ hk),
    fun k hk => (hout (len + k) (by omega)).trans (getD_append_map_range_right _ _ hk)⟩

/-! ### The tests of `OLA` and the lapping state (45_overlap_add R229 to R231) -/

section Tests

variable {s : State} {rs rt : Reg}

theorem exec_ola_bad_config (hc : ¬ s.configValid) :
    exec (.ola rs rt) s = .next (raise .badConfig s.regs.bsexp.toNat (encode (.ola rs rt)) s) := by
  simp only [exec, execOla, if_pos hc, settle_eq, commit_raised]

theorem exec_ola_no_result (hc : s.configValid) (hi : s.regs.status.imdValid = false) :
    exec (.ola rs rt) s = .next (raise .badSequence 0 (encode (.ola rs rt)) s) := by
  simp only [exec, execOla, if_neg (not_not.2 hc), if_pos hi, settle_eq, commit_raised]

theorem exec_ola_bad_channel (hc : s.configValid) (hi : s.regs.status.imdValid = true) (hch : s.cfg.maxCh ≤ s.operand rs) :
    exec (.ola rs rt) s = .next (raise .badOperand (s.operand rs) (encode (.ola rs rt)) s) := by
  simp only [exec, execOla, if_neg (not_not.2 hc), hi, Bool.true_eq_false, if_false, if_pos hch, settle_eq, commit_raised]

theorem exec_ola_bad_slot (hc : s.configValid) (hi : s.regs.status.imdValid = true) (hch : s.operand rs < s.cfg.maxCh)
    (hslot : s.cfg.maxCh ≤ s.operand rt) :
    exec (.ola rs rt) s = .next (raise .badOperand (s.operand rt) (encode (.ola rs rt)) s) := by
  simp only [exec, execOla, if_neg (not_not.2 hc), hi, Bool.true_eq_false, if_false, if_neg hch.not_ge, if_pos hslot,
    settle_eq, commit_raised]

end Tests

/-- Settles O55: each test raises when those before it passed. -/
theorem olaTestsInOrder : Obligations.OlaTestsInOrder := by
  intro s rs rt
  have hinfo : s.regs.bsexp.toNat = (s.regs.bsexp.setWidth 32).toNat :=
    (BitVec.toNat_setWidth_of_le (by decide)).symm
  exact ⟨decode_eq_command_iff.2 ⟨rfl, (wordR_eq_formatR 0x31 0 rs rt).symm⟩,
    fun hc => enters_error_with_word (hinfo ▸ exec_ola_bad_config hc),
    fun hc hi => enters_error_with_word (exec_ola_no_result hc hi),
    fun hc hi hch => enters_error_with_word (exec_ola_bad_channel hc hi hch),
    fun hc hi hch hslot => enters_error_with_word (exec_ola_bad_slot hc hi hch hslot)⟩

theorem exec_lapupd (s : State) (bf : Bool) : exec (.lapupd bf) s = .next (s.setLapping bf) := rfl

theorem exec_laprst (s : State) : exec .laprst s = .next s.clearLapping := rfl

/-- Settles O56: one write of the two lapping fields each. -/
theorem lappingStateCommands : Obligations.LappingStateCommands := by
  refine ⟨fun bf => ?_, decode_eq_command_iff.2 ⟨rfl, rfl⟩,
    fun s bf => ⟨_, exec_lapupd s bf, setLapping_regs s bf, onlyRegisters_regs s _⟩,
    fun s => ⟨_, exec_laprst s, clearLapping_regs s, onlyRegisters_regs s _⟩⟩
  obtain ⟨-, -, -, -, -, -, -, -, -, -, -, -, -, -, -, -, -, -, hword⟩ := word_of_command
  exact decode_eq_command_iff.2 ⟨rfl, (hword bf).symm⟩

end Sys2Proof.Machine


/-! SUPPORT and PROOFS. The exceptions' family: the gate of run state ERROR, how an error is entered and who leaves it, and that
every layer of a step answers a next state. -/

namespace Sys2Proof.Machine

/-! ### The command step of a dropped and of an illegal word (60_exceptions R253, R257) -/

section CommandStep

variable {s : State} {w : Word}

/-- The words that the gate lets pass are those of `ERRCLR` and `SRESET` (40_sys R105 step 1). -/
theorem acceptedInError_iff : acceptedInError w = true ↔ w = 0x03000000 ∨ w = 0x04000000 := by
  simp only [acceptedInError, Bool.or_eq_true, beq_iff_eq]

/-- The gate drops a word in run state ERROR without decoding it. -/
theorem runCommand_dropped (herr : s.regs.status.err = true) (ha : acceptedInError w = false) :
    runCommand w s = .next (dropCommand s) := by
  simp [runCommand, herr, ha]

/-- With no error latched an illegal word raises `IllegalCommand`. -/
theorem runCommand_illegal {why : Illegal} (hready : s.Ready) (hd : decode w = .illegal why) :
    runCommand w s = .next (raise .illegalCommand 0 w s) := by
  rw [State.Ready] at hready
  simp [runCommand, hready, hd]

/-- A word that selects no row of R83 is illegal. -/
theorem decode_illegal_of_no_row (h : ∀ r ∈ opcodeRows, r.selects w = false) : ∃ why, decode w = .illegal why := by
  cases hd : decode w with
  | illegal why => exact ⟨why, rfl⟩
  | command i =>
    obtain ⟨r, hr, hsel, -⟩ := decoderIsTheOpcodeTable.1 w i hd
    exact absurd (hsel.symm.trans (h r hr)) (by decide)

end CommandStep

/-- Settles O8: such a word is illegal, and without an error latched the decoder's refusal is an error entry. -/
theorem illegalWordRaisesIllegalCommand : Obligations.IllegalWordRaisesIllegalCommand := by
  intro s rest w hrst hp hready hrow
  obtain ⟨why, hd⟩ := decode_illegal_of_no_row hrow
  exact ⟨_, (step_issue hrst hp).trans (runCommand_illegal hready hd), raise_entered _ .illegalCommand 0 w⟩

/-- Settles O7: the gate lets no other word pass, and a dropped command only sets `DROP`. -/
theorem commandInErrorStateIsDropped : Obligations.CommandInErrorStateIsDropped := by
  intro s rest w hrst hp herr herrclr hsreset
  have ha : acceptedInError w = false :=
    Bool.eq_false_iff.2 fun h => (acceptedInError_iff.1 h).elim herrclr hsreset
  exact (step_issue hrst hp).trans (runCommand_dropped herr ha)

/-! ### Entering an error (60_exceptions R256) -/

/-- A command that ends in an error, begun without one, has entered it: no command's own writes set `ERR`. -/
theorem ExecResult.errorEntered {s t : State} {i : Instr} (h : ExecResult s i t) (hready : s.Ready)
    (herr : t.regs.status.err = true) : ∃ c info, c ≠ .none ∧ ErrorEntered s t c info (encode i) := by
  cases h with
  | @raised _ c info hc => exact ⟨c, wordOf info, hc, raise_entered s c info _⟩
  | errclr | sreset => exact absurd herr Bool.false_ne_true
  | _ => exact absurd (hready.symm.trans herr) (by decide)

/-- Settles O9: the word is illegal, or it is its command's own word and the command entered the error. -/
theorem errorEntryIsPrecise : Obligations.ErrorEntryIsPrecise := by
  intro w s t hready h herr
  rcases runCommand_cases h with ⟨hs, -⟩ | ⟨-, ⟨why, -, rfl⟩ | ⟨i, hd, hexec⟩⟩
  · exact absurd (hready.symm.trans hs) (by decide)
  · exact ⟨.illegalCommand, 0, nofun, raise_entered s .illegalCommand 0 w⟩
  · obtain ⟨-, rfl⟩ := decode_eq_command_iff.1 hd
    exact (exec_result hexec).errorEntered hready herr

/-! ### Leaving run state ERROR (60_exceptions R250)

Of the host's actions only a write to CMD can change STATUS, and with an error latched the gate lets two words pass. -/

/-- CMD is at offset 4 alone (10_state R14). -/
theorem portReg_eq_cmd {n : Nat} (h : portReg n = .cmd) : n = 4 := by
  unfold portReg at h
  split at h
  · cases h
  · cases hr : fixedRegs.lookup n with
    | none => rw [hr] at h; cases h
    | some r =>
      rw [hr, Option.getD_some] at h
      subst h
      obtain ⟨l, l', hl, -⟩ := List.lookup_eq_some_iff.1 hr
      have hmem : (n, PortReg.cmd) ∈ fixedRegs := by simp [hl]
      simpa [fixedRegs] using hmem

/-- The one access that names CMD is a word access at its address. -/
theorem legalTarget_eq_cmd {p : Params} {width : Width} {addr : Addr} (h : legalTarget p width addr = .reg .cmd) :
    width = .word ∧ addr = cmdAddr := by
  unfold legalTarget at h
  split at h
  · rename_i hlegal
    refine ⟨hlegal.1, BitVec.eq_of_toNat_eq (portReg_eq_cmd (n := addr.toNat) ?_)⟩
    unfold target at h
    split at h
    · exact Target.reg.inj h
    · split at h <;> cases h
  · cases h

/-- No register that the host writes holds STATUS. -/
theorem writePortReg_status (s : State) (r : PortReg) (v : Word) : (s.writePortReg r v).regs.status = s.regs.status := by
  cases r <;> rfl

section Status

variable {s t : State}

/-- A host write leaves STATUS as it was, or it issues a command. -/
theorem hostWrite_status {width : Width} {addr : Addr} {v : Word} (h : hostWrite width addr v s = .next t) :
    t.regs.status = s.regs.status ∨
    (HostAction.write width addr v = issue v ∧ runCommand v { s with answer := some .ok } = .next t) := by
  rcases hostWrite_cases h with ⟨-, rfl⟩ | ⟨hl, h⟩ | ⟨r, -, -, rfl⟩ | ⟨m, -, rfl⟩
  · exact .inl rfl
  · obtain ⟨rfl, rfl⟩ := legalTarget_eq_cmd hl
    exact .inr ⟨rfl, h⟩
  · exact .inl (writePortReg_status _ r v)
  · obtain ⟨-, -, hregs, -⟩ := writeMem_frame { s with answer := some .ok } m addr.toNat v
    exact .inl (congrArg Regs.status hregs)

/-- An action of the host leaves STATUS as it was, or it issues a command. -/
theorem serve_status {a : HostAction} (h : serve a s = .next t) :
    t.regs.status = s.regs.status ∨ ∃ w, a = issue w ∧ runCommand w { s with answer := some .ok } = .next t := by
  rcases serve_cases h with ⟨width, addr, -, rfl⟩ | ⟨width, addr, v, rfl, h⟩ | ⟨-, rfl⟩ | ⟨-, rfl⟩
  · exact .inl rfl
  · exact (hostWrite_status h).imp_right fun hissue => ⟨v, hissue⟩
  · exact .inl rfl
  · exact .inl rfl

/-- A word that clears a latched error is one that the gate lets pass. -/
theorem acceptedInError_of_clears {w : Word} (h : runCommand w s = .next t) (hs : s.regs.status.err = true)
    (ht : t.regs.status.err = false) : acceptedInError w = true := by
  rcases runCommand_cases h with ⟨-, -, rfl⟩ | ⟨hgate, -⟩
  · exact absurd (hs.symm.trans ht) (by decide)
  · exact hgate.resolve_left fun hready => absurd (hs.symm.trans hready) (by decide)

end Status

/-- Settles O11: outside reset a step that clears `ERR` has served a command that the gate let pass. -/
theorem errorStateIsLeftByClearsOnly : Obligations.ErrorStateIsLeftByClearsOnly := by
  intro s t hs h ht
  rcases step_cases h with ⟨hrst, -⟩ | ⟨-, -, rfl⟩ | ⟨-, a, rest, hp, h⟩
  · exact .inl hrst
  · exact absurd (hs.symm.trans ht) (by decide)
  · rcases serve_status h with hsame | ⟨w, rfl, h⟩
    · have herr : t.regs.status.err = true := by rw [hsame, hs]
      exact absurd (herr.symm.trans ht) (by decide)
    · exact .inr ⟨w, rest, hp, acceptedInError_iff.1 (acceptedInError_of_clears h hs ht)⟩

/-! ### Every layer of a step answers a next state and keeps the parameters (60_exceptions R255, 00_scope R4) -/

section Total

variable (s : State)

theorem exec_next (i : Instr) : ∃ t, exec i s = .next t ∧ t.cfg = s.cfg := by
  obtain ⟨e, h⟩ := exec_eq_commit i s
  exact ⟨_, h, (exec_result h).cfg_eq⟩

theorem runCommand_next (w : Word) : ∃ t, runCommand w s = .next t ∧ t.cfg = s.cfg := by
  unfold runCommand
  split
  · exact ⟨_, rfl, rfl⟩
  · split
    · exact ⟨_, rfl, rfl⟩
    · exact exec_next s _

theorem hostWrite_next (width : Width) (addr : Addr) (v : Word) :
    ∃ t, hostWrite width addr v s = .next t ∧ t.cfg = s.cfg := by
  unfold hostWrite
  split
  · exact runCommand_next { s with answer := some .ok } v
  · exact ⟨_, rfl, writePortReg_cfg _ _ v⟩
  · rename_i m _
    obtain ⟨-, -, -, -, hcfg, -⟩ := writeMem_frame { s with answer := some .ok } m addr.toNat v
    exact ⟨_, rfl, hcfg⟩
  · exact ⟨_, rfl, rfl⟩

theorem serve_next (a : HostAction) : ∃ t, serve a s = .next t ∧ t.cfg = s.cfg := by
  cases a with
  | write width addr v => exact hostWrite_next s width addr v
  | read | assertRst | releaseRst => exact ⟨_, rfl, rfl⟩

theorem heldInReset_cfg : (heldInReset s).cfg = s.cfg := by
  rcases heldInReset_cases s with ⟨rest, e⟩ | ⟨rest, e⟩ <;> simp [e]

end Total

/-- While `rst` is asserted a step serves nothing (70_reset_and_hazards R290, log 8). -/
theorem step_held {s : State} (hr : s.rst = true) : step s = .next (heldInReset s) := by
  simp [step, stepPort, hr]

/-- Settles O10: a step holds in reset, waits, or serves an action, and each of them answers a next state. -/
theorem everyStepAnswersANextState : Obligations.EveryStepAnswersANextState := by
  intro s
  cases hr : s.rst with
  | true => exact ⟨_, step_held hr, heldInReset_cfg s⟩
  | false =>
    cases hp : s.pending with
    | nil => exact ⟨s, step_waits hr hp, rfl⟩
    | cons a rest =>
      rw [step_serves hr hp]
      exact serve_next { s with pending := rest } a

/-! ### A refused host access (20_memory R52, 60_exceptions R264) -/

section Refused

variable {p : Params} {width : Width} {addr : Addr}

/-- An address outside every window belongs to no memory. -/
theorem memoryAt_eq_none {a : Nat} (h : ∀ m : MemName, ¬ (m.base ≤ a ∧ a < m.base + m.size p)) : memoryAt p a = none :=
  List.find?_eq_none.2 fun m _ hm => h m ((holds_iff p m a).1 hm)

/-- An access that is not a word's, is misaligned, or lies outside every window names nothing. -/
theorem legalTarget_unmapped (h : width ≠ .word ∨ addr.toNat % 4 ≠ 0 ∨
    (0x1000 ≤ addr.toNat ∧ ∀ m : MemName, ¬ (m.base ≤ addr.toNat ∧ addr.toNat < m.base + m.size p))) :
    legalTarget p width addr = .unmapped := by
  unfold legalTarget
  split
  · rename_i hlegal
    obtain ⟨hreg, hmem⟩ := (h.resolve_left fun hw => hw hlegal.1).resolve_left fun h4 => h4 hlegal.2
    simp only [target, if_neg hreg.not_gt, memoryAt_eq_none hmem]
  · rfl

end Refused

/-- Settles O19: each ground leaves the access without a target, which a read and a write both answer with ERR. -/
theorem refusedAccessIsAnsweredErrAndChangesNothing : Obligations.RefusedAccessIsAnsweredErrAndChangesNothing := by
  intro s width addr v h
  have ht : legalTarget s.cfg width addr = .unmapped := legalTarget_unmapped h
  exact ⟨by simp only [serve, State.portRead, ht], by simp only [serve, hostWrite, ht]⟩

end Sys2Proof.Machine


/-! SUPPORT and PROOFS. The family of reset and hazards: an `OLA` uses up the result of an `IMDCT`, and what a step does while
`rst` is asserted. -/

namespace Sys2Proof.Machine

/-! ### The handshake of `IMDCT` and `OLA` (70_reset_and_hazards R301) -/

/-- An `OLA` that ends without an error has found valid block sizes, leaves them valid and clears IMDVALID (R229). -/
theorem ExecResult.ola_consumes_result {s t : State} {rs rt : Reg} (h : ExecResult s (.ola rs rt) t) (ht : t.Ready) :
    t.configValid ∧ t.regs.status.imdValid = false := by
  cases h with
  | raised => exact absurd ht.symm Bool.false_ne_true
  | ola rs rt hv => exact ⟨hv, rfl⟩

/-- Settles O57: the first `OLA` leaves no result, and with its valid block sizes an `IMDCT` completes. -/
theorem eachResultIsConsumedOnce : Obligations.EachResultIsConsumedOnce := by
  intro s t rs rt rs' rt' _ h ht
  obtain ⟨hc, hnone⟩ := (exec_result h).ola_consumes_result ht
  exact ⟨⟨_, exec_ola_no_result hc hnone, raise_entered t .badSequence 0 _⟩,
    fun bf => ⟨_, exec_imdct_next hc, ht, rfl, rfl⟩⟩

/-! ### The edges of `rst` among the waiting actions (70_reset_and_hazards R290, log 8) -/

section Edges

variable {before : List HostAction}

/-- Transactions that wait ahead of an edge do not hide it, and stay waiting in order. -/
theorem nextRstEdge_append (ha : .assertRst ∉ before) (hr : .releaseRst ∉ before) (tail : List HostAction) :
    nextRstEdge (before ++ tail) = (nextRstEdge tail).map fun e => (e.1, before ++ e.2) := by
  induction before with
  | nil => simp
  | cons a before ih =>
    rw [List.mem_cons, not_or] at ha hr
    obtain ⟨ha, ha'⟩ := ha
    obtain ⟨hr, hr'⟩ := hr
    have hskip : nextRstEdge (a :: (before ++ tail)) = (nextRstEdge (before ++ tail)).map fun e => (e.1, a :: e.2) := by
      cases a with
      | read | write => rfl
      | assertRst => exact absurd rfl ha
      | releaseRst => exact absurd rfl hr
    rw [List.cons_append, hskip, ih ha' hr', Option.map_map]
    rfl

/-- Transactions alone hold no edge. -/
theorem nextRstEdge_eq_none (ha : .assertRst ∉ before) (hr : .releaseRst ∉ before) : nextRstEdge before = none := by
  simpa [nextRstEdge] using nextRstEdge_append ha hr []

variable {s : State} {rest : List HostAction}

theorem heldInReset_release (ha : .assertRst ∉ before) (hr : .releaseRst ∉ before)
    (hp : s.pending = before ++ .releaseRst :: rest) : heldInReset s = hardReset { s with pending := before ++ rest } := by
  simp [heldInReset, hp, nextRstEdge_append ha hr, nextRstEdge]

theorem heldInReset_assert (ha : .assertRst ∉ before) (hr : .releaseRst ∉ before)
    (hp : s.pending = before ++ .assertRst :: rest) : heldInReset s = { s with pending := before ++ rest } := by
  simp [heldInReset, hp, nextRstEdge_append ha hr, nextRstEdge]

theorem heldInReset_no_edge (ha : .assertRst ∉ s.pending) (hr : .releaseRst ∉ s.pending) : heldInReset s = s := by
  simp [heldInReset, nextRstEdge_eq_none ha hr]

end Edges

/-- Settles O58: the first edge among the waiting actions decides the step, and both the released block and the reset state
of the model have their registers at the reset values. -/
theorem hardResetLeavesTheResetValues : Obligations.HardResetLeavesTheResetValues := by
  refine ⟨fun s before rest hrst ha hr => ?_,
    readPortReg_of_reset rfl, rfl, rfl, rfl, fun _ => rfl, rfl, rfl⟩
  rw [step_held hrst]
  refine ⟨fun hp => ⟨_, rfl, ?_⟩, fun hp => ?_, fun hp => ?_⟩
  · rw [heldInReset_release ha hr hp]
    exact ⟨readPortReg_of_reset (hardReset_regs _), rfl, rfl, rfl, rfl, fun _ => rfl, rfl, rfl, rfl⟩
  · rw [heldInReset_assert ha hr hp]
  · subst hp
    rw [heldInReset_no_edge ha hr]

end Sys2Proof.Machine
